-- ==== Sys2Proof/Word.lean ====
section
/-! DEFINITION. The word types of the machine (00_scope.md R5): 8-bit registers and bytes, 16-bit addresses and
program counter. Arithmetic on them wraps (R9) because it is `BitVec` arithmetic. -/

namespace Sys2Proof

/-- An 8-bit value: a register, a byte of memory, an opcode (R5). -/
abbrev Byte := BitVec 8

/-- A 16-bit value: the program counter, an address, an operand word (R5). -/
abbrev Word := BitVec 16

end Sys2Proof
end

