-- ==== Sys2Proof/Syntax.lean ====
section
/-! DEFINITION. The instructions (30_encoding.md R110 to R116): one constructor per mnemonic of the opcode table.
A row of the table is a mnemonic together with its addressing mode (R111), so a row is a constructor of `Instr`
with its form; the three mnemonics that own several bytes in one mode (NOP, SBC and the bytes without a handler)
carry what tells those bytes apart. An instruction carries no operand bytes: the spec's decoder sees the opcode
byte alone (R117, R121) and the addressing mode reads the operand through the bus when the instruction runs
(R113, R140). -/

namespace Sys2Proof

/-- The fourteen addressing-mode names (40_execution_and_addressing.md R145 to R157). -/
inductive Mode where
  | implied | accumulator | immediate
  | zeroPage | zeroPageX | zeroPageY
  | absolute | absoluteX | absoluteY
  | indexedIndirect | indirectIndexed
  | indirect | indirectWithJmpBug
  | relative
deriving DecidableEq, Repr

/-- The modes that name a byte of memory an instruction may read or write. -/
inductive MemMode where
  | zp | zpX | zpY | abs | absX | absY | indX | indY
deriving DecidableEq, Repr

/-- The forms of a read-class instruction: the operand byte itself, or a byte of memory. -/
inductive DataMode where
  | imm
  | mem (m : MemMode)
deriving DecidableEq, Repr

/-- The forms of a shift or rotate (43_shift_compare_incdec.md): the accumulator, or a byte of memory. -/
inductive ShiftMode where
  | acc
  | mem (m : MemMode)
deriving DecidableEq, Repr

/-- The two forms of JMP (R249). -/
inductive JmpMode where
  | abs | ind
deriving DecidableEq, Repr

/-- The forms of NOP (R271 to R273): implied, or with an operand whose byte is read and dropped. -/
inductive NopMode where
  | implied
  | operand (m : DataMode)
deriving DecidableEq, Repr

/-- R112 and the operand forms of R114: the mode of each form. -/
def MemMode.mode : MemMode → Mode
  | .zp => .zeroPage
  | .zpX => .zeroPageX
  | .zpY => .zeroPageY
  | .abs => .absolute
  | .absX => .absoluteX
  | .absY => .absoluteY
  | .indX => .indexedIndirect
  | .indY => .indirectIndexed

def DataMode.mode : DataMode → Mode
  | .imm => .immediate
  | .mem m => m.mode

def ShiftMode.mode : ShiftMode → Mode
  | .acc => .accumulator
  | .mem m => m.mode

def JmpMode.mode : JmpMode → Mode
  | .abs => .absolute
  | .ind => .indirectWithJmpBug

def NopMode.mode : NopMode → Mode
  | .implied => .implied
  | .operand m => m.mode

/-- The instructions, in the order of the opcode table's first rows. -/
inductive Instr where
  /-- One of the 26 bytes that have no handler (R115); `op` is the byte. -/
  | unimplemented (op : Byte)
  | ora (m : DataMode)
  | slo (m : MemMode)
  /-- `op` is the opcode byte, since several bytes are NOP in one mode (R116). -/
  | nop (m : NopMode) (op : Byte)
  | asl (m : ShiftMode)
  | php
  | bpl
  | clc
  | jsr
  | and (m : DataMode)
  | rla (m : MemMode)
  | bit (m : MemMode)
  | rol (m : ShiftMode)
  | plp
  | bmi
  | sec
  | rti
  | eor (m : DataMode)
  | sre (m : MemMode)
  | lsr (m : ShiftMode)
  | pha
  | jmp (m : JmpMode)
  | bvc
  | cli
  | rts
  | adc (m : DataMode)
  | rra (m : MemMode)
  | ror (m : ShiftMode)
  | pla
  | bvs
  | sei
  | sta (m : MemMode)
  | sax (m : MemMode)
  | sty (m : MemMode)
  | stx (m : MemMode)
  | dey
  | txa
  | bcc
  | tya
  | txs
  | ldy (m : DataMode)
  | lda (m : DataMode)
  | ldx (m : DataMode)
  | lax (m : MemMode)
  | tay
  | tax
  | bcs
  | clv
  | tsx
  | cpy (m : DataMode)
  | cmp (m : DataMode)
  | dcp (m : MemMode)
  | dec (m : MemMode)
  | iny
  | dex
  | bne
  | cld
  | cpx (m : DataMode)
  /-- `undocumented` tells the immediate byte `$EB` from `$E9` (R299). -/
  | sbc (m : DataMode) (undocumented : Bool)
  | isc (m : MemMode)
  | inc (m : MemMode)
  | inx
  | beq
  | sed
deriving DecidableEq, Repr

end Sys2Proof
end

