-- ==== Sys2Proof/WellFormed.lean ====
section
/-! DEFINITION. Which instructions exist: the (mnemonic, mode) pairs that have an opcode byte, from the Encoding
tables of 41_data_movement.md to 46_illegal_composites.md and from R115, R116. -/

namespace Sys2Proof

/-- R115: the 26 bytes that have no handler. -/
def unimplementedBytes : List Byte :=
  [0x00#8, 0x02#8, 0x12#8, 0x22#8, 0x32#8, 0x42#8, 0x52#8, 0x62#8, 0x72#8, 0x92#8, 0xB2#8, 0xD2#8, 0xF2#8] ++
  [0x0B#8, 0x2B#8, 0x4B#8, 0x6B#8, 0x8B#8, 0xAB#8, 0xCB#8, 0x93#8, 0x9F#8, 0x9C#8, 0x9E#8, 0x9B#8, 0xBB#8]

/-- R271 to R273: the opcode bytes of NOP in each of its forms. -/
def nopBytes : NopMode → List Byte
  | .implied => [0xEA#8, 0x1A#8, 0x3A#8, 0x5A#8, 0x7A#8, 0xDA#8, 0xFA#8]
  | .operand .imm => [0x80#8, 0x82#8, 0x89#8, 0xC2#8, 0xE2#8]
  | .operand (.mem .zp) => [0x04#8, 0x44#8, 0x64#8]
  | .operand (.mem .zpX) => [0x14#8, 0x34#8, 0x54#8, 0x74#8, 0xD4#8, 0xF4#8]
  | .operand (.mem .abs) => [0x0C#8]
  | .operand (.mem .absX) => [0x1C#8, 0x3C#8, 0x5C#8, 0x7C#8, 0xDC#8, 0xFC#8]
  | .operand (.mem .zpY) => []
  | .operand (.mem .absY) => []
  | .operand (.mem .indX) => []
  | .operand (.mem .indY) => []

/-- The seven memory modes of STA and of the composites (R183, R290): all but zero page indexed by Y. -/
def sevenModes : List MemMode := [.zp, .zpX, .abs, .absX, .absY, .indX, .indY]

/-- The four memory modes of the documented read-modify-write instructions (R220 to R223, R227, R228). -/
def rmwModes : List MemMode := [.zp, .zpX, .abs, .absX]

/-- A data form whose memory modes are those listed; the immediate form is admitted. -/
def DataMode.within (ms : List MemMode) : DataMode → Bool
  | .imm => true
  | .mem m => decide (m ∈ ms)

/-- A shift form whose memory modes are the four of `rmwModes`. -/
def ShiftMode.admitted : ShiftMode → Bool
  | .acc => true
  | .mem m => decide (m ∈ rmwModes)

/-- The instruction has an opcode byte in the table of R114. -/
def Instr.wf : Instr → Bool
  | .unimplemented op => decide (op ∈ unimplementedBytes)
  | .nop m op => decide (op ∈ nopBytes m)
  | .lda m => m.within sevenModes
  | .adc m => m.within sevenModes
  | .and m => m.within sevenModes
  | .ora m => m.within sevenModes
  | .eor m => m.within sevenModes
  | .cmp m => m.within sevenModes
  | .sbc m undocumented => m.within sevenModes && (!undocumented || decide (m = .imm))
  | .ldx m => m.within [.zp, .zpY, .abs, .absY]
  | .ldy m => m.within [.zp, .zpX, .abs, .absX]
  | .cpx m => m.within [.zp, .abs]
  | .cpy m => m.within [.zp, .abs]
  | .bit m => decide (m ∈ [MemMode.zp, .abs])
  | .sta m => decide (m ∈ sevenModes)
  | .stx m => decide (m ∈ [MemMode.zp, .zpY, .abs])
  | .sty m => decide (m ∈ [MemMode.zp, .zpX, .abs])
  | .asl m => m.admitted
  | .lsr m => m.admitted
  | .rol m => m.admitted
  | .ror m => m.admitted
  | .inc m => decide (m ∈ rmwModes)
  | .dec m => decide (m ∈ rmwModes)
  | .slo m => decide (m ∈ sevenModes)
  | .sre m => decide (m ∈ sevenModes)
  | .rla m => decide (m ∈ sevenModes)
  | .rra m => decide (m ∈ sevenModes)
  | .dcp m => decide (m ∈ sevenModes)
  | .isc m => decide (m ∈ sevenModes)
  | .lax m => decide (m ∈ [MemMode.zp, .zpY, .abs, .absY, .indX, .indY])
  | .sax m => decide (m ∈ [MemMode.zp, .zpY, .abs, .indX])
  | .jmp _ => true
  | .php | .plp | .pha | .pla => true
  | .bpl | .bmi | .bvc | .bvs | .bcc | .bcs | .bne | .beq => true
  | .clc | .sec | .cli | .sei | .clv | .cld | .sed => true
  | .jsr | .rts | .rti => true
  | .tax | .tay | .txa | .tya | .tsx | .txs => true
  | .inx | .dex | .iny | .dey => true

end Sys2Proof
end

