-- ==== Sys2Proof/Decode.lean ====
section
/-! DEFINITION. The decoder, written from the opcode matrix of 30_encoding.md R114 row by row, and the encoder,
written from the Encoding tables of the family files 41 to 46. Decoding looks at the opcode byte alone and is total on
bytes (R111, R117, R121); the 26 bytes of R115 decode to `Instr.unimplemented`, whose meaning raises
`UnknownOpcode`. -/

namespace Sys2Proof

/-- R114: one row of the opcode matrix (row = high nibble, column = low nibble). -/
def opcodeRow : Nat → List Instr
  | 0 => [.unimplemented 0x00#8, .ora (.mem .indX), .unimplemented 0x02#8, .slo .indX,
      .nop (.operand (.mem .zp)) 0x04#8, .ora (.mem .zp), .asl (.mem .zp), .slo .zp,
      .php, .ora .imm, .asl .acc, .unimplemented 0x0B#8,
      .nop (.operand (.mem .abs)) 0x0C#8, .ora (.mem .abs), .asl (.mem .abs), .slo .abs]
  | 1 => [.bpl, .ora (.mem .indY), .unimplemented 0x12#8, .slo .indY,
      .nop (.operand (.mem .zpX)) 0x14#8, .ora (.mem .zpX), .asl (.mem .zpX), .slo .zpX,
      .clc, .ora (.mem .absY), .nop .implied 0x1A#8, .slo .absY,
      .nop (.operand (.mem .absX)) 0x1C#8, .ora (.mem .absX), .asl (.mem .absX), .slo .absX]
  | 2 => [.jsr, .and (.mem .indX), .unimplemented 0x22#8, .rla .indX,
      .bit .zp, .and (.mem .zp), .rol (.mem .zp), .rla .zp,
      .plp, .and .imm, .rol .acc, .unimplemented 0x2B#8,
      .bit .abs, .and (.mem .abs), .rol (.mem .abs), .rla .abs]
  | 3 => [.bmi, .and (.mem .indY), .unimplemented 0x32#8, .rla .indY,
      .nop (.operand (.mem .zpX)) 0x34#8, .and (.mem .zpX), .rol (.mem .zpX), .rla .zpX,
      .sec, .and (.mem .absY), .nop .implied 0x3A#8, .rla .absY,
      .nop (.operand (.mem .absX)) 0x3C#8, .and (.mem .absX), .rol (.mem .absX), .rla .absX]
  | 4 => [.rti, .eor (.mem .indX), .unimplemented 0x42#8, .sre .indX,
      .nop (.operand (.mem .zp)) 0x44#8, .eor (.mem .zp), .lsr (.mem .zp), .sre .zp,
      .pha, .eor .imm, .lsr .acc, .unimplemented 0x4B#8,
      .jmp .abs, .eor (.mem .abs), .lsr (.mem .abs), .sre .abs]
  | 5 => [.bvc, .eor (.mem .indY), .unimplemented 0x52#8, .sre .indY,
      .nop (.operand (.mem .zpX)) 0x54#8, .eor (.mem .zpX), .lsr (.mem .zpX), .sre .zpX,
      .cli, .eor (.mem .absY), .nop .implied 0x5A#8, .sre .absY,
      .nop (.operand (.mem .absX)) 0x5C#8, .eor (.mem .absX), .lsr (.mem .absX), .sre .absX]
  | 6 => [.rts, .adc (.mem .indX), .unimplemented 0x62#8, .rra .indX,
      .nop (.operand (.mem .zp)) 0x64#8, .adc (.mem .zp), .ror (.mem .zp), .rra .zp,
      .pla, .adc .imm, .ror .acc, .unimplemented 0x6B#8,
      .jmp .ind, .adc (.mem .abs), .ror (.mem .abs), .rra .abs]
  | 7 => [.bvs, .adc (.mem .indY), .unimplemented 0x72#8, .rra .indY,
      .nop (.operand (.mem .zpX)) 0x74#8, .adc (.mem .zpX), .ror (.mem .zpX), .rra .zpX,
      .sei, .adc (.mem .absY), .nop .implied 0x7A#8, .rra .absY,
      .nop (.operand (.mem .absX)) 0x7C#8, .adc (.mem .absX), .ror (.mem .absX), .rra .absX]
  | 8 => [.nop (.operand .imm) 0x80#8, .sta .indX, .nop (.operand .imm) 0x82#8, .sax .indX,
      .sty .zp, .sta .zp, .stx .zp, .sax .zp,
      .dey, .nop (.operand .imm) 0x89#8, .txa, .unimplemented 0x8B#8,
      .sty .abs, .sta .abs, .stx .abs, .sax .abs]
  | 9 => [.bcc, .sta .indY, .unimplemented 0x92#8, .unimplemented 0x93#8,
      .sty .zpX, .sta .zpX, .stx .zpY, .sax .zpY,
      .tya, .sta .absY, .txs, .unimplemented 0x9B#8,
      .unimplemented 0x9C#8, .sta .absX, .unimplemented 0x9E#8, .unimplemented 0x9F#8]
  | 10 => [.ldy .imm, .lda (.mem .indX), .ldx .imm, .lax .indX,
      .ldy (.mem .zp), .lda (.mem .zp), .ldx (.mem .zp), .lax .zp,
      .tay, .lda .imm, .tax, .unimplemented 0xAB#8,
      .ldy (.mem .abs), .lda (.mem .abs), .ldx (.mem .abs), .lax .abs]
  | 11 => [.bcs, .lda (.mem .indY), .unimplemented 0xB2#8, .lax .indY,
      .ldy (.mem .zpX), .lda (.mem .zpX), .ldx (.mem .zpY), .lax .zpY,
      .clv, .lda (.mem .absY), .tsx, .unimplemented 0xBB#8,
      .ldy (.mem .absX), .lda (.mem .absX), .ldx (.mem .absY), .lax .absY]
  | 12 => [.cpy .imm, .cmp (.mem .indX), .nop (.operand .imm) 0xC2#8, .dcp .indX,
      .cpy (.mem .zp), .cmp (.mem .zp), .dec .zp, .dcp .zp,
      .iny, .cmp .imm, .dex, .unimplemented 0xCB#8,
      .cpy (.mem .abs), .cmp (.mem .abs), .dec .abs, .dcp .abs]
  | 13 => [.bne, .cmp (.mem .indY), .unimplemented 0xD2#8, .dcp .indY,
      .nop (.operand (.mem .zpX)) 0xD4#8, .cmp (.mem .zpX), .dec .zpX, .dcp .zpX,
      .cld, .cmp (.mem .absY), .nop .implied 0xDA#8, .dcp .absY,
      .nop (.operand (.mem .absX)) 0xDC#8, .cmp (.mem .absX), .dec .absX, .dcp .absX]
  | 14 => [.cpx .imm, .sbc (.mem .indX) false, .nop (.operand .imm) 0xE2#8, .isc .indX,
      .cpx (.mem .zp), .sbc (.mem .zp) false, .inc .zp, .isc .zp,
      .inx, .sbc .imm false, .nop .implied 0xEA#8, .sbc .imm true,
      .cpx (.mem .abs), .sbc (.mem .abs) false, .inc .abs, .isc .abs]
  | 15 => [.beq, .sbc (.mem .indY) false, .unimplemented 0xF2#8, .isc .indY,
      .nop (.operand (.mem .zpX)) 0xF4#8, .sbc (.mem .zpX) false, .inc .zpX, .isc .zpX,
      .sed, .sbc (.mem .absY) false, .nop .implied 0xFA#8, .isc .absY,
      .nop (.operand (.mem .absX)) 0xFC#8, .sbc (.mem .absX) false, .inc .absX, .isc .absX]
  | _ => []

/-- R111, R121: the instruction of an opcode byte. Every row of the matrix has sixteen cells, so the default is
never taken (`Sys2Proof.Laws.opcodeRow_length`). -/
def decodeByte (b : Byte) : Instr :=
  (opcodeRow (b.toNat / 16)).getD (b.toNat % 16) (.unimplemented b)

/-- Why a list of bytes is no instruction. -/
inductive DecodeError where
  /-- There is no opcode byte to read. -/
  | noOpcodeByte
deriving DecidableEq, Repr

/-- R110, R117: the first byte alone selects the instruction; operand bytes are never examined. -/
def decode : List Byte → Except DecodeError Instr
  | [] => .error .noOpcodeByte
  | op :: _ => .ok (decodeByte op)

/-- The opcode columns of 42_arithmetic_logical.md's table of eight modes (also R180, R224). -/
def aluOpcode (imm zp zpX abs absX absY indX indY : Byte) : DataMode → Option Byte
  | .imm => some imm
  | .mem .zp => some zp
  | .mem .zpX => some zpX
  | .mem .abs => some abs
  | .mem .absX => some absX
  | .mem .absY => some absY
  | .mem .indX => some indX
  | .mem .indY => some indY
  | .mem .zpY => none

/-- The opcode columns of the seven-mode table of R290 (also R183). -/
def sevenOpcode (zp zpX abs absX absY indX indY : Byte) : MemMode → Option Byte
  | .zp => some zp
  | .zpX => some zpX
  | .abs => some abs
  | .absX => some absX
  | .absY => some absY
  | .indX => some indX
  | .indY => some indY
  | .zpY => none

/-- The opcode columns of the four memory modes of R227, R228. -/
def rmwOpcode (zp zpX abs absX : Byte) : MemMode → Option Byte
  | .zp => some zp
  | .zpX => some zpX
  | .abs => some abs
  | .absX => some absX
  | .zpY | .absY | .indX | .indY => none

/-- The opcode columns of the shift table of 43_shift_compare_incdec.md. -/
def shiftOpcode (acc zp zpX abs absX : Byte) : ShiftMode → Option Byte
  | .acc => some acc
  | .mem m => rmwOpcode zp zpX abs absX m

/-- The opcode byte of an instruction; none for a pair that has no byte. -/
def opcode : Instr → Option Byte
  -- R115
  | .unimplemented op => if op ∈ unimplementedBytes then some op else none
  -- 41_data_movement.md
  | .lda m => aluOpcode 0xA9#8 0xA5#8 0xB5#8 0xAD#8 0xBD#8 0xB9#8 0xA1#8 0xB1#8 m
  | .ldx .imm => some 0xA2#8
  | .ldx (.mem .zp) => some 0xA6#8
  | .ldx (.mem .zpY) => some 0xB6#8
  | .ldx (.mem .abs) => some 0xAE#8
  | .ldx (.mem .absY) => some 0xBE#8
  | .ldx (.mem .zpX) | .ldx (.mem .absX) | .ldx (.mem .indX) | .ldx (.mem .indY) => none
  | .ldy .imm => some 0xA0#8
  | .ldy (.mem .zp) => some 0xA4#8
  | .ldy (.mem .zpX) => some 0xB4#8
  | .ldy (.mem .abs) => some 0xAC#8
  | .ldy (.mem .absX) => some 0xBC#8
  | .ldy (.mem .zpY) | .ldy (.mem .absY) | .ldy (.mem .indX) | .ldy (.mem .indY) => none
  | .sta m => sevenOpcode 0x85#8 0x95#8 0x8D#8 0x9D#8 0x99#8 0x81#8 0x91#8 m
  | .stx .zp => some 0x86#8
  | .stx .zpY => some 0x96#8
  | .stx .abs => some 0x8E#8
  | .stx .zpX | .stx .absX | .stx .absY | .stx .indX | .stx .indY => none
  | .sty .zp => some 0x84#8
  | .sty .zpX => some 0x94#8
  | .sty .abs => some 0x8C#8
  | .sty .zpY | .sty .absX | .sty .absY | .sty .indX | .sty .indY => none
  | .tax => some 0xAA#8
  | .tay => some 0xA8#8
  | .txa => some 0x8A#8
  | .tya => some 0x98#8
  | .tsx => some 0xBA#8
  | .txs => some 0x9A#8
  -- 42_arithmetic_logical.md
  | .adc m => aluOpcode 0x69#8 0x65#8 0x75#8 0x6D#8 0x7D#8 0x79#8 0x61#8 0x71#8 m
  | .sbc m false => aluOpcode 0xE9#8 0xE5#8 0xF5#8 0xED#8 0xFD#8 0xF9#8 0xE1#8 0xF1#8 m
  | .sbc .imm true => some 0xEB#8
  | .sbc (.mem _) true => none
  | .and m => aluOpcode 0x29#8 0x25#8 0x35#8 0x2D#8 0x3D#8 0x39#8 0x21#8 0x31#8 m
  | .ora m => aluOpcode 0x09#8 0x05#8 0x15#8 0x0D#8 0x1D#8 0x19#8 0x01#8 0x11#8 m
  | .eor m => aluOpcode 0x49#8 0x45#8 0x55#8 0x4D#8 0x5D#8 0x59#8 0x41#8 0x51#8 m
  | .bit .zp => some 0x24#8
  | .bit .abs => some 0x2C#8
  | .bit .zpX | .bit .zpY | .bit .absX | .bit .absY | .bit .indX | .bit .indY => none
  -- 43_shift_compare_incdec.md
  | .asl m => shiftOpcode 0x0A#8 0x06#8 0x16#8 0x0E#8 0x1E#8 m
  | .lsr m => shiftOpcode 0x4A#8 0x46#8 0x56#8 0x4E#8 0x5E#8 m
  | .rol m => shiftOpcode 0x2A#8 0x26#8 0x36#8 0x2E#8 0x3E#8 m
  | .ror m => shiftOpcode 0x6A#8 0x66#8 0x76#8 0x6E#8 0x7E#8 m
  | .cmp m => aluOpcode 0xC9#8 0xC5#8 0xD5#8 0xCD#8 0xDD#8 0xD9#8 0xC1#8 0xD1#8 m
  | .cpx .imm => some 0xE0#8
  | .cpx (.mem .zp) => some 0xE4#8
  | .cpx (.mem .abs) => some 0xEC#8
  | .cpx (.mem .zpX) | .cpx (.mem .zpY) | .cpx (.mem .absX) | .cpx (.mem .absY) => none
  | .cpx (.mem .indX) | .cpx (.mem .indY) => none
  | .cpy .imm => some 0xC0#8
  | .cpy (.mem .zp) => some 0xC4#8
  | .cpy (.mem .abs) => some 0xCC#8
  | .cpy (.mem .zpX) | .cpy (.mem .zpY) | .cpy (.mem .absX) | .cpy (.mem .absY) => none
  | .cpy (.mem .indX) | .cpy (.mem .indY) => none
  | .inc m => rmwOpcode 0xE6#8 0xF6#8 0xEE#8 0xFE#8 m
  | .dec m => rmwOpcode 0xC6#8 0xD6#8 0xCE#8 0xDE#8 m
  | .inx => some 0xE8#8
  | .dex => some 0xCA#8
  | .iny => some 0xC8#8
  | .dey => some 0x88#8
  -- 44_control_flow.md
  | .bcc => some 0x90#8
  | .bcs => some 0xB0#8
  | .bne => some 0xD0#8
  | .beq => some 0xF0#8
  | .bpl => some 0x10#8
  | .bmi => some 0x30#8
  | .bvc => some 0x50#8
  | .bvs => some 0x70#8
  | .jmp .abs => some 0x4C#8
  | .jmp .ind => some 0x6C#8
  | .jsr => some 0x20#8
  | .rts => some 0x60#8
  | .rti => some 0x40#8
  -- 45_stack_flags_nop.md
  | .pha => some 0x48#8
  | .php => some 0x08#8
  | .pla => some 0x68#8
  | .plp => some 0x28#8
  | .clc => some 0x18#8
  | .sec => some 0x38#8
  | .cli => some 0x58#8
  | .sei => some 0x78#8
  | .clv => some 0xB8#8
  | .cld => some 0xD8#8
  | .sed => some 0xF8#8
  | .nop m op => if op ∈ nopBytes m then some op else none
  -- 46_illegal_composites.md
  | .slo m => sevenOpcode 0x07#8 0x17#8 0x0F#8 0x1F#8 0x1B#8 0x03#8 0x13#8 m
  | .rla m => sevenOpcode 0x27#8 0x37#8 0x2F#8 0x3F#8 0x3B#8 0x23#8 0x33#8 m
  | .sre m => sevenOpcode 0x47#8 0x57#8 0x4F#8 0x5F#8 0x5B#8 0x43#8 0x53#8 m
  | .rra m => sevenOpcode 0x67#8 0x77#8 0x6F#8 0x7F#8 0x7B#8 0x63#8 0x73#8 m
  | .dcp m => sevenOpcode 0xC7#8 0xD7#8 0xCF#8 0xDF#8 0xDB#8 0xC3#8 0xD3#8 m
  | .isc m => sevenOpcode 0xE7#8 0xF7#8 0xEF#8 0xFF#8 0xFB#8 0xE3#8 0xF3#8 m
  | .lax .zp => some 0xA7#8
  | .lax .zpY => some 0xB7#8
  | .lax .abs => some 0xAF#8
  | .lax .absY => some 0xBF#8
  | .lax .indX => some 0xA3#8
  | .lax .indY => some 0xB3#8
  | .lax .zpX | .lax .absX => none
  | .sax .zp => some 0x87#8
  | .sax .zpY => some 0x97#8
  | .sax .abs => some 0x8F#8
  | .sax .indX => some 0x83#8
  | .sax .zpX | .sax .absX | .sax .absY | .sax .indY => none

/-- The words of an instruction: its opcode byte. Operand bytes are no part of an instruction (R113); a program lays
them after the opcode. An instruction that does not exist has none. -/
def encode (i : Instr) : List Byte :=
  (opcode i).toList

/-- The three bytes that a table word of `nbits` bits stands for, in ascending addresses (R110): byte `k` is bits
`8 k + 7` to `8 k`, and the bits from `nbits` up are zero. -/
def tableBytes (nbits w : Nat) : List Byte :=
  let v := w % 2 ^ nbits
  [BitVec.ofNat 8 v, BitVec.ofNat 8 (v / 256), BitVec.ofNat 8 (v / 65536)]

/-- The instruction this decoder reads from a table word. -/
def decodeTableWord (nbits w : Nat) : Option Instr :=
  (decode (tableBytes nbits w)).toOption

end Sys2Proof
end

