-- ==== Sys2Proof/Config.lean ====
section
/-! DEFINITION. What the spec fixes once for the machine (00_scope.md R5). There is no free value in this file: the
spec leaves no result undefined (93_implementation_defined.md Part 1: every behaviour is defined, faults or is
refused), and its one open parameter, the disassembly text `disasm` (R7), is an argument of
`Sys2Proof.Machine.traceLine`. The cartridge (R6) is data the bus record refers to and stands in `State`. -/

namespace Sys2Proof.Config

/-- R5, R36: the RAM is a fixed array of 2048 bytes. -/
abbrev ramSize : Nat := 2048

/-- R5, R96: a PRG bank is a block of 16384 bytes. -/
abbrev prgBankSize : Nat := 16384

/-- R5, R96: a CHR bank is a block of 8192 bytes. -/
abbrev chrBankSize : Nat := 8192

/-- R5, R24: the stack lives at `$0100`–`$01FF`. -/
abbrev stackBase : Word := 0x0100#16

/-- R36, R41: what a byte that nothing has written reads as. For RAM the spec gives it ("initially zero"). For a
bank of the cartridge it is only how a bank is written down: a byte that a bank's list does not name is zero. -/
abbrev blankByte : Byte := 0x00#8

end Sys2Proof.Config
end

