-- ==== Sys2Proof/Machine/State.lean ====
section
/-! DEFINITION. The state of the machine: the three nested records of 10_state.md R20 (CPU, memory bus, cartridge), the
faults of 60_exceptions.md R310, and the state after construction (R41, R340). -/

namespace Sys2Proof.Machine

/-- A memory of bytes written down as the pairs (address, byte) whose byte is not `Config.blankByte`, in rising
order of address. `Memory.wf` says the form holds; an address that is not listed reads as `Config.blankByte`. -/
abbrev Memory := List Host.Cell

/-- The canonical form of a memory of `size` bytes: addresses strictly rising and below `size`, no listed byte
equal to what an unlisted address reads as. -/
abbrev Memory.wf (size : Nat) (m : Memory) : Prop :=
  m.Pairwise (fun c d => c.1 < d.1) ∧ ∀ c ∈ m, c.1 < size ∧ c.2 ≠ Config.blankByte

/-- R96: how the cartridge mirrors picture memory; read by no rule of the core. -/
inductive Mirroring where
  | horizontal | vertical | fourScreen
deriving DecidableEq, Repr

/-- R96, R6: the cartridge, an immutable value. The core reads `prgRomBanks`, and `mapperId` at construction; the other
fields are carried as the spec lists them. -/
structure Cartridge where
  prgRomBanks : List Memory
  chrRomBanks : List Memory
  prgRamBanksCount : Nat
  mapperId : Byte
  mirroringMode : Mirroring
  batteryBackedRam : Bool
  trainerPresent : Bool
deriving DecidableEq, Repr

/-- R38, R80: the mapper handle. NROM is the only mapper this spec defines (R81). -/
inductive Mapper where
  | nrom
deriving DecidableEq, Repr

/-- R20 (2), R36 to R38: the memory bus. `ram` is keyed by the physical index 0 to 2047; the bank indices are integers
that name a bank of the cartridge. -/
structure Bus where
  ram : Memory
  lowerBank : Nat
  upperBank : Nat
  mapper : Mapper
  cart : Cartridge
deriving DecidableEq, Repr

/-- The architectural state (R20): the registers A, X, Y (R21 to R23), SP (R24), P (R26), PC (R25), the cycle counter
CYC (R35) and the bus. There is no other register and no hidden state (R42, R44). -/
structure State where
  a : Byte
  x : Byte
  y : Byte
  sp : Byte
  p : Byte
  pc : Word
  cyc : BitVec 64
  bus : Bus
deriving DecidableEq, Repr

/-- R312: the tag an `UnsupportedRead` fault carries. -/
inductive Region where
  /-- `$2000`–`$3FFF`. -/
  | ppu
  /-- `$4000`–`$4013` and `$4015`. -/
  | apu
  /-- `$4014`. -/
  | ppuDma
  /-- `$4016` and `$4017`. -/
  | controller
  /-- `$4018`–`$5FFF`; tag named by the spec's decision D10. -/
  | io
  /-- `$6000`–`$7FFF` under NROM; decision D7. -/
  | prgRam
  /-- The byte after `$FFFF` in `read_word($FFFF)`; decision D8. -/
  | outOfRange
deriving DecidableEq, Repr

/-- R310: the complete list of run-time faults. A fault is the spec's own outcome of the step, and the state after
it is the state before it (R318): the outcome carries no state. -/
inductive Fault where
  /-- Raised by the meaning of `Instr.unimplemented` (R311), after the opcode fetch and before any other bus access.
  Safe: the spec's machine stops here too. -/
  | unknownOpcode (byte : Byte)
  /-- Raised by `Bus.read` for an address in a stubbed range (R62 to R66, R73, R85). Safe: the spec's machine stops
  here too. -/
  | unsupportedRead (region : Region)
  /-- Raised by `Bus.writeByte` for `$2000`–`$3FFF` and `$4016`–`$7FFF` (R71). Safe: the spec's machine stops here
  too. -/
  | unhandledWrite (addr : Word) (value : Byte)
deriving DecidableEq, Repr

/-- Why a step has no meaning in this model. -/
inductive Refusal where
  /-- An instruction without a meaning; no arm of `exec` answers so. -/
  | notModelled (mnemonic : String)
  /-- Raised by NROM's ROM reads when a bank index names no bank of the cartridge: the spec constructs no such machine
  (R341: the preconditions under which alone a machine exists), and no step leads to one. Safe: no state of the spec's
  machine is shut out. -/
  | noSuchBank (bank : Nat)
deriving DecidableEq, Repr

/-- What an operation of the machine answers: a value, a fault or a refusal. -/
abbrev Result (α : Type) := Host.Outcome α Fault Refusal

/-- The cartridge of `State.reset`: one PRG bank with nothing listed. DESIGN CHOICE (log entry 1): the cartridge
is a parameter of the machine (R6), and the interface has one reset state; `State.construct` makes the machine of any
other cartridge. -/
def blankCartridge : Cartridge where
  prgRomBanks := [[]]
  chrRomBanks := []
  prgRamBanksCount := 1
  mapperId := 0x00#8
  mirroringMode := .horizontal
  batteryBackedRam := false
  trainerPresent := false

/-- R41, R340, R341: the state right after construction, for `blankCartridge` (one PRG bank, so both bank indices are
0, R82). -/
def State.reset : State where
  a := 0x00#8
  x := 0x00#8
  y := 0x00#8
  sp := 0xFD#8
  p := 0x24#8
  pc := 0x0000#16
  cyc := 0#64
  bus :=
    { ram := [], lowerBank := 0, upperBank := 0, mapper := .nrom, cart := blankCartridge }

end Sys2Proof.Machine
end

