-- ==== Sys2Proof/Machine/Ops.lean ====
section
/-! DEFINITION. The named operations over memory, the bus, the registers and the stack: 20_memory.md and
40_execution_and_addressing.md R161 to R164. Raising a fault is `Result.raise` alone: faults are precise and no handler
exists (60_exceptions.md R318, R319), so nothing is saved and nothing is restored. -/

namespace Sys2Proof.Machine

/-! ## Results -/

/-- Run `f` on the value, or stop where the first operation stopped (R144: a fault ends the step before the later
accesses). -/
def Result.bind {α β : Type} (r : Result α) (f : α → Result β) : Result β :=
  match r with
  | .next a => f a
  | .fault e => .fault e
  | .refused e => .refused e

/-- Change the value of a result that has one. -/
def Result.map {α β : Type} (r : Result α) (f : α → β) : Result β :=
  r.bind fun a => .next (f a)

/-- R318: end the step with a fault; no state is changed. -/
def Result.raise {α : Type} (f : Fault) : Result α :=
  .fault f

/-! ## Bytes and words -/

/-- R8: `lo(w) = w[7:0]`. -/
def lo (w : Word) : Byte := w.setWidth 8

/-- R8: `hi(w) = w[15:8]`. -/
def hi (w : Word) : Byte := (w >>> 8).setWidth 8

/-- R8: `h:l` is the 16-bit value `h × 256 + l`. -/
def word (h l : Byte) : Word := h ++ l

/-- R10: byte `b` as a 16-bit value 0 to 255. -/
def zext16 (b : Byte) : Word := b.setWidth 16

/-- R10, R157: `sext_8(b)` as a 16-bit value, `b` if `b < $80`, else `b − 256`. -/
def sext16 (b : Byte) : Word := b.signExtend 16

/-- R8: `page(x) = x & $FF00`. -/
def page (w : Word) : Word := w &&& 0xFF00#16

/-! ## Memory as data -/

/-- The byte at `k`. -/
def Memory.read : Memory → Nat → Byte
  | [], _ => Config.blankByte
  | (j, v) :: rest, k => if j = k then v else Memory.read rest k

/-- Take the byte at `k` off the list, so that it reads as blank. -/
def Memory.erase (m : Memory) (k : Nat) : Memory :=
  m.filter fun c => decide (c.1 ≠ k)

/-- List `(k, v)` before the first entry of a higher address. -/
def Memory.place : Memory → Nat → Byte → Memory
  | [], k, v => [(k, v)]
  | (j, w) :: rest, k, v =>
    if k < j then (k, v) :: (j, w) :: rest else (j, w) :: Memory.place rest k v

/-- Store `v` at `k`, keeping the canonical form. -/
def Memory.write (m : Memory) (k : Nat) (v : Byte) : Memory :=
  if v = Config.blankByte then m.erase k else (m.erase k).place k v

/-! ## The mapper (R80 to R87) -/

/-- R82: `initial_lower_bank(cart)`. -/
def Mapper.initialLowerBank : Mapper → Cartridge → Nat
  | .nrom, _ => 0

/-- R82: `initial_upper_bank(cart) = N − 1`. -/
def Mapper.initialUpperBank : Mapper → Cartridge → Nat
  | .nrom, cart => cart.prgRomBanks.length - 1

/-- R83, R84: the byte at `offset` of PRG bank `bank`. -/
def Cartridge.prgByte (cart : Cartridge) (bank offset : Nat) : Result Byte :=
  match cart.prgRomBanks[bank]? with
  | some m => .next (m.read offset)
  | none => .refused (.noSuchBank bank)

/-- R83 to R85: `mapper.read_byte(bus, addr)` for an address from `$6000` up. -/
def Mapper.read (mapper : Mapper) (b : Bus) (addr : Nat) : Result Byte :=
  match mapper with
  | .nrom =>
    if addr < 0x8000 then .raise (.unsupportedRead .prgRam)
    else if addr < 0xC000 then b.cart.prgByte b.lowerBank (addr - 0x8000)
    else b.cart.prgByte b.upperBank (addr - 0xC000)

/-- R86: `mapper.write_byte(bus, addr, value)`; NROM's writes are no-ops. -/
def Mapper.write (mapper : Mapper) (b : Bus) (_addr : Word) (_value : Byte) : Bus :=
  match mapper with
  | .nrom => b

/-! ## The bus (R60 to R88) -/

/-- R61, R74: the physical index of a RAM address. -/
def ramIndex (addr : Nat) : Nat := addr % Config.ramSize

/-- R88, the read column of the address map, row by row (R61 to R67). `addr` is a plain number, so that the byte after
`$FFFF` that `read_word` may ask for is an address of its own (R73). -/
def Bus.read (b : Bus) (addr : Nat) : Result Byte :=
  if addr < 0x2000 then .next (b.ram.read (ramIndex addr))
  else if addr < 0x4000 then .raise (.unsupportedRead .ppu)
  else if addr < 0x4014 then .raise (.unsupportedRead .apu)
  else if addr = 0x4014 then .raise (.unsupportedRead .ppuDma)
  else if addr = 0x4015 then .raise (.unsupportedRead .apu)
  else if addr < 0x4018 then .raise (.unsupportedRead .controller)
  else if addr < 0x6000 then .raise (.unsupportedRead .io)
  else if addr < 0x10000 then b.mapper.read b addr
  else .raise (.unsupportedRead .outOfRange)

/-- `read_byte(addr)`, `MemRead(addr, 1)`. -/
def Bus.readByte (b : Bus) (addr : Word) : Result Byte :=
  b.read addr.toNat

/-- R72, R73: `read_word(addr)`, low byte first, with no wrap at `$FFFF`. -/
def Bus.readWord (b : Bus) (addr : Word) : Result Word :=
  (b.read addr.toNat).bind fun l =>
  (b.read (addr.toNat + 1)).bind fun h =>
  .next (word h l)

/-- R88, the write column of the address map (R68 to R71). -/
def Bus.writeByte (b : Bus) (addr : Word) (v : Byte) : Result Bus :=
  if addr.toNat < 0x2000 then .next { b with ram := b.ram.write (ramIndex addr.toNat) v }
  else if addr.toNat < 0x4000 then .raise (.unhandledWrite addr v)
  else if addr.toNat < 0x4016 then .next b
  else if addr.toNat < 0x8000 then .raise (.unhandledWrite addr v)
  else .next (b.mapper.write b addr v)

/-! ## Register updates -/

def State.setA (v : Byte) (s : State) : State := { s with a := v }
def State.setX (v : Byte) (s : State) : State := { s with x := v }
def State.setY (v : Byte) (s : State) : State := { s with y := v }
def State.setSp (v : Byte) (s : State) : State := { s with sp := v }
def State.setP (v : Byte) (s : State) : State := { s with p := v }
def State.setPc (v : Word) (s : State) : State := { s with pc := v }
def State.setCyc (v : BitVec 64) (s : State) : State := { s with cyc := v }
def State.setBus (b : Bus) (s : State) : State := { s with bus := b }

/-- R143: add an instruction's cost to CYC, mod 2^64 (R35). -/
def State.charge (cost : Nat) (s : State) : State :=
  s.setCyc (s.cyc + BitVec.ofNat 64 cost)

/-- R142, R143: `pc <- (PC + len) mod 65536` and `CYC <- CYC + cost`. -/
def State.retire (len cost : Nat) (s : State) : State :=
  (s.setPc (s.pc + BitVec.ofNat 16 len)).charge cost

/-! ## The stack (R161 to R164, R169) -/

/-- The address `$0100 + SP`. -/
def stackAddr (sp : Byte) : Word := Config.stackBase + zext16 sp

/-- R161: `push(b)`. -/
def push (v : Byte) (s : State) : Result State :=
  (s.bus.writeByte (stackAddr s.sp) v).bind fun b =>
  .next ((s.setBus b).setSp (s.sp - 1#8))

/-- R162: `pop()`, the popped byte and the state with SP raised. -/
def pop (s : State) : Result (Byte × State) :=
  let s' := s.setSp (s.sp + 1#8)
  (s'.bus.readByte (stackAddr s'.sp)).bind fun v =>
  .next (v, s')

/-- R163: `push_word(w)`, the high byte first. -/
def pushWord (w : Word) (s : State) : Result State :=
  (push (hi w) s).bind fun s' => push (lo w) s'

/-- R164: `pop_word()`, low then high. -/
def popWord (s : State) : Result (Word × State) :=
  (pop s).bind fun (l, s') =>
  (pop s').bind fun (h, s'') =>
  .next (word h l, s'')

/-! ## Laying bytes down from outside -/

/-- Replace one byte of a PRG bank: how a program comes to lie in the cartridge before the machine is constructed.
No instruction does this (R86). -/
def Cartridge.withPrgByte (cart : Cartridge) (bank offset : Nat) (v : Byte) : Cartridge :=
  { cart with
    prgRomBanks := cart.prgRomBanks.modify bank fun m => Memory.write m offset v }

/-- Lay byte `v` where the bus reads `addr`: RAM, or the PRG bank the address selects. Nothing in the stubbed
ranges holds a byte. -/
def Bus.layByte (b : Bus) (addr : Word) (v : Byte) : Bus :=
  if addr.toNat < 0x2000 then { b with ram := b.ram.write (ramIndex addr.toNat) v }
  else if addr.toNat < 0x8000 then b
  else if addr.toNat < 0xC000 then
    { b with cart := b.cart.withPrgByte b.lowerBank (addr.toNat - 0x8000) v }
  else { b with cart := b.cart.withPrgByte b.upperBank (addr.toNat - 0xC000) v }

/-- Lay a list of bytes at ascending addresses. -/
def Bus.layBytes (b : Bus) (addr : Word) : List Byte → Bus
  | [] => b
  | v :: rest => (b.layByte addr v).layBytes (addr + 1#16) rest

/-- Three bytes that start at `addr` can all be laid down and fetched: they lie in RAM or in the ROM windows and do
not run past `$FFFF`. -/
def roomForInstr (addr : Word) : Bool :=
  decide (addr.toNat + 2 < 0x2000 ∨ (0x8000 ≤ addr.toNat ∧ addr.toNat + 2 < 0x10000))

/-- Where code can be laid for the next fetch: at PC, or at `$0000` with PC set there (as a host may set it, R343) when
the three bytes at PC cannot be laid down. -/
def State.layCode (s : State) (code : List Byte) : State :=
  if roomForInstr s.pc then s.setBus (s.bus.layBytes s.pc code)
  else (s.setPc 0x0000#16).setBus (s.bus.layBytes 0x0000#16 code)

end Sys2Proof.Machine
end

