-- ==== Sys2Proof/Machine/Flags.lean ====
section
/-! DEFINITION. The status register's bits (10_state.md R26) and every flag computation: `setZN` (R165), BIT's overflow
(R166), the carries and overflows of ADC and SBC (R200, R201), the shifts (R220 to R223) and the comparisons (R224 to
R226), each as a function of bytes. -/

namespace Sys2Proof.Machine

/-- R26: the eight bits of P, each a storage bit. -/
inductive Flag where
  | c | z | i | d | b | u | v | n
deriving DecidableEq, Repr

/-- R26: the bit of P that holds each flag. -/
def Flag.bit : Flag → Nat
  | .c => 0
  | .z => 1
  | .i => 2
  | .d => 3
  | .b => 4
  | .u => 5
  | .v => 6
  | .n => 7

/-- The flag's value in a status byte. -/
def flag (f : Flag) (p : Byte) : Bool := p.getLsbD f.bit

/-- The byte whose only set bit is the flag's. -/
def Flag.mask (f : Flag) : Byte := 1#8 <<< f.bit

/-- Write one flag of a status byte; the other seven bits stay. -/
def setFlag (f : Flag) (value : Bool) (p : Byte) : Byte :=
  if value then p ||| f.mask else p &&& ~~~f.mask

/-- R165: `P.Z <- (v == 0)`, `P.N <- v[7]`. -/
def setZN (v p : Byte) : Byte :=
  setFlag .n (v.getLsbD 7) (setFlag .z (v == 0#8) p)

/-- The carry as the number 0 or 1. -/
def carry (p : Byte) : Nat := (flag .c p).toNat

/-- R261: the byte PHP pushes, bits 4 and 5 forced to 1. -/
def pushedStatus (p : Byte) : Byte := p ||| 0x30#8

/-- R252, R263: the status PLP and RTI load, bit 4 forced to 0 and bit 5 forced to 1. -/
def pulledStatus (popped : Byte) : Byte := (popped &&& 0xEF#8) ||| 0x20#8

/-! ## Arithmetic -/

/-- R200: ADC's integer sum. -/
def adcSum (a m p : Byte) : Nat := a.toNat + m.toNat + carry p

/-- R200: the result and the new status of ADC. -/
def adc (a m p : Byte) : Byte × Byte :=
  let result := BitVec.ofNat 8 (adcSum a m p)
  let c := decide (adcSum a m p > 0xFF)
  let v := ((a ^^^ m) &&& 0x80#8) == 0#8 && ((a ^^^ result) &&& 0x80#8) != 0#8
  (result, setZN result (setFlag .v v (setFlag .c c p)))

/-- R201: SBC's integer difference. -/
def sbcDiff (a m p : Byte) : Int := (a.toNat : Int) - m.toNat - (1 - carry p)

/-- R201: the result and the new status of SBC. -/
def sbc (a m p : Byte) : Byte × Byte :=
  let result := BitVec.ofInt 8 (sbcDiff a m p)
  let c := decide (sbcDiff a m p ≥ 0)
  let v := ((a ^^^ m) &&& 0x80#8) != 0#8 && ((a ^^^ result) &&& 0x80#8) != 0#8
  (result, setZN result (setFlag .v v (setFlag .c c p)))

/-- R224 to R226: the new status of a comparison of `reg` with `m`. -/
def compareStatus (reg m p : Byte) : Byte :=
  setFlag .n ((reg - m).getLsbD 7)
    (setFlag .z (reg == m) (setFlag .c (decide (reg.toNat ≥ m.toNat)) p))

/-- R205, R166: the new status of BIT. -/
def bitTest (a m p : Byte) : Byte :=
  setFlag .v (m.getLsbD 6) (setFlag .n (m.getLsbD 7) (setFlag .z ((a &&& m) == 0#8) p))

/-! ## Shifts, rotates, increment, decrement: the new byte and the new status -/

/-- R220. -/
def asl (m p : Byte) : Byte × Byte :=
  let v := m <<< 1
  (v, setZN v (setFlag .c (m.getLsbD 7) p))

/-- R221. -/
def lsr (m p : Byte) : Byte × Byte :=
  let v := m >>> 1
  (v, setZN v (setFlag .c (m.getLsbD 0) p))

/-- R222. -/
def rol (m p : Byte) : Byte × Byte :=
  let v := (m <<< 1) ||| BitVec.ofNat 8 (carry p)
  (v, setZN v (setFlag .c (m.getLsbD 7) p))

/-- R223. -/
def ror (m p : Byte) : Byte × Byte :=
  let v := (m >>> 1) ||| BitVec.ofNat 8 (carry p * 0x80)
  (v, setZN v (setFlag .c (m.getLsbD 0) p))

/-- R227. -/
def increment (m p : Byte) : Byte × Byte :=
  let v := m + 1#8
  (v, setZN v p)

/-- R228. -/
def decrement (m p : Byte) : Byte × Byte :=
  let v := m - 1#8
  (v, setZN v p)

end Sys2Proof.Machine
end

