-- ==== Sys2Proof/Machine/Operands.lean ====
section
/-! DEFINITION. Addressing modes (40_execution_and_addressing.md R145 to R157), instruction lengths (R112), cycle costs
(30_encoding.md R120, R159, R160), and the instruction templates of R158, R167, R168, R240 and R290. -/

namespace Sys2Proof.Machine

/-! ## Resolution -/

/-- R40: the transient value an addressing mode yields. -/
structure AddressResolution where
  address : Word
  pageCrossed : Bool
deriving DecidableEq, Repr

/-- R113: the operand byte `d` at `PC + 1`. -/
def operandByte (s : State) : Result Byte := s.bus.readByte (s.pc + 1#16)

/-- R113: the operand word `w = read_word(PC + 1)`. -/
def operandWord (s : State) : Result Word := s.bus.readWord (s.pc + 1#16)

/-- R153, R154: the word at a zero-page pointer, low byte first, its second byte's address wrapping inside the zero
page. -/
def zeroPageWord (b : Bus) (ptr : Byte) : Result Word :=
  (b.readByte (zext16 ptr)).bind fun l =>
  (b.readByte (zext16 (ptr + 1#8))).bind fun h =>
  .next (word h l)

/-- R156: the address of the second pointer byte of `JMP (indirect)`: the same page when the pointer's low byte is
`$FF`. -/
def jmpBugHighAddr (ptr : Word) : Word :=
  if lo ptr = 0xFF#8 then page ptr else ptr + 1#16

/-- R151, R152, R154: an indexed address; the page is crossed when the high byte changes. -/
def indexed (base : Word) (index : Byte) : AddressResolution :=
  let address := base + zext16 index
  ⟨address, decide (page base ≠ page address)⟩

/-- R157: the branch target; the page is compared with that of the address after the branch. -/
def branchTarget (pc : Word) (d : Byte) : AddressResolution :=
  let next := pc + 2#16
  let address := next + sext16 d
  ⟨address, decide (page next ≠ page address)⟩

/-- An address with no page-cross tracking. -/
def plain (address : Word) : AddressResolution := ⟨address, false⟩

/-- R145 to R157: the address of each mode, its operand and pointer bytes read through the bus in the order of
R144. -/
def resolve (m : Mode) (s : State) : Result AddressResolution :=
  match m with
  | .implied | .accumulator => .next (plain 0#16)
  | .immediate => .next (plain (s.pc + 1#16))
  | .zeroPage => (operandByte s).bind fun d => .next (plain (zext16 d))
  | .zeroPageX => (operandByte s).bind fun d => .next (plain (zext16 (d + s.x)))
  | .zeroPageY => (operandByte s).bind fun d => .next (plain (zext16 (d + s.y)))
  | .absolute => (operandWord s).bind fun w => .next (plain w)
  | .absoluteX => (operandWord s).bind fun w => .next (indexed w s.x)
  | .absoluteY => (operandWord s).bind fun w => .next (indexed w s.y)
  | .indexedIndirect =>
    (operandByte s).bind fun d =>
    (zeroPageWord s.bus (d + s.x)).bind fun w => .next (plain w)
  | .indirectIndexed =>
    (operandByte s).bind fun d =>
    (zeroPageWord s.bus d).bind fun w => .next (indexed w s.y)
  | .indirect =>
    (operandWord s).bind fun ptr =>
    (s.bus.readWord ptr).bind fun w => .next (plain w)
  | .indirectWithJmpBug =>
    (operandWord s).bind fun ptr =>
    (s.bus.readByte ptr).bind fun l =>
    (s.bus.readByte (jmpBugHighAddr ptr)).bind fun h => .next (plain (word h l))
  | .relative => (operandByte s).bind fun d => .next (branchTarget s.pc d)

/-! ## Lengths and costs -/

/-- R112: the instruction length of each mode. -/
def modeLength : Mode → Nat
  | .implied | .accumulator => 1
  | .immediate | .zeroPage | .zeroPageX | .zeroPageY => 2
  | .indexedIndirect | .indirectIndexed | .relative => 2
  | .absolute | .absoluteX | .absoluteY | .indirect | .indirectWithJmpBug => 3

/-- R120: the read class row. -/
def readCycles : DataMode → Nat
  | .imm => 2
  | .mem .zp => 3
  | .mem .zpX | .mem .zpY => 4
  | .mem .abs | .mem .absX | .mem .absY => 4
  | .mem .indX => 6
  | .mem .indY => 5

/-- R159: the read-class forms that pay one more cycle when a page is crossed. -/
def readPaysPageCross : DataMode → Bool
  | .mem .absX | .mem .absY | .mem .indY => true
  | .imm | .mem .zp | .mem .zpX | .mem .zpY | .mem .abs | .mem .indX => false

/-- R120, R160: the store class row, the indexed forms unconditional. -/
def storeCycles : MemMode → Nat
  | .zp => 3
  | .zpX | .zpY => 4
  | .abs => 4
  | .absX | .absY => 5
  | .indX | .indY => 6

/-- R120, R290: the read-modify-write row, which the composites extend to three more modes. -/
def rmwCycles : MemMode → Nat
  | .zp => 5
  | .zpX | .zpY => 6
  | .abs => 6
  | .absX | .absY => 7
  | .indX | .indY => 8

/-- R249: the costs of the two JMPs. -/
def jmpCycles : JmpMode → Nat
  | .abs => 3
  | .ind => 5

/-! ## Templates -/

/-- R158: the cost of a read-class instruction whose address resolved to `res`. -/
def readCost (m : DataMode) (res : AddressResolution) : Nat :=
  readCycles m + (if readPaysPageCross m && res.pageCrossed then 1 else 0)

/-- R158: the read template; `effect` is the rule's register and flag updates on the byte read. -/
def readTemplate (m : DataMode) (effect : Byte → State → State) (s : State) : Result State :=
  (resolve m.mode s).bind fun res =>
  (s.bus.readByte res.address).bind fun v =>
  .next ((effect v s).retire (modeLength m.mode) (readCost m res))

/-- R167: the store template. -/
def storeTemplate (m : MemMode) (v : Byte) (s : State) : Result State :=
  (resolve m.mode s).bind fun res =>
  (s.bus.writeByte res.address v).bind fun b =>
  .next ((s.setBus b).retire (modeLength m.mode) (storeCycles m))

/-- R168: the read-modify-write template; `f` gives the new byte and the new status. -/
def rmwTemplate (m : MemMode) (f : Byte → Byte → Byte × Byte) (s : State) : Result State :=
  (resolve m.mode s).bind fun res =>
  (s.bus.readByte res.address).bind fun v =>
  (s.bus.writeByte res.address (f v s.p).1).bind fun b =>
  .next (((s.setBus b).setP (f v s.p).2).retire (modeLength m.mode) (rmwCycles m))

/-- R168, the common operation of 43_shift_compare_incdec.md: the accumulator form touches no memory and costs 2. -/
def shiftTemplate (m : ShiftMode) (f : Byte → Byte → Byte × Byte) (s : State) : Result State :=
  match m with
  | .acc =>
    .next (((s.setA (f s.a s.p).1).setP (f s.a s.p).2).retire (modeLength .accumulator) 2)
  | .mem m => rmwTemplate m f s

/-- R290: a composite runs its first primitive, puts PC and CYC back, runs its second primitive, which resolves and
reads again, and then installs its own PC and CYC. -/
def compositeTemplate (m : MemMode) (f : Byte → Byte → Byte × Byte) (effect : Byte → State → State)
    (s : State) : Result State :=
  (rmwTemplate m f s).bind fun s1 =>
  (readTemplate (.mem m) effect ((s1.setPc s.pc).setCyc s.cyc)).bind fun s2 =>
  .next (((s2.setPc s.pc).setCyc s.cyc).retire (modeLength m.mode) (rmwCycles m))

/-- R240: the offset is read whether or not the branch is taken; taken costs 3, or 4 across a page. -/
def branchTemplate (taken : Bool) (s : State) : Result State :=
  (resolve .relative s).bind fun res =>
  if taken then .next ((s.setPc res.address).charge (2 + 1 + (if res.pageCrossed then 1 else 0)))
  else .next (s.retire 2 2)

/-! ## The effects read-class instructions have on the byte they read -/

def loadA (v : Byte) (s : State) : State := (s.setA v).setP (setZN v s.p)
def loadX (v : Byte) (s : State) : State := (s.setX v).setP (setZN v s.p)
def loadY (v : Byte) (s : State) : State := (s.setY v).setP (setZN v s.p)

/-- R297: the same byte into A and X. -/
def loadAX (v : Byte) (s : State) : State := ((s.setA v).setX v).setP (setZN v s.p)

/-- R200. -/
def addToA (v : Byte) (s : State) : State := (s.setA (adc s.a v s.p).1).setP (adc s.a v s.p).2

/-- R201. -/
def subtractFromA (v : Byte) (s : State) : State :=
  (s.setA (sbc s.a v s.p).1).setP (sbc s.a v s.p).2

/-- R202. -/
def andA (v : Byte) (s : State) : State := loadA (s.a &&& v) s

/-- R203. -/
def orA (v : Byte) (s : State) : State := loadA (s.a ||| v) s

/-- R204. -/
def eorA (v : Byte) (s : State) : State := loadA (s.a ^^^ v) s

/-- R224. -/
def compareA (v : Byte) (s : State) : State := s.setP (compareStatus s.a v s.p)

/-- R225. -/
def compareX (v : Byte) (s : State) : State := s.setP (compareStatus s.x v s.p)

/-- R226. -/
def compareY (v : Byte) (s : State) : State := s.setP (compareStatus s.y v s.p)

/-- R205. -/
def testA (v : Byte) (s : State) : State := s.setP (bitTest s.a v s.p)

/-- R272: the byte read is dropped. -/
def dropByte (_v : Byte) (s : State) : State := s

/-! ## The opcode table's columns (30_encoding.md R111) -/

/-- R114: the mode column; none for a byte without a handler. -/
def instrMode : Instr → Option Mode
  | .unimplemented _ => none
  | .lda m | .ldx m | .ldy m | .adc m | .sbc m _ | .and m | .ora m | .eor m => some m.mode
  | .cmp m | .cpx m | .cpy m => some m.mode
  | .sta m | .stx m | .sty m | .sax m | .bit m | .lax m | .inc m | .dec m => some m.mode
  | .slo m | .sre m | .rla m | .rra m | .dcp m | .isc m => some m.mode
  | .asl m | .lsr m | .rol m | .ror m => some m.mode
  | .nop m _ => some m.mode
  | .jmp m => some m.mode
  | .jsr => some .absolute
  | .bpl | .bmi | .bvc | .bvs | .bcc | .bcs | .bne | .beq => some .relative
  | .php | .plp | .pha | .pla | .rts | .rti => some .implied
  | .clc | .sec | .cli | .sei | .clv | .cld | .sed => some .implied
  | .tax | .tay | .txa | .tya | .tsx | .txs | .inx | .dex | .iny | .dey => some .implied

/-- R111: the column `len`. -/
def instrLength (i : Instr) : Option Nat := (instrMode i).map modeLength

/-- R111, R120: the column `base`. -/
def baseCycles : Instr → Option Nat
  | .unimplemented _ => none
  | .lda m | .ldx m | .ldy m | .adc m | .sbc m _ | .and m | .ora m | .eor m => some (readCycles m)
  | .cmp m | .cpx m | .cpy m => some (readCycles m)
  | .bit m | .lax m => some (readCycles (.mem m))
  | .nop .implied _ => some 2
  | .nop (.operand m) _ => some (readCycles m)
  | .sta m | .stx m | .sty m | .sax m => some (storeCycles m)
  | .inc m | .dec m => some (rmwCycles m)
  | .slo m | .sre m | .rla m | .rra m | .dcp m | .isc m => some (rmwCycles m)
  | .asl .acc | .lsr .acc | .rol .acc | .ror .acc => some 2
  | .asl (.mem m) | .lsr (.mem m) | .rol (.mem m) | .ror (.mem m) => some (rmwCycles m)
  | .jmp m => some (jmpCycles m)
  | .jsr | .rts | .rti => some 6
  | .bpl | .bmi | .bvc | .bvs | .bcc | .bcs | .bne | .beq => some 2
  | .pha | .php => some 3
  | .pla | .plp => some 4
  | .clc | .sec | .cli | .sei | .clv | .cld | .sed => some 2
  | .tax | .tay | .txa | .tya | .tsx | .txs | .inx | .dex | .iny | .dey => some 2

/-- R111, R159: whether the opcode's `penalty_kind` is `page_cross`. -/
def pageCrossPenalty : Instr → Bool
  | .lda m | .ldx m | .ldy m | .adc m | .sbc m _ | .and m | .ora m | .eor m => readPaysPageCross m
  | .cmp m | .cpx m | .cpy m => readPaysPageCross m
  | .bit m | .lax m => readPaysPageCross (.mem m)
  | .nop .implied _ => false
  | .nop (.operand m) _ => readPaysPageCross m
  | .unimplemented _ => false
  | .sta _ | .stx _ | .sty _ | .sax _ | .inc _ | .dec _ => false
  | .slo _ | .sre _ | .rla _ | .rra _ | .dcp _ | .isc _ => false
  | .asl _ | .lsr _ | .rol _ | .ror _ => false
  | .jmp _ | .jsr | .rts | .rti => false
  | .bpl | .bmi | .bvc | .bvs | .bcc | .bcs | .bne | .beq => false
  | .pha | .php | .pla | .plp => false
  | .clc | .sec | .cli | .sei | .clv | .cld | .sed => false
  | .tax | .tay | .txa | .tya | .tsx | .txs | .inx | .dex | .iny | .dey => false

end Sys2Proof.Machine
end

