-- ==== Sys2Proof/Machine/ArithmeticLogical.lean ====
section
/-! DEFINITION. Arithmetic and logical instructions: 42_arithmetic_logical.md R200 to R205, and the second byte of SBC
immediate, R299. -/

namespace Sys2Proof.Machine

/-- R200. -/
def execAdc (m : DataMode) (s : State) : Result State := readTemplate m addToA s

/-- R201; R299 gives the undocumented byte the same operation. -/
def execSbc (m : DataMode) (_undocumented : Bool) (s : State) : Result State :=
  readTemplate m subtractFromA s

/-- R202. -/
def execAnd (m : DataMode) (s : State) : Result State := readTemplate m andA s

/-- R203. -/
def execOra (m : DataMode) (s : State) : Result State := readTemplate m orA s

/-- R204. -/
def execEor (m : DataMode) (s : State) : Result State := readTemplate m eorA s

/-- R205. -/
def execBit (m : MemMode) (s : State) : Result State := readTemplate (.mem m) testA s

end Sys2Proof.Machine
end

