-- ==== Sys2Proof/Machine/ControlFlow.lean ====
section
/-! DEFINITION. Control transfer: 44_control_flow.md R240 to R252. -/

namespace Sys2Proof.Machine

/-- R241. -/
def execBcc (s : State) : Result State := branchTemplate (!flag .c s.p) s

/-- R242. -/
def execBcs (s : State) : Result State := branchTemplate (flag .c s.p) s

/-- R243. -/
def execBne (s : State) : Result State := branchTemplate (!flag .z s.p) s

/-- R244. -/
def execBeq (s : State) : Result State := branchTemplate (flag .z s.p) s

/-- R245. -/
def execBpl (s : State) : Result State := branchTemplate (!flag .n s.p) s

/-- R246. -/
def execBmi (s : State) : Result State := branchTemplate (flag .n s.p) s

/-- R247. -/
def execBvc (s : State) : Result State := branchTemplate (!flag .v s.p) s

/-- R248. -/
def execBvs (s : State) : Result State := branchTemplate (flag .v s.p) s

/-- R249. -/
def execJmp (m : JmpMode) (s : State) : Result State :=
  (resolve m.mode s).bind fun res =>
  .next ((s.setPc res.address).charge (jmpCycles m))

/-- R250: the target is read before the return address is pushed; the pushed word is the address of the last byte of
the instruction. -/
def execJsr (s : State) : Result State :=
  (resolve .absolute s).bind fun res =>
  (pushWord (s.pc + 2#16) s).bind fun s' =>
  .next ((s'.setPc res.address).charge 6)

/-- R251. -/
def execRts (s : State) : Result State :=
  (popWord s).bind fun (w, s') =>
  .next ((s'.setPc (w + 1#16)).charge 6)

/-- R252: the return from interrupt, an ordinary instruction here (R320): status, then the program counter, no `+1`. -/
def execRti (s : State) : Result State :=
  (pop s).bind fun (popped, s') =>
  (popWord (s'.setP (pulledStatus popped))).bind fun (w, s'') =>
  .next ((s''.setPc w).charge 6)

end Sys2Proof.Machine
end

