-- ==== Sys2Proof/Machine/DataMovement.lean ====
section
/-! DEFINITION. Data movement: 41_data_movement.md R180 to R191. -/

namespace Sys2Proof.Machine

/-- R180. -/
def execLda (m : DataMode) (s : State) : Result State := readTemplate m loadA s

/-- R181. -/
def execLdx (m : DataMode) (s : State) : Result State := readTemplate m loadX s

/-- R182. -/
def execLdy (m : DataMode) (s : State) : Result State := readTemplate m loadY s

/-- R183. -/
def execSta (m : MemMode) (s : State) : Result State := storeTemplate m s.a s

/-- R184. -/
def execStx (m : MemMode) (s : State) : Result State := storeTemplate m s.x s

/-- R185. -/
def execSty (m : MemMode) (s : State) : Result State := storeTemplate m s.y s

/-- R186. -/
def execTax (s : State) : Result State := .next ((loadX s.a s).retire 1 2)

/-- R187. -/
def execTay (s : State) : Result State := .next ((loadY s.a s).retire 1 2)

/-- R188. -/
def execTxa (s : State) : Result State := .next ((loadA s.x s).retire 1 2)

/-- R189. -/
def execTya (s : State) : Result State := .next ((loadA s.y s).retire 1 2)

/-- R190. -/
def execTsx (s : State) : Result State := .next ((loadX s.sp s).retire 1 2)

/-- R191: no flag changes. -/
def execTxs (s : State) : Result State := .next ((s.setSp s.x).retire 1 2)

end Sys2Proof.Machine
end

