-- ==== Sys2Proof/Machine/ShiftCompareIncdec.lean ====
section
/-! DEFINITION. Shifts, comparisons, increment and decrement: 43_shift_compare_incdec.md R220 to R232. -/

namespace Sys2Proof.Machine

/-- R220. -/
def execAsl (m : ShiftMode) (s : State) : Result State := shiftTemplate m asl s

/-- R221. -/
def execLsr (m : ShiftMode) (s : State) : Result State := shiftTemplate m lsr s

/-- R222. -/
def execRol (m : ShiftMode) (s : State) : Result State := shiftTemplate m rol s

/-- R223. -/
def execRor (m : ShiftMode) (s : State) : Result State := shiftTemplate m ror s

/-- R224. -/
def execCmp (m : DataMode) (s : State) : Result State := readTemplate m compareA s

/-- R225. -/
def execCpx (m : DataMode) (s : State) : Result State := readTemplate m compareX s

/-- R226. -/
def execCpy (m : DataMode) (s : State) : Result State := readTemplate m compareY s

/-- R227. -/
def execInc (m : MemMode) (s : State) : Result State := rmwTemplate m increment s

/-- R228. -/
def execDec (m : MemMode) (s : State) : Result State := rmwTemplate m decrement s

/-- R229. -/
def execInx (s : State) : Result State := .next ((loadX (s.x + 1#8) s).retire 1 2)

/-- R230. -/
def execDex (s : State) : Result State := .next ((loadX (s.x - 1#8) s).retire 1 2)

/-- R231. -/
def execIny (s : State) : Result State := .next ((loadY (s.y + 1#8) s).retire 1 2)

/-- R232. -/
def execDey (s : State) : Result State := .next ((loadY (s.y - 1#8) s).retire 1 2)

end Sys2Proof.Machine
end

