-- ==== Sys2Proof/Machine/StackFlagsNop.lean ====
section
/-! DEFINITION. Stack, flag and no-operation instructions: 45_stack_flags_nop.md R260 to R273. -/

namespace Sys2Proof.Machine

/-- R260. -/
def execPha (s : State) : Result State :=
  (push s.a s).bind fun s' => .next (s'.retire 1 3)

/-- R261: only the pushed copy has bits 4 and 5 set. -/
def execPhp (s : State) : Result State :=
  (push (pushedStatus s.p) s).bind fun s' => .next (s'.retire 1 3)

/-- R262. -/
def execPla (s : State) : Result State :=
  (pop s).bind fun (v, s') => .next ((loadA v s').retire 1 4)

/-- R263. -/
def execPlp (s : State) : Result State :=
  (pop s).bind fun (v, s') => .next ((s'.setP (pulledStatus v)).retire 1 4)

/-- The flag instructions: write one flag, one byte, two cycles. -/
def flagTemplate (f : Flag) (value : Bool) (s : State) : Result State :=
  .next ((s.setP (setFlag f value s.p)).retire 1 2)

/-- R264. -/
def execClc (s : State) : Result State := flagTemplate .c false s

/-- R265. -/
def execSec (s : State) : Result State := flagTemplate .c true s

/-- R266. -/
def execCli (s : State) : Result State := flagTemplate .i false s

/-- R267. -/
def execSei (s : State) : Result State := flagTemplate .i true s

/-- R268. -/
def execClv (s : State) : Result State := flagTemplate .v false s

/-- R269. -/
def execCld (s : State) : Result State := flagTemplate .d false s

/-- R270. -/
def execSed (s : State) : Result State := flagTemplate .d true s

/-- R271 and R273 (implied), R272 (with an operand, whose byte is read and dropped). -/
def execNop (m : NopMode) (_op : Byte) (s : State) : Result State :=
  match m with
  | .implied => .next (s.retire 1 2)
  | .operand m => readTemplate m dropByte s

end Sys2Proof.Machine
end

