-- ==== Sys2Proof/Machine/Undocumented.lean ====
section
/-! DEFINITION. Undocumented instructions: 46_illegal_composites.md R290 to R298, and the bytes without a handler, R115,
R311. -/

namespace Sys2Proof.Machine

/-- R291: ASL then ORA. -/
def execSlo (m : MemMode) (s : State) : Result State := compositeTemplate m asl orA s

/-- R292: LSR then EOR. -/
def execSre (m : MemMode) (s : State) : Result State := compositeTemplate m lsr eorA s

/-- R293: ROL then AND. -/
def execRla (m : MemMode) (s : State) : Result State := compositeTemplate m rol andA s

/-- R294: ROR then ADC. -/
def execRra (m : MemMode) (s : State) : Result State := compositeTemplate m ror addToA s

/-- R295: DEC then CMP. -/
def execDcp (m : MemMode) (s : State) : Result State := compositeTemplate m decrement compareA s

/-- R296: INC then SBC. -/
def execIsc (m : MemMode) (s : State) : Result State := compositeTemplate m increment subtractFromA s

/-- R297: one resolution, one read, into A and X. -/
def execLax (m : MemMode) (s : State) : Result State := readTemplate (.mem m) loadAX s

/-- R298. -/
def execSax (m : MemMode) (s : State) : Result State := storeTemplate m (s.a &&& s.x) s

/-- R115, R311: the byte has no handler; the step raises `UnknownOpcode(byte)`. -/
def execUnimplemented (op : Byte) (_s : State) : Result State := .raise (.unknownOpcode op)

end Sys2Proof.Machine
end

