-- ==== Sys2Proof/Machine/Dispatch.lean ====
section
/-! DEFINITION. One arm per constructor of `Instr`: each calls its instruction's meaning. -/

namespace Sys2Proof.Machine

def exec (i : Instr) (s : State) : Host.Outcome State Fault Refusal :=
  match i with
  | .unimplemented op => Sys2Proof.Machine.execUnimplemented op s
  | .ora m => Sys2Proof.Machine.execOra m s
  | .slo m => Sys2Proof.Machine.execSlo m s
  | .nop m op => Sys2Proof.Machine.execNop m op s
  | .asl m => Sys2Proof.Machine.execAsl m s
  | .php => Sys2Proof.Machine.execPhp s
  | .bpl => Sys2Proof.Machine.execBpl s
  | .clc => Sys2Proof.Machine.execClc s
  | .jsr => Sys2Proof.Machine.execJsr s
  | .and m => Sys2Proof.Machine.execAnd m s
  | .rla m => Sys2Proof.Machine.execRla m s
  | .bit m => Sys2Proof.Machine.execBit m s
  | .rol m => Sys2Proof.Machine.execRol m s
  | .plp => Sys2Proof.Machine.execPlp s
  | .bmi => Sys2Proof.Machine.execBmi s
  | .sec => Sys2Proof.Machine.execSec s
  | .rti => Sys2Proof.Machine.execRti s
  | .eor m => Sys2Proof.Machine.execEor m s
  | .sre m => Sys2Proof.Machine.execSre m s
  | .lsr m => Sys2Proof.Machine.execLsr m s
  | .pha => Sys2Proof.Machine.execPha s
  | .jmp m => Sys2Proof.Machine.execJmp m s
  | .bvc => Sys2Proof.Machine.execBvc s
  | .cli => Sys2Proof.Machine.execCli s
  | .rts => Sys2Proof.Machine.execRts s
  | .adc m => Sys2Proof.Machine.execAdc m s
  | .rra m => Sys2Proof.Machine.execRra m s
  | .ror m => Sys2Proof.Machine.execRor m s
  | .pla => Sys2Proof.Machine.execPla s
  | .bvs => Sys2Proof.Machine.execBvs s
  | .sei => Sys2Proof.Machine.execSei s
  | .sta m => Sys2Proof.Machine.execSta m s
  | .sax m => Sys2Proof.Machine.execSax m s
  | .sty m => Sys2Proof.Machine.execSty m s
  | .stx m => Sys2Proof.Machine.execStx m s
  | .dey => Sys2Proof.Machine.execDey s
  | .txa => Sys2Proof.Machine.execTxa s
  | .bcc => Sys2Proof.Machine.execBcc s
  | .tya => Sys2Proof.Machine.execTya s
  | .txs => Sys2Proof.Machine.execTxs s
  | .ldy m => Sys2Proof.Machine.execLdy m s
  | .lda m => Sys2Proof.Machine.execLda m s
  | .ldx m => Sys2Proof.Machine.execLdx m s
  | .lax m => Sys2Proof.Machine.execLax m s
  | .tay => Sys2Proof.Machine.execTay s
  | .tax => Sys2Proof.Machine.execTax s
  | .bcs => Sys2Proof.Machine.execBcs s
  | .clv => Sys2Proof.Machine.execClv s
  | .tsx => Sys2Proof.Machine.execTsx s
  | .cpy m => Sys2Proof.Machine.execCpy m s
  | .cmp m => Sys2Proof.Machine.execCmp m s
  | .dcp m => Sys2Proof.Machine.execDcp m s
  | .dec m => Sys2Proof.Machine.execDec m s
  | .iny => Sys2Proof.Machine.execIny s
  | .dex => Sys2Proof.Machine.execDex s
  | .bne => Sys2Proof.Machine.execBne s
  | .cld => Sys2Proof.Machine.execCld s
  | .cpx m => Sys2Proof.Machine.execCpx m s
  | .sbc m undocumented => Sys2Proof.Machine.execSbc m undocumented s
  | .isc m => Sys2Proof.Machine.execIsc m s
  | .inc m => Sys2Proof.Machine.execInc m s
  | .inx => Sys2Proof.Machine.execInx s
  | .beq => Sys2Proof.Machine.execBeq s
  | .sed => Sys2Proof.Machine.execSed s

end Sys2Proof.Machine
end

