-- ==== Sys2Proof/Machine/Step.lean ====
section
/-! DEFINITION. The step (40_execution_and_addressing.md R140): fetch one opcode byte at PC through the bus, decode it,
run the instruction. Three outcomes: the next state, a fault, a refusal. -/

namespace Sys2Proof.Machine

/-- R140: one step. -/
def step (s : State) : Host.Outcome State Fault Refusal :=
  (s.bus.readByte s.pc).bind fun op => exec (decodeByte op) s

/-- `s` with the instruction of a table word laid where `step` fetches its next instruction. -/
def State.withFetchWord (s : State) (nbits w : Nat) : State :=
  s.layCode (tableBytes nbits w)

end Sys2Proof.Machine
end

