-- ==== Sys2Proof/Machine/Construction.lean ====
section
/-! DEFINITION. Construction and the host: 70_reset_and_hazards.md R340, R341, R343; 00_scope.md R6. Construction is the
only initialisation, reads no memory and refuses a cartridge that fails a precondition. -/

namespace Sys2Proof.Machine

/-- The listed bytes of a block whose first byte lies at `k`. -/
def packFrom (k : Nat) : List Byte → Memory
  | [] => []
  | v :: rest => if v = Config.blankByte then packFrom (k + 1) rest else (k, v) :: packFrom (k + 1) rest

/-- R96: a PRG bank from its bytes; a block of another length is no bank. -/
def packPrgBank (bytes : List Byte) : Option Memory :=
  if bytes.length = Config.prgBankSize then some (packFrom 0 bytes) else none

/-- R341, 93_implementation_defined.md U6, U7: why a cartridge is refused. -/
inductive CartridgeProblem where
  | noPrgBank
  | badPrgBank
  | mapperNotSupported (mapperId : Byte)
deriving DecidableEq, Repr

/-- R38, R341: the mapper chosen by `mapper_id`. -/
def mapperOfId (mapperId : Byte) : Option Mapper :=
  if mapperId = 0x00#8 then some .nrom else none

/-- R341: bus construction. -/
def Bus.construct (cart : Cartridge) : Except CartridgeProblem Bus :=
  if cart.prgRomBanks = [] then .error .noPrgBank
  else if ∀ m ∈ cart.prgRomBanks, Memory.wf Config.prgBankSize m then
    match mapperOfId cart.mapperId with
    | none => .error (.mapperNotSupported cart.mapperId)
    | some mapper => .ok
      { ram := [], lowerBank := mapper.initialLowerBank cart, upperBank := mapper.initialUpperBank cart,
        mapper := mapper, cart := cart }
  else .error .badPrgBank

/-- R340: CPU construction on a newly constructed bus. -/
def State.construct (cart : Cartridge) : Except CartridgeProblem State :=
  (Bus.construct cart).map fun b =>
    { a := 0x00#8, x := 0x00#8, y := 0x00#8, sp := 0xFD#8, p := 0x24#8, pc := 0x0000#16, cyc := 0#64, bus := b }

/-- R343: what the host may do to the machine between steps. -/
inductive HostAction where
  | setA (v : Byte)
  | setX (v : Byte)
  | setY (v : Byte)
  | setSp (v : Byte)
  | setP (v : Byte)
  | setPc (v : Word)
  | setCyc (v : BitVec 64)
  | writeByte (addr : Word) (v : Byte)
deriving DecidableEq, Repr

/-- R343: the state after a host action. A bus write may answer a fault value to the host, which is no fault of a
step. -/
def State.hostAct (s : State) : HostAction → Result State
  | .setA v => .next (s.setA v)
  | .setX v => .next (s.setX v)
  | .setY v => .next (s.setY v)
  | .setSp v => .next (s.setSp v)
  | .setP v => .next (s.setP v)
  | .setPc v => .next (s.setPc v)
  | .setCyc v => .next (s.setCyc v)
  | .writeByte addr v => (s.bus.writeByte addr v).bind fun b => .next (s.setBus b)

/-- R343: what the host reads through the bus between steps. -/
def State.hostReadByte (s : State) (addr : Word) : Result Byte := s.bus.readByte addr

/-- R343. -/
def State.hostReadWord (s : State) (addr : Word) : Result Word := s.bus.readWord addr

end Sys2Proof.Machine
end

