-- ==== Sys2Proof/Machine/Trace.lean ====
section
/-! DEFINITION. The trace line: 60_exceptions.md R327, R328. It is an output, a function of the state at the start of a
step; no instruction reads it. Text is a list of characters. `disasm`, the text of the mnemonic column, is the spec's
open parameter (00_scope.md R7) and stands as an argument. -/

namespace Sys2Proof.Machine

/-- The characters of the hexadecimal digits, upper case. -/
def hexDigits : List Char :=
  ['0', '1', '2', '3', '4', '5', '6', '7', '8', '9', 'A', 'B', 'C', 'D', 'E', 'F']

/-- One hexadecimal digit. -/
def hexDigit (n : Nat) : Char := hexDigits.getD n '0'

/-- A byte as two hexadecimal digits. -/
def hex2 (b : Byte) : List Char := [hexDigit (b.toNat / 16), hexDigit (b.toNat % 16)]

/-- A word as four hexadecimal digits. -/
def hex4 (w : Word) : List Char := hex2 (hi w) ++ hex2 (lo w)

/-- Pad with spaces on the right. -/
def padRight (width : Nat) (text : List Char) : List Char :=
  text ++ List.replicate (width - text.length) ' '

/-- Pad with spaces on the left. -/
def padLeft (width : Nat) (text : List Char) : List Char :=
  List.replicate (width - text.length) ' ' ++ text

/-- A number below 1000 in decimal, without leading zeros. -/
def decimal (n : Nat) : List Char :=
  if n < 10 then [hexDigit n]
  else if n < 100 then [hexDigit (n / 10), hexDigit (n % 10)]
  else [hexDigit (n / 100), hexDigit (n / 10 % 10), hexDigit (n % 10)]

/-- R327: `(cycle_count × 3) mod 341`. -/
def traceCycles (s : State) : Nat := s.cyc.toNat * 3 % 341

/-- R327: the registers field. -/
def registersField (s : State) : List Char :=
  ['A', ':'] ++ hex2 s.a ++ [' ', 'X', ':'] ++ hex2 s.x ++ [' ', 'Y', ':'] ++ hex2 s.y ++
  [' ', 'P', ':'] ++ hex2 s.p ++ [' ', 'S', 'P', ':'] ++ hex2 s.sp ++
  [' ', 'C', 'Y', 'C', ':'] ++ padLeft 3 (decimal (traceCycles s))

/-- The operand bytes of an instruction of this length, read as its addressing mode reads them. -/
def operandBytes (length : Nat) (s : State) : Result (List Byte) :=
  if length ≤ 1 then .next []
  else if length = 2 then (operandByte s).map fun d => [d]
  else (operandWord s).map fun w => [lo w, hi w]

/-- The bytes of the instruction at PC. A byte without a handler has no operand bytes (log entry 7). -/
def instrBytes (s : State) : Result (List Byte) :=
  (s.bus.readByte s.pc).bind fun op =>
  (operandBytes ((instrLength (decodeByte op)).getD 1) s).map fun ds => op :: ds

/-- The operand bytes as hexadecimal pairs separated by one space. -/
def spaced : List Byte → List Char
  | [] => []
  | [b] => hex2 b
  | b :: rest => hex2 b ++ ' ' :: spaced rest

/-- R327: the line of a step whose instruction bytes are `bytes`. -/
def traceText (disasm : State → List Byte → List Char) (s : State) (bytes : List Byte) : List Char :=
  (hex4 s.pc ++ [' ', ' '] ++ spaced (bytes.take 1) ++ [' '] ++ padRight 6 (spaced (bytes.drop 1)) ++ [' '] ++
    padRight 31 (disasm s bytes) ++ [' '] ++ registersField s).map Char.toUpper

/-- R327: the line is produced before execution and only when the opcode and operand fetches succeed (decision
D19). -/
def traceLine (disasm : State → List Byte → List Char) (s : State) : Result (List Char) :=
  (instrBytes s).map (traceText disasm s)

/-- R328: columns 0 to 19 of a line, which are compared with a reference trace: the fields before the mnemonic field
and its first four characters. -/
def comparedPrefix (line : List Char) : List Char := line.take 20

/-- R328: the registers field, the other part that is compared. -/
def comparedSuffix (line : List Char) : List Char := line.drop (line.length - 33)

end Sys2Proof.Machine
end

