-- ==== Sys2Proof/Machine/Run.lean ====
section
/-! DEFINITION. Runs: 70_reset_and_hazards.md R345. A run is at most `n` steps from a state and stops at the first fault;
its result is the state after the last completed step, which at a fault is the state before the faulting step
(60_exceptions.md R318). The trace of a run is one line per step (60_exceptions.md R327). -/

namespace Sys2Proof.Machine

/-- R345: how a run ended: the host stopped it, a step faulted, or a step had no meaning. -/
inductive RunStop where
  | host
  | fault (f : Fault)
  | refused (r : Refusal)
deriving DecidableEq, Repr

/-- R345: `run(s, n)`. -/
def State.run : Nat → State → State × RunStop
  | 0, s => (s, .host)
  | n + 1, s =>
    match step s with
    | .next t => State.run n t
    | .fault f => (s, .fault f)
    | .refused r => (s, .refused r)

/-- R327, R141: the lines of a run, each made from the state before its step; a step whose bytes cannot be fetched gives
no line. -/
def State.runTrace (disasm : State → List Byte → List Char) : Nat → State → List (List Char)
  | 0, _ => []
  | n + 1, s =>
    match traceLine disasm s, step s with
    | .next line, .next t => line :: State.runTrace disasm n t
    | .next line, _ => [line]
    | _, _ => []

end Sys2Proof.Machine
end

