-- ==== Sys2Proof/Safety.lean ====
section
/-! DEFINITION. The words claims use: which addresses answer a read or take a write, what a well-formed state is, and what a
safe run is (60_exceptions.md R310, R319; 70_reset_and_hazards.md R345). -/

namespace Sys2Proof.Machine

/-- R88, R89: the addresses whose read answers a byte: RAM and its mirrors, and the two ROM windows. -/
abbrev readable (addr : Word) : Prop := addr.toNat < 0x2000 ∨ 0x8000 ≤ addr.toNat

/-- R68: the addresses whose write changes RAM. -/
abbrev inRam (addr : Word) : Prop := addr.toNat < 0x2000

/-- R69, R70, R86: the addresses whose write is accepted and changes nothing. -/
abbrev dropped (addr : Word) : Prop :=
  (0x4000 ≤ addr.toNat ∧ addr.toNat < 0x4016) ∨ 0x8000 ≤ addr.toNat

/-- R74: two addresses that are the same byte of RAM. -/
abbrev sameRamByte (a b : Word) : Prop := inRam a ∧ inRam b ∧ ramIndex a.toNat = ramIndex b.toNat

/-- R341: the cartridge meets the preconditions under which alone a machine exists. -/
def Cartridge.valid (cart : Cartridge) : Prop :=
  cart.prgRomBanks ≠ [] ∧ (∀ m ∈ cart.prgRomBanks, Memory.wf Config.prgBankSize m) ∧
    cart.mapperId = 0x00#8

/-- What holds of every bus the spec constructs and of every bus a step leads to: RAM in canonical form, a valid
cartridge, and the bank indices the mapper set at construction (R37, R82). -/
structure Bus.Inv (b : Bus) : Prop where
  ram : Memory.wf Config.ramSize b.ram
  cart : b.cart.valid
  mapper : mapperOfId b.cart.mapperId = some b.mapper
  lower : b.lowerBank = b.mapper.initialLowerBank b.cart
  upper : b.upperBank = b.mapper.initialUpperBank b.cart

/-- The invariant of the machine. -/
def State.Inv (s : State) : Prop := s.bus.Inv

/-- R31, R32: the status bits 4 and 5 as construction, PLP and RTI leave them. -/
def statusSettled (p : Byte) : Prop := flag .b p = false ∧ flag .u p = true

/-- A step that completes. -/
def SafeStep (s : State) : Prop := ∃ t, step s = .next t

/-- R345: a run of `n` steps in which no step faults. -/
def SafeRun (n : Nat) (s : State) : Prop := ∃ t, Sys2Proof.core.run n s = .next t

/-! ## Words for what an instruction changes -/

/-- R165: the zero and negative flags are those of the byte `v`. -/
def zeroNegativeOf (v q : Byte) : Prop :=
  flag .z q = decide (v = 0x00#8) ∧ flag .n q = decide (0x80 ≤ v.toNat)

/-- Every flag but those listed is in `q` what it is in `p`. -/
def flagsKept (written : List Flag) (p q : Byte) : Prop := ∀ f, f ∉ written → flag f q = flag f p

/-- R224 to R226: `q` is the status `p` after the register value `reg` was compared with `v`. -/
def comparedFlags (reg v p q : Byte) : Prop :=
  flag .c q = decide (reg.toNat ≥ v.toNat) ∧ flag .z q = decide (reg = v) ∧
    flag .n q = decide (128 ≤ (reg.toNat + 256 - v.toNat) % 256) ∧ flagsKept [.c, .z, .n] p q

/-- `b'` is the bus `b` after the byte `v` was stored at `addr`: every RAM mirror of the byte reads as `v`, every
other address reads as before, and an address outside RAM changes nothing (R68 to R71, R74). -/
def stored (b b' : Bus) (addr : Word) (v : Byte) : Prop :=
  (∀ a, sameRamByte addr a → b'.readByte a = .next v) ∧
  (∀ a, ¬ sameRamByte addr a → b'.readByte a = b.readByte a) ∧
  b'.cart = b.cart ∧ b'.mapper = b.mapper ∧ b'.lowerBank = b.lowerBank ∧ b'.upperBank = b.upperBank

/-- PC and CYC after an instruction that is no control transfer, from the opcode table's columns (R111, R142, R143):
`len`, `base`, and one more cycle for a `page_cross` opcode when the page was crossed. -/
def completed (i : Instr) (crossed : Bool) (s : State) : State :=
  { s with
    pc := s.pc + BitVec.ofNat 16 ((instrLength i).getD 0)
    cyc := s.cyc + BitVec.ofNat 64
      ((baseCycles i).getD 0 + if pageCrossPenalty i && crossed then 1 else 0) }

/-- R111: the opcode table's columns `len`, `base` and whether `penalty_kind` is `page_cross`. -/
def hasColumns (i : Instr) (len base : Nat) (plus : Bool) : Prop :=
  instrLength i = some len ∧ baseCycles i = some base ∧ pageCrossPenalty i = plus

/-! ## The access classes of R120 -/

/-- The read class in a memory mode; `op` is a NOP's byte. -/
def readForms (m : MemMode) (op : Byte) : List Instr :=
  [.lda (.mem m), .ldx (.mem m), .ldy (.mem m), .adc (.mem m), .sbc (.mem m) false, .and (.mem m), .ora (.mem m),
    .eor (.mem m), .cmp (.mem m), .cpx (.mem m), .cpy (.mem m), .bit m, .lax m, .nop (.operand (.mem m)) op]

/-- The read class in the immediate mode, the second byte of SBC included. -/
def immediateForms (op : Byte) : List Instr :=
  [.lda .imm, .ldx .imm, .ldy .imm, .adc .imm, .sbc .imm false, .sbc .imm true, .and .imm, .ora .imm, .eor .imm,
    .cmp .imm, .cpx .imm, .cpy .imm, .nop (.operand .imm) op]

/-- The store class. -/
def storeForms (m : MemMode) : List Instr := [.sta m, .stx m, .sty m, .sax m]

/-- The read-modify-write class, the composites included. -/
def rmwForms (m : MemMode) : List Instr :=
  [.asl (.mem m), .lsr (.mem m), .rol (.mem m), .ror (.mem m), .inc m, .dec m,
    .slo m, .sre m, .rla m, .rra m, .dcp m, .isc m]

/-- The implied instructions that touch no memory and the accumulator forms; `op` is a NOP's byte. -/
def registerForms (op : Byte) : List Instr :=
  [.asl .acc, .lsr .acc, .rol .acc, .ror .acc, .tax, .tay, .txa, .tya, .tsx, .txs, .inx, .dex, .iny, .dey,
    .clc, .sec, .cli, .sei, .clv, .cld, .sed, .nop .implied op]

/-- R20, R21: the instructions that write A. -/
def writesA : Instr → Bool
  | .lda _ | .adc _ | .sbc _ _ | .and _ | .ora _ | .eor _ | .txa | .tya | .pla | .lax _ => true
  | .asl .acc | .lsr .acc | .rol .acc | .ror .acc => true
  | .slo _ | .sre _ | .rla _ | .rra _ | .isc _ => true
  | _ => false

/-- R20, R22: the instructions that write X. -/
def writesX : Instr → Bool
  | .ldx _ | .tax | .tsx | .inx | .dex | .lax _ => true
  | _ => false

/-- R20, R23: the instructions that write Y. -/
def writesY : Instr → Bool
  | .ldy _ | .tay | .iny | .dey => true
  | _ => false

/-- R20, R24: the instructions that write SP. -/
def writesSp : Instr → Bool
  | .pha | .php | .pla | .plp | .jsr | .rts | .rti | .txs => true
  | _ => false

/-- R76, R167, R168, R290, R163: the instructions that write a byte through the bus. -/
def storesMemory : Instr → Bool
  | .sta _ | .stx _ | .sty _ | .sax _ | .inc _ | .dec _ => true
  | .asl (.mem _) | .lsr (.mem _) | .rol (.mem _) | .ror (.mem _) => true
  | .slo _ | .sre _ | .rla _ | .rra _ | .dcp _ | .isc _ => true
  | .pha | .php | .jsr => true
  | _ => false

/-- R45: which instruction writes which flag. -/
def flagsWritten : Instr → List Flag
  | .lda _ | .ldx _ | .ldy _ | .lax _ | .tax | .tay | .txa | .tya | .tsx | .pla => [.n, .z]
  | .inc _ | .dec _ | .inx | .dex | .iny | .dey | .and _ | .ora _ | .eor _ => [.n, .z]
  | .adc _ | .sbc _ _ | .rra _ | .isc _ => [.n, .v, .z, .c]
  | .asl _ | .rol _ | .ror _ | .lsr _ | .slo _ | .rla _ | .sre _ => [.n, .z, .c]
  | .cmp _ | .cpx _ | .cpy _ | .dcp _ => [.n, .z, .c]
  | .bit _ => [.n, .v, .z]
  | .clc | .sec => [.c]
  | .cli | .sei => [.i]
  | .cld | .sed => [.d]
  | .clv => [.v]
  | .plp | .rti => [.n, .v, .u, .b, .d, .i, .z, .c]
  | _ => []

/-- The instructions that assign PC a target (R142). -/
def transfersControl : Instr → Bool
  | .bcc | .bcs | .bne | .beq | .bpl | .bmi | .bvc | .bvs => true
  | .jmp _ | .jsr | .rts | .rti => true
  | _ => false

/-- The eight conditional branches (R240). -/
def isBranch : Instr → Bool
  | .bcc | .bcs | .bne | .beq | .bpl | .bmi | .bvc | .bvs => true
  | _ => false

end Sys2Proof.Machine
end

