-- ==== Sys2Proof/Certificates/Slice0/Obligations.lean ====
section
/-! DEFINITION. The statements for the provers: what the numbered rules of the spec say the instructions and the machine do.
Premises of an instruction's statement are about the state alone: its address resolves and its operand is readable.
What each mode resolves to, and when, is stated by the addressing-mode statements. -/

open Sys2Proof Sys2Proof.Machine

/-! ## Encoding -/

/-- 30_encoding.md R111, R117, R121: decoding the words of a well-formed instruction gives it back, whatever operand
bytes follow. -/
def Obligations.DecodeOfEncodeIsTheInstruction : Prop :=
  ∀ (i : Instr) (operands : List Byte), i.wf = true → decode (encode i ++ operands) = .ok i

/-- 30_encoding.md R111, R114, R121: every byte is the opcode of exactly one well-formed instruction; two
well-formed instructions with the same words are the same. -/
def Obligations.EveryByteIsOneInstruction : Prop :=
  (∀ op : Byte, (decodeByte op).wf = true ∧ encode (decodeByte op) = [op]) ∧
  (∀ i : Instr, i.wf = true → ∃ op, decodeByte op = i) ∧
  (∀ i j : Instr, i.wf = true → j.wf = true → encode i = encode j → i = j)

/-- Words written out from the Encoding tables of files 41 to 46 (R180, R183, R201, R220, R249, R290, R297, R299, R272,
R115). -/
def Obligations.KnownWordsDecode : Prop :=
  decode [0xA9#8, 0x80#8] = .ok (.lda .imm) ∧ decode [0x9D#8, 0x00#8, 0x02#8] = .ok (.sta .absX) ∧
  decode [0xF1#8, 0x10#8] = .ok (.sbc (.mem .indY) false) ∧ decode [0x0A#8] = .ok (.asl .acc) ∧
  decode [0x6C#8, 0xFF#8, 0x02#8] = .ok (.jmp .ind) ∧ decode [0x7B#8, 0x00#8, 0x03#8] = .ok (.rra .absY) ∧
  decode [0xB7#8, 0xF0#8] = .ok (.lax .zpY) ∧ decode [0xEB#8, 0x40#8] = .ok (.sbc .imm true) ∧
  decode [0x1C#8, 0xFF#8, 0x02#8] = .ok (.nop (.operand (.mem .absX)) 0x1C#8) ∧
  decode [0x02#8] = .ok (.unimplemented 0x02#8)

/-! ## The step -/

/-- 40_execution_and_addressing.md R140: a step fetches one byte at PC and runs the instruction it decodes to, adding
nothing of its own; a fetch that faults is the step's fault. -/
def Obligations.StepRunsTheDecodedInstruction : Prop :=
  (∀ (s : State) (op : Byte) (rest : List Byte) (i : Instr),
    s.bus.readByte s.pc = .next op → decode (op :: rest) = .ok i → step s = exec i s) ∧
  (∀ (s : State) (f : Fault), s.bus.readByte s.pc = .fault f → step s = .fault f)

/-- 60_exceptions.md R311, 30_encoding.md R115: each of the 26 bytes without a handler stops the step with
`UnknownOpcode` of that byte, whatever follows it in memory, and no other byte does. Which bytes these are is the
spec's decisions D4 and D6. -/
def Obligations.UnimplementedByteRaisesUnknownOpcode : Prop :=
  unimplementedBytes =
    [0x00#8, 0x02#8, 0x12#8, 0x22#8, 0x32#8, 0x42#8, 0x52#8, 0x62#8, 0x72#8, 0x92#8, 0xB2#8, 0xD2#8, 0xF2#8, 0x0B#8,
      0x2B#8, 0x4B#8, 0x6B#8, 0x8B#8, 0xAB#8, 0xCB#8, 0x93#8, 0x9F#8, 0x9C#8, 0x9E#8, 0x9B#8, 0xBB#8] ∧
  (∀ (s : State) (op : Byte), op ∈ unimplementedBytes → s.bus.readByte s.pc = .next op →
    step s = .fault (.unknownOpcode op)) ∧
  (∀ (s : State) (op : Byte), exec (.unimplemented op) s = .fault (.unknownOpcode op)) ∧
  (∀ (s : State) (op : Byte), step s = .fault (.unknownOpcode op) →
    s.bus.readByte s.pc = .next op ∧ op ∈ unimplementedBytes)

/-- 60_exceptions.md R310: from a machine the spec constructs, a step completes or raises one of the three faults; it is
never refused. -/
def Obligations.StepIsNeverRefused : Prop :=
  ∀ (s : State), s.Inv → (∃ t, step s = .next t) ∨ ∃ f, step s = .fault f

/-- Every step keeps the invariant of the machine: RAM in canonical form, a valid cartridge, the bank indices of
construction (10_state.md R37, R38, R39; the canonical form is the model's own, log entry 2). -/
def Obligations.StepKeepsMachineInvariant : Prop :=
  ∀ (s t : State), s.Inv → step s = .next t → t.Inv

/-- 10_state.md R41, 70_reset_and_hazards.md R340: the values after construction, and that the invariant holds there.
CYC = 0 is the spec's decision D1; the one blank bank is this model's choice (log entry 1). -/
def Obligations.ResetStateIsAsConstructed : Prop :=
  State.reset.Inv ∧ statusSettled State.reset.p ∧
  State.construct blankCartridge = .ok State.reset ∧
  State.reset.pc.toNat = 0 ∧ State.reset.sp.toNat = 0xFD ∧ State.reset.p.toNat = 0x24 ∧
  State.reset.a.toNat = 0 ∧ State.reset.x.toNat = 0 ∧ State.reset.y.toNat = 0 ∧ State.reset.cyc.toNat = 0 ∧
  (∀ k, State.reset.bus.ram.read k = 0x00#8)

/-- 70_reset_and_hazards.md R341, 20_memory.md R82: construction succeeds exactly for a cartridge with a PRG bank, every
bank of 16384 bytes and `mapper_id = 0` (the spec's decisions D16, D21), and gives the reset registers (CYC by D1), zero RAM,
`lower_bank = 0`, `upper_bank = N − 1` and the invariant; with any other `mapper_id` it is refused. A bank is written as a
memory in canonical form: exactly the blocks of 16384 bytes have one, which reads as the block (log entry 2). -/
def Obligations.ConstructionMakesTheMachineOfItsCartridge : Prop :=
  (∀ cart : Cartridge,
    (cart.prgRomBanks ≠ [] ∧ (∀ m ∈ cart.prgRomBanks, Memory.wf 16384 m) ∧ cart.mapperId = 0x00#8) ↔
      ∃ s, State.construct cart = .ok s) ∧
  (∀ cart : Cartridge, cart.mapperId ≠ 0x00#8 → (∃ e, State.construct cart = .error e) ∧
    (cart.prgRomBanks ≠ [] → (∀ m ∈ cart.prgRomBanks, Memory.wf 16384 m) →
      State.construct cart = .error (.mapperNotSupported cart.mapperId))) ∧
  (∀ (cart : Cartridge) (s : State), State.construct cart = .ok s →
    s.Inv ∧ s.bus.cart = cart ∧ s.bus.lowerBank = 0 ∧ s.bus.upperBank + 1 = cart.prgRomBanks.length ∧
    (∀ k, s.bus.ram.read k = 0x00#8) ∧ { s with bus := State.reset.bus } = State.reset) ∧
  ∀ bytes : List Byte,
    (bytes.length ≠ 16384 → packPrgBank bytes = none) ∧
    (bytes.length = 16384 → ∃ m, packPrgBank bytes = some m ∧ Memory.wf 16384 m ∧
      ∀ k < 16384, bytes[k]? = some (m.read k))

/-- 10_state.md R31, R32: no step sets P bit 4 and no step clears P bit 5. -/
def Obligations.StepKeepsStatusBitsFourAndFive : Prop :=
  ∀ (s t : State), step s = .next t →
    (flag .b s.p = false → flag .b t.p = false) ∧ (flag .u s.p = true → flag .u t.p = true)

/-- 10_state.md R37, R38, R39, 20_memory.md R86, R90: no step changes the cartridge, a bank index or the mapper, so every
address outside RAM reads after a step as it read before. -/
def Obligations.NoStepChangesTheCartridge : Prop :=
  ∀ (s t : State), step s = .next t →
    t.bus.cart = s.bus.cart ∧ t.bus.mapper = s.bus.mapper ∧ t.bus.lowerBank = s.bus.lowerBank ∧
    t.bus.upperBank = s.bus.upperBank ∧
    ∀ a : Word, 0x2000 ≤ a.toNat → t.bus.readByte a = s.bus.readByte a

/-- 60_exceptions.md R313: only STA, STX, STY and SAX raise `UnhandledWrite`, for an address in `$2000`–`$3FFF` or
`$4016`–`$7FFF`, with the byte that was to be written. -/
def Obligations.OnlyStoresRaiseUnhandledWrite : Prop :=
  ∀ (s : State) (addr : Word) (v : Byte), step s = .fault (.unhandledWrite addr v) →
    ((0x2000 ≤ addr.toNat ∧ addr.toNat < 0x4000) ∨ (0x4016 ≤ addr.toNat ∧ addr.toNat < 0x8000)) ∧
    ∃ op m, s.bus.readByte s.pc = .next op ∧
      ((decodeByte op = .sta m ∧ v = s.a) ∨ (decodeByte op = .stx m ∧ v = s.x) ∨
       (decodeByte op = .sty m ∧ v = s.y) ∨ (decodeByte op = .sax m ∧ v = s.a &&& s.x))

/-- 40_execution_and_addressing.md R143, R159, R160; 70_reset_and_hazards.md R348: every completed step adds between 2 and
8 cycles: its base cost, one more only for a `page_cross` opcode, one or two more only for a branch. 30_encoding.md R112,
R120: the columns `len`, `base` and `page_cross` of every form, by access class and mode. -/
def Obligations.EveryStepCostsTwoToEightCycles : Prop :=
  (∀ op : Byte,
    (∀ (m : MemMode) (len read store rmw : Nat) (plus : Bool),
      (m, len, read, plus, store, rmw) ∈
        [(MemMode.zp, 2, 3, false, 3, 5), (.zpX, 2, 4, false, 4, 6), (.zpY, 2, 4, false, 4, 6), (.abs, 3, 4, false, 4, 6),
          (.absX, 3, 4, true, 5, 7), (.absY, 3, 4, true, 5, 7), (.indX, 2, 6, false, 6, 8), (.indY, 2, 5, true, 6, 8)] →
      (∀ i ∈ readForms m op, hasColumns i len read plus) ∧ (∀ i ∈ storeForms m, hasColumns i len store false) ∧
      (∀ i ∈ rmwForms m, hasColumns i len rmw false)) ∧
    (∀ i ∈ immediateForms op, hasColumns i 2 2 false) ∧ (∀ i ∈ registerForms op, hasColumns i 1 2 false) ∧
    (∀ i ∈ [Instr.pha, .php], hasColumns i 1 3 false) ∧ (∀ i ∈ [Instr.pla, .plp], hasColumns i 1 4 false) ∧
    (∀ i ∈ [Instr.rts, .rti], hasColumns i 1 6 false) ∧ hasColumns .jsr 3 6 false ∧
    hasColumns (.jmp .abs) 3 3 false ∧ hasColumns (.jmp .ind) 3 5 false ∧
    (∀ i ∈ [Instr.bcc, .bcs, .bne, .beq, .bpl, .bmi, .bvc, .bvs], hasColumns i 2 2 false) ∧
    instrLength (.unimplemented op) = none ∧ baseCycles (.unimplemented op) = none) ∧
  ∀ (s t : State), step s = .next t →
    ∃ op base cost, s.bus.readByte s.pc = .next op ∧ baseCycles (decodeByte op) = some base ∧
      t.cyc = s.cyc + BitVec.ofNat 64 cost ∧ 2 ≤ cost ∧ cost ≤ 8 ∧
      (cost = base ∨ (cost = base + 1 ∧ (pageCrossPenalty (decodeByte op) = true ∨ isBranch (decodeByte op) = true)) ∨
        (cost = base + 2 ∧ isBranch (decodeByte op) = true))

/-- 40_execution_and_addressing.md R142: every instruction but the control transfers advances PC by its length, modulo
65536 (the wrap is the spec's decision D3). 30_encoding.md R112: the length is 1, 2 or 3 by the mode. -/
def Obligations.PcAdvancesByTheLength : Prop :=
  (∀ (i : Instr) (s t : State), transfersControl i = false → exec i s = .next t →
    ∃ len, instrLength i = some len ∧ t.pc.toNat = (s.pc.toNat + len) % 65536) ∧
  ∀ (s t : State) (op : Byte),
    (∀ i ∈ registerForms op ++ [.pha, .php, .pla, .plp], exec i s = .next t → t.pc = s.pc + 1#16) ∧
    (∀ i ∈ immediateForms op, exec i s = .next t → t.pc = s.pc + 2#16) ∧
    (∀ m ∈ [MemMode.zp, .zpX, .zpY, .indX, .indY], ∀ i ∈ readForms m op ++ storeForms m ++ rmwForms m,
      exec i s = .next t → t.pc = s.pc + 2#16) ∧
    (∀ m ∈ [MemMode.abs, .absX, .absY], ∀ i ∈ readForms m op ++ storeForms m ++ rmwForms m,
      exec i s = .next t → t.pc = s.pc + 3#16)

/-- 70_reset_and_hazards.md R349 (derived there): nothing depends on CYC. Starting a step with `k` more cycles changes
nothing but that it ends with `k` more. -/
def Obligations.NothingDependsOnCycleCount : Prop :=
  ∀ (s : State) (k : BitVec 64),
    step (s.setCyc (s.cyc + k)) = Result.map (step s) fun t => t.setCyc (t.cyc + k)

/-- 60_exceptions.md R316, 10_state.md R29 to R32: I, D and the bits 4 and 5 have no effect on execution. With the flag
written to any value beforehand, every instruction but PHP (which shows it), PLP and RTI (which replace it) and the
instructions that write it behaves as without, the flag apart. -/
def Obligations.StorageFlagsHaveNoEffect : Prop :=
  ∀ (f : Flag) (i : Instr) (s : State) (value : Bool), f ∈ [Flag.i, .d, .b, .u] → f ∉ flagsWritten i → i ≠ .php →
    exec i (s.setP (setFlag f value s.p)) =
      Result.map (exec i s) fun t => t.setP (setFlag f value t.p)

/-- 10_state.md R20 to R24 (the column "written by"): which instructions write A, X, Y and SP; every other instruction
leaves them. -/
def Obligations.RegistersChangeOnlyByTheirWriters : Prop :=
  ∀ (i : Instr) (s t : State), exec i s = .next t →
    (writesA i = false → t.a = s.a) ∧ (writesX i = false → t.x = s.x) ∧
    (writesY i = false → t.y = s.y) ∧ (writesSp i = false → t.sp = s.sp)

/-- 10_state.md R45: an instruction changes no flag but those of its row. -/
def Obligations.FlagsChangeOnlyByTheirWriters : Prop :=
  ∀ (i : Instr) (s t : State), exec i s = .next t → flagsKept (flagsWritten i) s.p t.p

/-- 20_memory.md R76, R90 (4): an instruction that stores nothing leaves every byte of memory. -/
def Obligations.MemoryChangesOnlyByStores : Prop :=
  ∀ (i : Instr) (s t : State), storesMemory i = false → exec i s = .next t →
    ∀ a : Word, t.bus.readByte a = s.bus.readByte a

/-! ## The bus -/

/-- 20_memory.md R61 to R67, R83 to R85, R88: the read column of the address map. The tags IO and PRG_RAM
are the spec's decisions D10 and D7. -/
def Obligations.ReadColumnOfTheAddressMap : Prop :=
  ∀ (b : Bus) (a : Word), b.Inv →
    (a.toNat < 0x2000 → b.readByte a = .next (b.ram.read (a.toNat % 0x800))) ∧
    (0x2000 ≤ a.toNat → a.toNat < 0x4000 → b.readByte a = .fault (.unsupportedRead .ppu)) ∧
    (0x4000 ≤ a.toNat → a.toNat ≤ 0x4013 → b.readByte a = .fault (.unsupportedRead .apu)) ∧
    (a.toNat = 0x4014 → b.readByte a = .fault (.unsupportedRead .ppuDma)) ∧
    (a.toNat = 0x4015 → b.readByte a = .fault (.unsupportedRead .apu)) ∧
    (a.toNat = 0x4016 ∨ a.toNat = 0x4017 → b.readByte a = .fault (.unsupportedRead .controller)) ∧
    (0x4018 ≤ a.toNat → a.toNat < 0x6000 → b.readByte a = .fault (.unsupportedRead .io)) ∧
    (0x6000 ≤ a.toNat → a.toNat < 0x8000 → b.readByte a = .fault (.unsupportedRead .prgRam)) ∧
    (0x8000 ≤ a.toNat → a.toNat < 0xC000 →
      ∃ m, b.cart.prgRomBanks[0]? = some m ∧ b.readByte a = .next (m.read (a.toNat - 0x8000))) ∧
    (0xC000 ≤ a.toNat →
      ∃ m, b.cart.prgRomBanks[b.cart.prgRomBanks.length - 1]? = some m ∧
        b.readByte a = .next (m.read (a.toNat - 0xC000)))

/-- 20_memory.md R68 to R71, R86: the write column of the address map, and what each write leaves. That a dropped write to
`$4000`–`$4015` leaves nothing, its log included, is the spec's decision D18 (log entry 14). -/
def Obligations.WriteColumnOfTheAddressMap : Prop :=
  ∀ (b : Bus) (a : Word) (v : Byte),
    (a.toNat < 0x2000 → ∃ b', b.writeByte a v = .next b' ∧ stored b b' a v) ∧
    (0x2000 ≤ a.toNat → a.toNat < 0x4000 → b.writeByte a v = .fault (.unhandledWrite a v)) ∧
    (0x4000 ≤ a.toNat → a.toNat ≤ 0x4015 → b.writeByte a v = .next b) ∧
    (0x4016 ≤ a.toNat → a.toNat < 0x8000 → b.writeByte a v = .fault (.unhandledWrite a v)) ∧
    (0x8000 ≤ a.toNat → b.writeByte a v = .next b)

/-- 20_memory.md R74: RAM is mirrored for reads and for writes. -/
def Obligations.RamIsMirrored : Prop :=
  ∀ (b : Bus) (a : Word), a.toNat < 0x2000 →
    b.readByte a = b.readByte (BitVec.ofNat 16 (a.toNat % 0x0800)) ∧
    ∀ v : Byte, ∃ b', b.writeByte a v = .next b' ∧
      ∀ c : Word, c.toNat < 0x2000 → c.toNat % 0x0800 = a.toNat % 0x0800 → b'.readByte c = .next v

/-- 20_memory.md R72, R73: `read_word` is little-endian, reads the low byte first, has no page wrap, stops where either read
stops, and does not wrap at `$FFFF`, where its second read faults (the spec's decisions D8 and, for the order, D11). -/
def Obligations.ReadWordIsLittleEndianWithoutWrap : Prop :=
  ∀ (b : Bus) (a : Word),
    (∀ e, b.readByte a = .fault e → b.readWord a = .fault e) ∧
    ∀ l : Byte, b.readByte a = .next l →
      (∀ h : Byte, a.toNat < 0xFFFF → b.readByte (a + 1#16) = .next h →
        b.readWord a = .next (BitVec.ofNat 16 (h.toNat * 256 + l.toNat))) ∧
      (∀ e, a.toNat < 0xFFFF → b.readByte (a + 1#16) = .fault e → b.readWord a = .fault e) ∧
      (a.toNat = 0xFFFF → b.readWord a = .fault (.unsupportedRead .outOfRange))

/-- 20_memory.md R87 (derived there from R82 to R84): on a one-bank cartridge the two ROM windows read alike. -/
def Obligations.OneBankCartridgeIsMirrored : Prop :=
  ∀ (b : Bus) (k : Nat), b.Inv → b.cart.prgRomBanks.length = 1 → k < 0x4000 →
    ∃ v, b.readByte (BitVec.ofNat 16 (0x8000 + k)) = .next v ∧ b.readByte (BitVec.ofNat 16 (0xC000 + k)) = .next v

/-! ## Addressing modes -/

/-- 40_execution_and_addressing.md R147 to R149: the zero-page modes stay in the zero page. -/
def Obligations.ZeroPageIndexingWrapsAt256 : Prop :=
  ∀ (s : State) (d : Byte), s.bus.readByte (s.pc + 1#16) = .next d →
    resolve .zeroPage s = .next ⟨BitVec.ofNat 16 d.toNat, false⟩ ∧
    resolve .zeroPageX s = .next ⟨BitVec.ofNat 16 ((d.toNat + s.x.toNat) % 256), false⟩ ∧
    resolve .zeroPageY s = .next ⟨BitVec.ofNat 16 ((d.toNat + s.y.toNat) % 256), false⟩

/-- 40_execution_and_addressing.md R150 to R152: the absolute modes; the page is crossed when the low byte carries. At
`PC = $FFFE` the operand word faults in every mode that has one (the spec's decisions D8, and D15 for the plain indirect
mode). -/
def Obligations.AbsoluteModesIndexTheOperandWord : Prop :=
  ∀ (s : State) (l h : Byte), s.bus.readByte (s.pc + 1#16) = .next l →
    (s.pc.toNat ≠ 0xFFFE → s.bus.readByte (s.pc + 2#16) = .next h →
      resolve .absolute s = .next ⟨BitVec.ofNat 16 (h.toNat * 256 + l.toNat), false⟩ ∧
      resolve .absoluteX s = .next ⟨BitVec.ofNat 16 (h.toNat * 256 + l.toNat + s.x.toNat),
        decide (l.toNat + s.x.toNat > 0xFF)⟩ ∧
      resolve .absoluteY s = .next ⟨BitVec.ofNat 16 (h.toNat * 256 + l.toNat + s.y.toNat),
        decide (l.toNat + s.y.toNat > 0xFF)⟩) ∧
    (s.pc.toNat = 0xFFFE → ∀ m ∈ [Mode.absolute, .absoluteX, .absoluteY, .indirect, .indirectWithJmpBug],
      resolve m s = .fault (.unsupportedRead .outOfRange))

/-- 40_execution_and_addressing.md R153, R154: the pointer of the two zero-page-indirect modes wraps inside the zero page,
its reads never fault, and the page is crossed when the low byte carries. -/
def Obligations.ZeroPagePointersWrapAt256 : Prop :=
  ∀ (s : State) (d : Byte), s.bus.readByte (s.pc + 1#16) = .next d →
    (∃ l h, s.bus.readByte (BitVec.ofNat 16 ((d.toNat + s.x.toNat) % 256)) = .next l ∧
      s.bus.readByte (BitVec.ofNat 16 ((d.toNat + s.x.toNat + 1) % 256)) = .next h ∧
      resolve .indexedIndirect s = .next ⟨BitVec.ofNat 16 (h.toNat * 256 + l.toNat), false⟩) ∧
    (∃ l h, s.bus.readByte (BitVec.ofNat 16 d.toNat) = .next l ∧
      s.bus.readByte (BitVec.ofNat 16 ((d.toNat + 1) % 256)) = .next h ∧
      resolve .indirectIndexed s = .next ⟨BitVec.ofNat 16 (h.toNat * 256 + l.toNat + s.y.toNat),
        decide (l.toNat + s.y.toNat > 0xFF)⟩)

/-- 40_execution_and_addressing.md R155, R156: the two indirect modes. A pointer whose low byte is `$FF` takes its second
byte from the start of its own page in the mode JMP uses; in the plain mode, which no opcode uses, the second byte
is the next one, and a pointer of `$FFFF` faults (the spec's decisions D15 and D8). Where the first
pointer byte cannot be read both modes stop with that read's fault; where it can, the second byte JMP's mode takes,
which lies in the same page, can be read too, and the plain mode stops where its second read stops (the order is
D11). -/
def Obligations.IndirectModesReadTheirPointer : Prop :=
  ∀ (s : State) (ptr second : Word), operandWord s = .next ptr →
    second = BitVec.ofNat 16 (if ptr.toNat % 256 = 0xFF then ptr.toNat - 0xFF else ptr.toNat + 1) →
    (∀ e, s.bus.readByte ptr = .fault e →
      resolve .indirectWithJmpBug s = .fault e ∧ resolve .indirect s = .fault e) ∧
    ∀ l : Byte, s.bus.readByte ptr = .next l →
      (∃ h : Byte, s.bus.readByte second = .next h ∧
        resolve .indirectWithJmpBug s = .next ⟨BitVec.ofNat 16 (h.toNat * 256 + l.toNat), false⟩) ∧
      (∀ h : Byte, ptr.toNat ≠ 0xFFFF → s.bus.readByte (ptr + 1#16) = .next h →
        resolve .indirect s = .next ⟨BitVec.ofNat 16 (h.toNat * 256 + l.toNat), false⟩) ∧
      (∀ e, ptr.toNat ≠ 0xFFFF → s.bus.readByte (ptr + 1#16) = .fault e → resolve .indirect s = .fault e) ∧
      (ptr.toNat = 0xFFFF → resolve .indirect s = .fault (.unsupportedRead .outOfRange))

/-- 20_memory.md R88, R89 with 40_execution_and_addressing.md R144 to R157: in a machine of the spec every mode but the two
that read a pointer anywhere resolves when its operand bytes lie in readable memory and the opcode is not at
`$FFFE`. Immediate resolves to `PC + 1` in every state (R146; the wrap is the spec's decision D3), implied and accumulator to
the sentinel 0 (R145), none with a page crossed. In every state a mode with an operand stops where the read of an operand byte stops (60_exceptions.md R317,
item 3; the order is the spec's decision D11). -/
def Obligations.ReadableOperandsResolve : Prop :=
  (∀ s : State, resolve .immediate s = .next ⟨s.pc + 1#16, false⟩ ∧ resolve .implied s = .next ⟨0#16, false⟩ ∧
    resolve .accumulator s = .next ⟨0#16, false⟩) ∧
  (∀ (s : State) (m : Mode), s.Inv → m ≠ .indirect → m ≠ .indirectWithJmpBug →
    readable (s.pc + 1#16) → readable (s.pc + 2#16) → s.pc.toNat ≠ 0xFFFE → ∃ res, resolve m s = .next res) ∧
  ∀ (s : State) (e : Fault),
    (s.bus.readByte (s.pc + 1#16) = .fault e →
      ∀ m, m ∉ [Mode.implied, .accumulator, .immediate] → resolve m s = .fault e) ∧
    ∀ l : Byte, s.bus.readByte (s.pc + 1#16) = .next l → s.pc.toNat ≠ 0xFFFE → s.bus.readByte (s.pc + 2#16) = .fault e →
      ∀ m ∈ [Mode.absolute, .absoluteX, .absoluteY, .indirect, .indirectWithJmpBug], resolve m s = .fault e

/-! ## Data movement -/

/-- 41_data_movement.md R180 to R182, 46_illegal_composites.md R297: the loads, in every mode. -/
def Obligations.LoadsReplaceTheRegister : Prop :=
  ∀ (s : State) (m : DataMode) (res : AddressResolution) (v : Byte),
    resolve m.mode s = .next res → s.bus.readByte res.address = .next v →
    ∃ q, zeroNegativeOf v q ∧ flagsKept [.z, .n] s.p q ∧
      exec (.lda m) s = .next (completed (.lda m) res.pageCrossed { s with a := v, p := q }) ∧
      exec (.ldx m) s = .next (completed (.ldx m) res.pageCrossed { s with x := v, p := q }) ∧
      exec (.ldy m) s = .next (completed (.ldy m) res.pageCrossed { s with y := v, p := q }) ∧
      ∀ mm, m = .mem mm →
        exec (.lax mm) s = .next (completed (.lax mm) res.pageCrossed { s with a := v, x := v, p := q })

/-- 41_data_movement.md R183 to R185, 46_illegal_composites.md R298, 40_execution_and_addressing.md R167, 20_memory.md
R71: the stores, in every mode. The byte is stored at the resolved address: RAM takes it, the APU range and ROM drop
it, and nothing else changes; no flag changes and the cost has no conditional part. For every other address the
instruction raises `UnhandledWrite` with the address and the byte. -/
def Obligations.StoresWriteTheResolvedAddress : Prop :=
  ∀ (s : State) (m : MemMode) (res : AddressResolution) (i : Instr) (v : Byte),
    (i, v) ∈ [(Instr.sta m, s.a), (.stx m, s.x), (.sty m, s.y), (.sax m, s.a &&& s.x)] →
    resolve m.mode s = .next res →
    (inRam res.address ∨ dropped res.address →
      ∃ b, stored s.bus b res.address v ∧ exec i s = .next (completed i false { s with bus := b })) ∧
    (¬ inRam res.address → ¬ dropped res.address → exec i s = .fault (.unhandledWrite res.address v))

/-- 41_data_movement.md R186 to R191: the six transfers, their opcodes, and that TXS alone changes no flag. -/
def Obligations.TransfersCopyARegister : Prop :=
  [0xAA#8, 0xA8#8, 0x8A#8, 0x98#8, 0xBA#8, 0x9A#8].map decodeByte = [.tax, .tay, .txa, .tya, .tsx, .txs] ∧
  ∀ s : State,
    (∃ q, zeroNegativeOf s.a q ∧ flagsKept [.z, .n] s.p q ∧
      exec .tax s = .next { s with x := s.a, p := q, pc := s.pc + 1#16, cyc := s.cyc + 2#64 } ∧
      exec .tay s = .next { s with y := s.a, p := q, pc := s.pc + 1#16, cyc := s.cyc + 2#64 }) ∧
    (∃ q, zeroNegativeOf s.x q ∧ flagsKept [.z, .n] s.p q ∧
      exec .txa s = .next { s with a := s.x, p := q, pc := s.pc + 1#16, cyc := s.cyc + 2#64 }) ∧
    (∃ q, zeroNegativeOf s.y q ∧ flagsKept [.z, .n] s.p q ∧
      exec .tya s = .next { s with a := s.y, p := q, pc := s.pc + 1#16, cyc := s.cyc + 2#64 }) ∧
    (∃ q, zeroNegativeOf s.sp q ∧ flagsKept [.z, .n] s.p q ∧
      exec .tsx s = .next { s with x := s.sp, p := q, pc := s.pc + 1#16, cyc := s.cyc + 2#64 }) ∧
    exec .txs s = .next { s with sp := s.x, pc := s.pc + 1#16, cyc := s.cyc + 2#64 }

/-! ## Arithmetic and logical -/

/-- 42_arithmetic_logical.md R200: ADC in every mode. The sum wraps, C is its carry, V is set exactly when the operands
have one sign and the result the other, and D is not read. -/
def Obligations.AdcAddsWithCarry : Prop :=
  ∀ (s : State) (m : DataMode) (res : AddressResolution) (v : Byte),
    resolve m.mode s = .next res → s.bus.readByte res.address = .next v →
    ∃ (r q : Byte) (sum : Nat), sum = s.a.toNat + v.toNat + (if flag .c s.p then 1 else 0) ∧ r.toNat = sum % 256 ∧
      flag .c q = decide (sum > 0xFF) ∧
      flag .v q = decide (s.a.toNat / 128 = v.toNat / 128 ∧ s.a.toNat / 128 ≠ r.toNat / 128) ∧
      zeroNegativeOf r q ∧ flagsKept [.c, .v, .z, .n] s.p q ∧
      exec (.adc m) s = .next (completed (.adc m) res.pageCrossed { s with a := r, p := q })

/-- 42_arithmetic_logical.md R201, 46_illegal_composites.md R299: SBC in every mode, the byte `$EB` included. -/
def Obligations.SbcSubtractsWithBorrow : Prop :=
  ∀ (s : State) (m : DataMode) (undocumented : Bool) (res : AddressResolution) (v : Byte),
    resolve m.mode s = .next res → s.bus.readByte res.address = .next v →
    ∃ (r q : Byte) (diff : Int),
      diff = (s.a.toNat : Int) - (v.toNat : Int) - (1 - (if flag .c s.p then 1 else 0)) ∧ (r.toNat : Int) = diff % 256 ∧
      flag .c q = decide (diff ≥ 0) ∧
      flag .v q = decide (s.a.toNat / 128 ≠ v.toNat / 128 ∧ s.a.toNat / 128 ≠ r.toNat / 128) ∧
      zeroNegativeOf r q ∧ flagsKept [.c, .v, .z, .n] s.p q ∧
      exec (.sbc m undocumented) s =
        .next (completed (.sbc m undocumented) res.pageCrossed { s with a := r, p := q })

/-- 42_arithmetic_logical.md R201 (derived there): SBC with M is ADC with `M ⊕ $FF`, result and flags. -/
def Obligations.SbcIsAdcOfTheComplement : Prop :=
  ∀ a v p : Byte, sbc a v p = adc a (v ^^^ 0xFF#8) p

/-- 42_arithmetic_logical.md R202 to R204: AND, ORA, EOR in every mode. -/
def Obligations.LogicalInstructionsCombineBits : Prop :=
  ∀ (s : State) (m : DataMode) (res : AddressResolution) (v : Byte),
    resolve m.mode s = .next res → s.bus.readByte res.address = .next v →
    ∃ r1 r2 r3 q1 q2 q3 : Byte,
      (∀ k < 8, r1.getLsbD k = (s.a.getLsbD k && v.getLsbD k) ∧ r2.getLsbD k = (s.a.getLsbD k || v.getLsbD k) ∧
        r3.getLsbD k = (s.a.getLsbD k ^^ v.getLsbD k)) ∧
      zeroNegativeOf r1 q1 ∧ zeroNegativeOf r2 q2 ∧ zeroNegativeOf r3 q3 ∧
      flagsKept [.z, .n] s.p q1 ∧ flagsKept [.z, .n] s.p q2 ∧ flagsKept [.z, .n] s.p q3 ∧
      exec (.and m) s = .next (completed (.and m) res.pageCrossed { s with a := r1, p := q1 }) ∧
      exec (.ora m) s = .next (completed (.ora m) res.pageCrossed { s with a := r2, p := q2 }) ∧
      exec (.eor m) s = .next (completed (.eor m) res.pageCrossed { s with a := r3, p := q3 })

/-- 42_arithmetic_logical.md R205, 40_execution_and_addressing.md R166: BIT changes Z, N and V alone; V is bit 6 of the
byte read. -/
def Obligations.BitTestsTheByteRead : Prop :=
  ∀ (s : State) (m : MemMode) (res : AddressResolution) (v : Byte),
    resolve m.mode s = .next res → s.bus.readByte res.address = .next v →
    ∃ q, flag .z q = decide (s.a &&& v = 0x00#8) ∧ flag .n q = v.getLsbD 7 ∧ flag .v q = v.getLsbD 6 ∧
      flagsKept [.z, .n, .v] s.p q ∧
      exec (.bit m) s = .next (completed (.bit m) res.pageCrossed { s with p := q })

/-! ## Shifts, comparisons, increment and decrement -/

/-- 43_shift_compare_incdec.md R224 to R226: the comparisons change C, Z and N alone. -/
def Obligations.ComparisonsSetFlagsAlone : Prop :=
  ∀ (s : State) (m : DataMode) (res : AddressResolution) (v : Byte),
    resolve m.mode s = .next res → s.bus.readByte res.address = .next v →
    ∀ (i : Instr) (reg : Byte), (i, reg) ∈ [(Instr.cmp m, s.a), (.cpx m, s.x), (.cpy m, s.y)] →
    ∃ q, comparedFlags reg v s.p q ∧
      exec i s = .next (completed i res.pageCrossed { s with p := q })

/-- 43_shift_compare_incdec.md R220 to R223: the value and the carry the four shifts make of a byte `v` under a carry, and
the accumulator forms, which write A and P and touch no memory. -/
def Obligations.ShiftsMoveOneBit : Prop :=
  (∀ v p : Byte,
    ((asl v p).1.toNat = v.toNat * 2 % 256 ∧ flag .c (asl v p).2 = decide (128 ≤ v.toNat)) ∧
    ((lsr v p).1.toNat = v.toNat / 2 ∧ flag .c (lsr v p).2 = decide (v.toNat % 2 = 1) ∧
      flag .n (lsr v p).2 = false) ∧
    ((rol v p).1.toNat = v.toNat * 2 % 256 + (if flag .c p then 1 else 0) ∧
      flag .c (rol v p).2 = decide (128 ≤ v.toNat)) ∧
    ((ror v p).1.toNat = v.toNat / 2 + (if flag .c p then 128 else 0) ∧
      flag .c (ror v p).2 = decide (v.toNat % 2 = 1)) ∧
    ∀ f ∈ [asl, lsr, rol, ror], zeroNegativeOf (f v p).1 (f v p).2 ∧ flagsKept [.c, .z, .n] p (f v p).2) ∧
  ∀ (s : State) (i : Instr) (f : Byte → Byte → Byte × Byte),
    (i, f) ∈ [(Instr.asl .acc, asl), (.lsr .acc, lsr), (.rol .acc, rol), (.ror .acc, ror)] →
    exec i s = .next (completed i false { s with a := (f s.a s.p).1, p := (f s.a s.p).2 })

/-- 43_shift_compare_incdec.md R220 to R223, R227, R228, 40_execution_and_addressing.md R168: the memory forms of the shifts
and INC and DEC complete as soon as their byte is readable. They write the new byte back to the same address (ROM keeps
its byte), set the flags from it and cost no conditional cycle. -/
def Obligations.ReadModifyWriteStoresBack : Prop :=
  ∀ (s : State) (m : MemMode) (res : AddressResolution) (v : Byte),
    resolve m.mode s = .next res → s.bus.readByte res.address = .next v →
    (∀ (i : Instr) (f : Byte → Byte → Byte × Byte),
      (i, f) ∈ [(Instr.asl (.mem m), asl), (.lsr (.mem m), lsr), (.rol (.mem m), rol), (.ror (.mem m), ror)] →
      ∃ b, stored s.bus b res.address (f v s.p).1 ∧
        exec i s = .next (completed i false { s with bus := b, p := (f v s.p).2 })) ∧
    (∃ b q, stored s.bus b res.address (BitVec.ofNat 8 (v.toNat + 1)) ∧
      zeroNegativeOf (BitVec.ofNat 8 (v.toNat + 1)) q ∧ flagsKept [.z, .n] s.p q ∧
      exec (.inc m) s = .next (completed (.inc m) false { s with bus := b, p := q })) ∧
    (∃ b q, stored s.bus b res.address (BitVec.ofNat 8 (v.toNat + 255)) ∧
      zeroNegativeOf (BitVec.ofNat 8 (v.toNat + 255)) q ∧ flagsKept [.z, .n] s.p q ∧
      exec (.dec m) s = .next (completed (.dec m) false { s with bus := b, p := q }))

/-- 43_shift_compare_incdec.md R229 to R232: the register increments and decrements and their opcodes. -/
def Obligations.RegisterIncrementsWrap : Prop :=
  [0xE8#8, 0xCA#8, 0xC8#8, 0x88#8].map decodeByte = [.inx, .dex, .iny, .dey] ∧
  ∀ s : State,
    (∃ r q, r.toNat = (s.x.toNat + 1) % 256 ∧ zeroNegativeOf r q ∧ flagsKept [.z, .n] s.p q ∧
      exec .inx s = .next { s with x := r, p := q, pc := s.pc + 1#16, cyc := s.cyc + 2#64 }) ∧
    (∃ r q, r.toNat = (s.x.toNat + 255) % 256 ∧ zeroNegativeOf r q ∧ flagsKept [.z, .n] s.p q ∧
      exec .dex s = .next { s with x := r, p := q, pc := s.pc + 1#16, cyc := s.cyc + 2#64 }) ∧
    (∃ r q, r.toNat = (s.y.toNat + 1) % 256 ∧ zeroNegativeOf r q ∧ flagsKept [.z, .n] s.p q ∧
      exec .iny s = .next { s with y := r, p := q, pc := s.pc + 1#16, cyc := s.cyc + 2#64 }) ∧
    (∃ r q, r.toNat = (s.y.toNat + 255) % 256 ∧ zeroNegativeOf r q ∧ flagsKept [.z, .n] s.p q ∧
      exec .dey s = .next { s with y := r, p := q, pc := s.pc + 1#16, cyc := s.cyc + 2#64 })

/-! ## Control transfer -/

/-- 44_control_flow.md R240 to R248, 40_execution_and_addressing.md R157: the eight branches, their opcodes and
conditions. The offset byte is read whether or not the branch is taken, and only that read can fault. Taken, the target
is `PC + 2` plus the signed offset, and the cost is 3, or 4 when the target's page is not that of `PC + 2`.
That targets wrap is the spec's decision D3. -/
def Obligations.BranchesTestTheirFlag : Prop :=
  [0x90#8, 0xB0#8, 0xD0#8, 0xF0#8, 0x10#8, 0x30#8, 0x50#8, 0x70#8].map decodeByte =
    [.bcc, .bcs, .bne, .beq, .bpl, .bmi, .bvc, .bvs] ∧
  ∀ (s : State) (i : Instr) (f : Flag) (value : Bool),
    (i, f, value) ∈ [(Instr.bcc, Flag.c, false), (.bcs, .c, true), (.bne, .z, false), (.beq, .z, true),
      (.bpl, .n, false), (.bmi, .n, true), (.bvc, .v, false), (.bvs, .v, true)] →
    (∀ (d : Byte) (target : Word), s.bus.readByte (s.pc + 1#16) = .next d →
      target = s.pc + 2#16 + BitVec.ofInt 16 (if d.toNat < 128 then (d.toNat : Int) else (d.toNat : Int) - 256) →
      exec i s = .next
        (if flag f s.p = value then
          { s with
            pc := target
            cyc := s.cyc + (if (s.pc + 2#16).toNat / 256 = target.toNat / 256 then 3#64 else 4#64) }
        else { s with pc := s.pc + 2#16, cyc := s.cyc + 2#64 })) ∧
    (∀ e, s.bus.readByte (s.pc + 1#16) = .fault e → exec i s = .fault e)

/-- 44_control_flow.md R249: JMP, both forms. -/
def Obligations.JmpGoesToItsTarget : Prop :=
  decodeByte 0x4C#8 = .jmp .abs ∧ decodeByte 0x6C#8 = .jmp .ind ∧
  ∀ (s : State) (m : JmpMode),
    (∀ res, resolve m.mode s = .next res →
      exec (.jmp m) s = .next { s with pc := res.address, cyc := s.cyc + (if m = .abs then 3#64 else 5#64) }) ∧
    (∀ e, resolve m.mode s = .fault e → exec (.jmp m) s = .fault e)

/-- 44_control_flow.md R250, 40_execution_and_addressing.md R163, R169: JSR pushes the address of its own last byte, high
byte first, and goes to the operand word, which was read before the pushes (the spec's decision D11). -/
def Obligations.JsrPushesTheReturnAddress : Prop :=
  decodeByte 0x20#8 = .jsr ∧
  ∀ s : State,
    (∀ w, operandWord s = .next w →
      ∃ b1 b2, stored s.bus b1 (BitVec.ofNat 16 (0x100 + s.sp.toNat))
          (BitVec.ofNat 8 ((s.pc + 2#16).toNat / 256)) ∧
        stored b1 b2 (BitVec.ofNat 16 (0x100 + (s.sp.toNat + 255) % 256)) (BitVec.ofNat 8 (s.pc + 2#16).toNat) ∧
        exec .jsr s = .next { s with pc := w, sp := s.sp - 2#8, cyc := s.cyc + 6#64, bus := b2 }) ∧
    (∀ e, operandWord s = .fault e → exec .jsr s = .fault e)

/-- 44_control_flow.md R251: RTS pops low then high and goes one past; it never faults. -/
def Obligations.RtsReturnsOnePastThePoppedWord : Prop :=
  decodeByte 0x60#8 = .rts ∧
  ∀ s : State, ∃ l h,
    s.bus.readByte (BitVec.ofNat 16 (0x100 + (s.sp.toNat + 1) % 256)) = .next l ∧
    s.bus.readByte (BitVec.ofNat 16 (0x100 + (s.sp.toNat + 2) % 256)) = .next h ∧
    exec .rts s = .next
      { s with pc := BitVec.ofNat 16 (h.toNat * 256 + l.toNat + 1), sp := s.sp + 2#8, cyc := s.cyc + 6#64 }

/-- 44_control_flow.md R252: RTI pops the status, with bit 4 forced to 0 and bit 5 forced to 1, then PC low and high, with
no `+1`; it never faults. -/
def Obligations.RtiRestoresStatusAndPc : Prop :=
  decodeByte 0x40#8 = .rti ∧
  ∀ s : State, ∃ st l h q,
    s.bus.readByte (BitVec.ofNat 16 (0x100 + (s.sp.toNat + 1) % 256)) = .next st ∧
    s.bus.readByte (BitVec.ofNat 16 (0x100 + (s.sp.toNat + 2) % 256)) = .next l ∧
    s.bus.readByte (BitVec.ofNat 16 (0x100 + (s.sp.toNat + 3) % 256)) = .next h ∧
    flag .b q = false ∧ flag .u q = true ∧ flagsKept [.b, .u] st q ∧
    exec .rti s = .next
      { s with pc := BitVec.ofNat 16 (h.toNat * 256 + l.toNat), p := q, sp := s.sp + 3#8, cyc := s.cyc + 6#64 }

/-- 44_control_flow.md R250, R251 (the source's scenario 4): JSR and then RTS comes back to the instruction after the JSR
with every register as it was, wherever the stack pointer stands. -/
def Obligations.JsrThenRtsComesBack : Prop :=
  ∀ (s : State) (w : Word), operandWord s = .next w →
    ∃ t u, exec .jsr s = .next t ∧ t.pc = w ∧ exec .rts t = .next u ∧
      { u with bus := s.bus } = { s with pc := s.pc + 3#16, cyc := s.cyc + 12#64 }

/-! ## Stack, flags, no-operation -/

/-- 40_execution_and_addressing.md R161, R162: a push writes `$0100 + SP` and lowers SP, a pop raises SP and reads,
neither ever faults; a pushed byte is popped again and SP comes back. -/
def Obligations.PushThenPopGivesTheByteBack : Prop :=
  ∀ s : State,
    (∃ v, s.bus.readByte (BitVec.ofNat 16 (0x100 + (s.sp.toNat + 1) % 256)) = .next v ∧
      pop s = .next (v, { s with sp := s.sp + 1#8 })) ∧
    ∀ v : Byte, ∃ b,
      stored s.bus b (BitVec.ofNat 16 (0x100 + s.sp.toNat)) v ∧
      push v s = .next { s with bus := b, sp := s.sp - 1#8 } ∧
      pop { s with bus := b, sp := s.sp - 1#8 } = .next (v, { s with bus := b })

/-- 40_execution_and_addressing.md R163, R164, R169: `push_word(w); pop_word()` is the identity, the low byte comes off
first, and this holds when SP wraps. -/
def Obligations.PushWordThenPopWordIsTheIdentity : Prop :=
  ∀ (s : State) (w : Word), ∃ t,
    pushWord w s = .next t ∧ { t with bus := s.bus } = { s with sp := t.sp } ∧
    t.sp.toNat = (s.sp.toNat + 254) % 256 ∧
    t.bus.readByte (BitVec.ofNat 16 (0x100 + s.sp.toNat)) = .next (BitVec.ofNat 8 (w.toNat / 256)) ∧
    t.bus.readByte (BitVec.ofNat 16 (0x100 + (s.sp.toNat + 255) % 256)) = .next (BitVec.ofNat 8 w.toNat) ∧
    popWord t = .next (w, { s with bus := t.bus }) ∧
    ∃ u, pop t = .next (BitVec.ofNat 8 w.toNat, u) ∧ pop u = .next (BitVec.ofNat 8 (w.toNat / 256), { s with bus := t.bus })

/-- 45_stack_flags_nop.md R260, R261: PHA and PHP; the pushed status has bits 4 and 5 set and P itself stays. -/
def Obligations.PushInstructionsStoreOneByte : Prop :=
  decodeByte 0x48#8 = .pha ∧ decodeByte 0x08#8 = .php ∧
  ∀ s : State,
    (∃ b, stored s.bus b (BitVec.ofNat 16 (0x100 + s.sp.toNat)) s.a ∧
      exec .pha s = .next { s with bus := b, sp := s.sp - 1#8, pc := s.pc + 1#16, cyc := s.cyc + 3#64 }) ∧
    (∃ b v, stored s.bus b (BitVec.ofNat 16 (0x100 + s.sp.toNat)) v ∧
      flag .b v = true ∧ flag .u v = true ∧ flagsKept [.b, .u] s.p v ∧
      exec .php s = .next { s with bus := b, sp := s.sp - 1#8, pc := s.pc + 1#16, cyc := s.cyc + 3#64 })

/-- 45_stack_flags_nop.md R262, R263: PLA sets Z and N from the byte, PLP loads P with bit 4 forced to 0 and bit 5 forced to
1. -/
def Obligations.PullInstructionsLoadOneByte : Prop :=
  decodeByte 0x68#8 = .pla ∧ decodeByte 0x28#8 = .plp ∧
  ∀ s : State, ∃ v, s.bus.readByte (BitVec.ofNat 16 (0x100 + (s.sp.toNat + 1) % 256)) = .next v ∧
    (∃ q, zeroNegativeOf v q ∧ flagsKept [.z, .n] s.p q ∧
      exec .pla s = .next { s with a := v, p := q, sp := s.sp + 1#8, pc := s.pc + 1#16, cyc := s.cyc + 4#64 }) ∧
    (∃ q, flag .b q = false ∧ flag .u q = true ∧ flagsKept [.b, .u] v q ∧
      exec .plp s = .next { s with p := q, sp := s.sp + 1#8, pc := s.pc + 1#16, cyc := s.cyc + 4#64 })

/-- 45_stack_flags_nop.md R264 to R270: the seven flag instructions and their opcodes; each changes its one bit of P. -/
def Obligations.FlagInstructionsWriteOneBit : Prop :=
  [0x18#8, 0x38#8, 0x58#8, 0x78#8, 0xB8#8, 0xD8#8, 0xF8#8].map decodeByte =
    [.clc, .sec, .cli, .sei, .clv, .cld, .sed] ∧
  ∀ (s : State) (i : Instr) (f : Flag) (value : Bool),
    (i, f, value) ∈ [(Instr.clc, Flag.c, false), (.sec, .c, true), (.cli, .i, false), (.sei, .i, true),
      (.clv, .v, false), (.cld, .d, false), (.sed, .d, true)] →
    ∃ q, flag f q = value ∧ flagsKept [f] s.p q ∧
      exec i s = .next { s with p := q, pc := s.pc + 1#16, cyc := s.cyc + 2#64 }

/-- 45_stack_flags_nop.md R271 to R273: NOP in all its bytes changes PC and CYC alone; the forms with an operand read the
resolved address and drop the byte, and stop where that read stops (the spec's decision D9). -/
def Obligations.NopChangesOnlyPcAndCycles : Prop :=
  (∀ (m : NopMode) (op : Byte), op ∈ nopBytes m → decodeByte op = .nop m op) ∧
  (∀ (s : State) (op : Byte), exec (.nop .implied op) s = .next { s with pc := s.pc + 1#16, cyc := s.cyc + 2#64 }) ∧
  (∀ (s : State) (m : DataMode) (op : Byte) (res : AddressResolution), resolve m.mode s = .next res →
    (∀ v, s.bus.readByte res.address = .next v →
      exec (.nop (.operand m) op) s = .next (completed (.nop (.operand m) op) res.pageCrossed s)) ∧
    (∀ e, s.bus.readByte res.address = .fault e → exec (.nop (.operand m) op) s = .fault e)) ∧
  (∀ (s : State) (m : DataMode) (op : Byte) (e : Fault), resolve m.mode s = .fault e →
    exec (.nop (.operand m) op) s = .fault e)

/-! ## Undocumented composites -/

/-- 46_illegal_composites.md R290 to R293: SLO, SRE, RLA. The shifted byte is stored, the mode is resolved and the byte
read again, and A is combined with the second byte; C is the bit shifted out, Z and N are those of A, and no page costs
a cycle. -/
def Obligations.ShiftCompositesCombineTheSecondByte : Prop :=
  ∀ (s : State) (m : MemMode) (res res2 : AddressResolution) (v v2 : Byte) (b : Bus)
    (i : Instr) (w r : Byte) (out : Bool),
    resolve m.mode s = .next res → s.bus.readByte res.address = .next v →
    (i, w, r, out) ∈
      [(Instr.slo m, BitVec.ofNat 8 (v.toNat * 2), s.a ||| v2, decide (128 ≤ v.toNat)),
       (.sre m, BitVec.ofNat 8 (v.toNat / 2), s.a ^^^ v2, decide (v.toNat % 2 = 1)),
       (.rla m, BitVec.ofNat 8 (v.toNat * 2 + (if flag .c s.p then 1 else 0)), s.a &&& v2,
        decide (128 ≤ v.toNat))] →
    s.bus.writeByte res.address w = .next b → resolve m.mode { s with bus := b } = .next res2 →
    b.readByte res2.address = .next v2 →
    ∃ q, flag .c q = out ∧ zeroNegativeOf r q ∧ flagsKept [.c, .z, .n] s.p q ∧
      exec i s = .next (completed i false { s with bus := b, a := r, p := q })

/-- 46_illegal_composites.md R290, R294 to R296: RRA, DCP, ISC. RRA adds with the carry the rotate made, ISC subtracts with
the carry from before the instruction, DCP changes no register. -/
def Obligations.ArithmeticCompositesUseTheSecondByte : Prop :=
  ∀ (s : State) (m : MemMode) (res res2 : AddressResolution) (v v2 : Byte) (b : Bus),
    resolve m.mode s = .next res → s.bus.readByte res.address = .next v →
    resolve m.mode { s with bus := b } = .next res2 → b.readByte res2.address = .next v2 →
    (s.bus.writeByte res.address (BitVec.ofNat 8 (v.toNat / 2 + (if flag .c s.p then 128 else 0))) = .next b →
      exec (.rra m) s = .next (completed (.rra m) false
        { s with
          bus := b
          a := (adc s.a v2 (setFlag .c (decide (v.toNat % 2 = 1)) s.p)).1
          p := (adc s.a v2 (setFlag .c (decide (v.toNat % 2 = 1)) s.p)).2 })) ∧
    (s.bus.writeByte res.address (BitVec.ofNat 8 (v.toNat + 1)) = .next b →
      exec (.isc m) s = .next (completed (.isc m) false
        { s with bus := b, a := (sbc s.a v2 s.p).1, p := (sbc s.a v2 s.p).2 })) ∧
    (s.bus.writeByte res.address (BitVec.ofNat 8 (v.toNat + 255)) = .next b →
      ∃ q, comparedFlags s.a v2 s.p q ∧
        exec (.dcp m) s = .next (completed (.dcp m) false { s with bus := b, p := q }))

/-- 46_illegal_composites.md R290, point 2, with R291 to R296: when the target is ROM the write is ignored and the second
read gives the unmodified byte; the composite completes. A and the flags come from that byte, but for the carry of SLO,
SRE and RLA and the carry RRA adds, which the first half shifted out of it. -/
def Obligations.CompositesOnRomUseTheOldByte : Prop :=
  ∀ (s : State) (m : MemMode) (res : AddressResolution) (v : Byte),
    resolve m.mode s = .next res → s.bus.readByte res.address = .next v → 0x8000 ≤ res.address.toNat →
    (∀ (i : Instr) (r : Byte) (out : Bool),
      (i, r, out) ∈ [(Instr.slo m, s.a ||| v, decide (128 ≤ v.toNat)), (.sre m, s.a ^^^ v, decide (v.toNat % 2 = 1)),
        (.rla m, s.a &&& v, decide (128 ≤ v.toNat))] →
      ∃ q, flag .c q = out ∧ zeroNegativeOf r q ∧ flagsKept [.c, .z, .n] s.p q ∧
        exec i s = .next (completed i false { s with a := r, p := q })) ∧
    (exec (.rra m) s = .next (completed (.rra m) false
      { s with
        a := (adc s.a v (setFlag .c (decide (v.toNat % 2 = 1)) s.p)).1
        p := (adc s.a v (setFlag .c (decide (v.toNat % 2 = 1)) s.p)).2 })) ∧
    (exec (.isc m) s = .next (completed (.isc m) false { s with a := (sbc s.a v s.p).1, p := (sbc s.a v s.p).2 })) ∧
    ∃ q, comparedFlags s.a v s.p q ∧ exec (.dcp m) s = .next (completed (.dcp m) false { s with p := q })

/-- 46_illegal_composites.md R290, point 1, with R291 to R296: code in ROM with its target in RAM. In the modes that read no
pointer every composite completes, the target holds the modified byte `w`, and A and the flags are those of combining A
with `w` under the carry the first half left. -/
def Obligations.CompositesFromRomCombineTheModifiedByte : Prop :=
  ∀ (s : State) (m : MemMode) (res : AddressResolution) (v : Byte),
    m ∉ [MemMode.indX, .indY] → 0x8000 ≤ s.pc.toNat → s.pc.toNat < 0xFFFD →
    resolve m.mode s = .next res → s.bus.readByte res.address = .next v → inRam res.address →
    (∀ (i : Instr) (w r : Byte) (out : Bool),
      (i, w, r, out) ∈
        [(Instr.slo m, (asl v s.p).1, s.a ||| (asl v s.p).1, decide (128 ≤ v.toNat)),
         (.sre m, (lsr v s.p).1, s.a ^^^ (lsr v s.p).1, decide (v.toNat % 2 = 1)),
         (.rla m, (rol v s.p).1, s.a &&& (rol v s.p).1, decide (128 ≤ v.toNat))] →
      ∃ b q, stored s.bus b res.address w ∧ flag .c q = out ∧ zeroNegativeOf r q ∧ flagsKept [.c, .z, .n] s.p q ∧
        exec i s = .next (completed i false { s with bus := b, a := r, p := q })) ∧
    (∀ w p1 : Byte, w = (ror v s.p).1 → p1 = setFlag .c (decide (v.toNat % 2 = 1)) s.p →
      ∃ b, stored s.bus b res.address w ∧
        exec (.rra m) s = .next (completed (.rra m) false
          { s with bus := b, a := (adc s.a w p1).1, p := (adc s.a w p1).2 })) ∧
    (∃ b, stored s.bus b res.address (v + 1#8) ∧
      exec (.isc m) s = .next (completed (.isc m) false
        { s with bus := b, a := (sbc s.a (v + 1#8) s.p).1, p := (sbc s.a (v + 1#8) s.p).2 })) ∧
    ∃ b q, stored s.bus b res.address (v - 1#8) ∧ comparedFlags s.a (v - 1#8) s.p q ∧
      exec (.dcp m) s = .next (completed (.dcp m) false { s with bus := b, p := q })

/-! ## Fetch, trace -/

/-- 20_memory.md R93, 70_reset_and_hazards.md R347: a byte that STA, STX, STY or SAX stores to RAM is what the very next
fetch from that address, or from a mirror of it, sees. -/
def Obligations.StoredByteIsFetchedNext : Prop :=
  ∀ (s t : State) (m : MemMode) (res : AddressResolution) (i : Instr) (v : Byte),
    (i, v) ∈ [(Instr.sta m, s.a), (.stx m, s.x), (.sty m, s.y), (.sax m, s.a &&& s.x)] →
    resolve m.mode s = .next res → inRam res.address → exec i s = .next t → sameRamByte res.address t.pc →
    step t = exec (decodeByte v) t

/-- 40_execution_and_addressing.md R144, 60_exceptions.md R317, 41_data_movement.md R183, 46_illegal_composites.md R298,
R290 point 4: every instruction with a memory mode stops where its mode stops; a read-class or read-modify-write
instruction stops where its read stops, the immediate forms at `PC + 1`; after a composite's first half has written, its second
resolution completes, and the composite stops where its second read stops. A run that reaches a fault ends in the state before the
faulting step, so what that half wrote is undone (60_exceptions.md R318). The order is the spec's decision D11, precise
faults are D2. -/
def Obligations.FaultsComeInAccessOrder : Prop :=
  (∀ (s : State) (m : MemMode) (op : Byte) (e : Fault),
    (∀ i ∈ readForms m op ++ storeForms m ++ rmwForms m, resolve m.mode s = .fault e → exec i s = .fault e) ∧
    ∀ i ∈ readForms m op ++ rmwForms m, ∀ res, resolve m.mode s = .next res → s.bus.readByte res.address = .fault e →
      exec i s = .fault e) ∧
  (∀ (s : State) (op : Byte) (e : Fault), ∀ i ∈ immediateForms op, s.bus.readByte (s.pc + 1#16) = .fault e →
    exec i s = .fault e) ∧
  (∀ (s : State) (m : MemMode) (res : AddressResolution) (v : Byte) (b : Bus) (e : Fault)
    (i : Instr) (f : Byte → Byte → Byte × Byte),
    (i, f) ∈ [(Instr.slo m, asl), (.sre m, lsr), (.rla m, rol), (.rra m, ror), (.dcp m, decrement), (.isc m, increment)] →
    resolve m.mode s = .next res → s.bus.readByte res.address = .next v → s.bus.writeByte res.address (f v s.p).1 = .next b →
    ∃ res2, resolve m.mode { s with bus := b } = .next res2 ∧ (b.readByte res2.address = .fault e → exec i s = .fault e)) ∧
  ∀ (s t : State) (n k : Nat) (e : Fault), s.run n = (t, .host) → step t = .fault e → s.run (n + 1 + k) = (t, .fault e)

/-- 60_exceptions.md R327, R328, with the spec's decision D19: the line of a step, character by character. `hx` is the
hexadecimal digit. The bytes of the line are the opcode at PC and the operand bytes of its length, read as the mode reads
them, and a line is produced exactly when these reads answer; a byte without a handler stands alone, which is this
model's deduction (log entry 7). PC is in columns 0 to 3, the opcode in 6 and 7, the operands from 9, the text from 16,
the registers field, of 33 characters, from 48. -/
def Obligations.TraceLineHasItsColumns : Prop :=
  (∀ (s : State) (op : Byte), s.bus.readByte s.pc = .next op →
    (op ∈ unimplementedBytes → instrBytes s = .next [op]) ∧
    (instrLength (decodeByte op) = some 1 → instrBytes s = .next [op]) ∧
    (instrLength (decodeByte op) = some 2 →
      (∀ d, s.bus.readByte (s.pc + 1#16) = .next d → instrBytes s = .next [op, d]) ∧
      (∀ e, s.bus.readByte (s.pc + 1#16) = .fault e → instrBytes s = .fault e)) ∧
    (instrLength (decodeByte op) = some 3 →
      (∀ e, s.bus.readByte (s.pc + 1#16) = .fault e → instrBytes s = .fault e) ∧
      ∀ l, s.bus.readByte (s.pc + 1#16) = .next l →
        (∀ h, s.pc.toNat ≠ 0xFFFE → s.bus.readByte (s.pc + 2#16) = .next h → instrBytes s = .next [op, l, h]) ∧
        (∀ e, s.pc.toNat ≠ 0xFFFE → s.bus.readByte (s.pc + 2#16) = .fault e → instrBytes s = .fault e) ∧
        (s.pc.toNat = 0xFFFE → instrBytes s = .fault (.unsupportedRead .outOfRange)))) ∧
  (∀ (s : State) (e : Fault), s.bus.readByte s.pc = .fault e → instrBytes s = .fault e) ∧
  (∀ s : State, (registersField s).length = 33) ∧
  registersField State.reset =
    ['A', ':', '0', '0', ' ', 'X', ':', '0', '0', ' ', 'Y', ':', '0', '0', ' ', 'P', ':', '2', '4', ' ',
      'S', 'P', ':', 'F', 'D', ' ', 'C', 'Y', 'C', ':', ' ', ' ', '0'] ∧
  ∀ (disasm : State → List Byte → List Char) (s : State) (hx : Nat → Char) (n : Nat) (registers : List Char),
    hx = (fun k => ['0', '1', '2', '3', '4', '5', '6', '7', '8', '9', 'A', 'B', 'C', 'D', 'E', 'F'].getD k '0') →
    n = s.cyc.toNat * 3 % 341 →
    registers =
      ['A', ':', hx (s.a.toNat / 16), hx (s.a.toNat % 16), ' ', 'X', ':', hx (s.x.toNat / 16), hx (s.x.toNat % 16), ' ',
        'Y', ':', hx (s.y.toNat / 16), hx (s.y.toNat % 16), ' ', 'P', ':', hx (s.p.toNat / 16), hx (s.p.toNat % 16), ' ',
        'S', 'P', ':', hx (s.sp.toNat / 16), hx (s.sp.toNat % 16), ' ', 'C', 'Y', 'C', ':',
        if n < 100 then ' ' else hx (n / 100), if n < 10 then ' ' else hx (n / 10 % 10), hx (n % 10)] →
    registersField s = registers ∧
    (∀ e, instrBytes s = .fault e → traceLine disasm s = .fault e) ∧
    ∀ (bytes : List Byte) (op : Byte) (operands text : List Char), instrBytes s = .next bytes →
      (bytes = [op] ∧ operands = [' ', ' ', ' ', ' ', ' ', ' ']) ∨
      (∃ d, bytes = [op, d] ∧ operands = [hx (d.toNat / 16), hx (d.toNat % 16), ' ', ' ', ' ', ' ']) ∨
      (∃ l h, bytes = [op, l, h] ∧
        operands = [hx (l.toNat / 16), hx (l.toNat % 16), ' ', hx (h.toNat / 16), hx (h.toNat % 16), ' ']) →
      text = (disasm s bytes).map Char.toUpper → text.length ≤ 31 →
      ∃ line, traceLine disasm s = .next line ∧ line.length = 81 ∧
        line =
          [hx (s.pc.toNat / 4096), hx (s.pc.toNat / 256 % 16), hx (s.pc.toNat / 16 % 16), hx (s.pc.toNat % 16), ' ', ' ',
            hx (op.toNat / 16), hx (op.toNat % 16), ' '] ++ operands ++ [' '] ++
          text ++ List.replicate (31 - text.length) ' ' ++ [' '] ++ registers
end

