-- ==== Sys2Proof/Laws/Memory.lean ====
section
/-! SUPPORT. Memory as data: a read after a write, and that every operation keeps the canonical form, in which equal
memories are equal lists. -/

namespace Sys2Proof.Machine

@[simp] theorem Memory.read_nil (k : Nat) : Memory.read [] k = Config.blankByte := rfl

theorem Memory.read_cons (j : Nat) (v : Byte) (rest : Memory) (k : Nat) :
    Memory.read ((j, v) :: rest) k = if j = k then v else Memory.read rest k := rfl

@[simp] theorem Memory.wf_nil (size : Nat) : Memory.wf size [] := by
  simp [Memory.wf]

/-- An address that is not listed reads as blank. -/
theorem Memory.read_of_not_mem {m : Memory} {k : Nat} (h : ∀ c ∈ m, c.1 ≠ k) :
    Memory.read m k = Config.blankByte := by
  induction m with
  | nil => rfl
  | cons c rest ih =>
    obtain ⟨j, v⟩ := c
    have hj : j ≠ k := h (j, v) (by simp)
    rw [Memory.read_cons, if_neg hj]
    exact ih fun c hc => h c (List.mem_cons_of_mem _ hc)

theorem Memory.read_erase (m : Memory) (k j : Nat) :
    Memory.read (Memory.erase m k) j = if j = k then Config.blankByte else Memory.read m j := by
  induction m with
  | nil => simp [Memory.erase]
  | cons c rest ih =>
    obtain ⟨i, v⟩ := c
    unfold Memory.erase at ih ⊢
    by_cases hik : i = k
    · subst hik
      simp only [List.filter_cons, ne_eq, not_true_eq_false, decide_false, Bool.false_eq_true, if_false, ih]
      by_cases hj : j = i
      · simp [hj]
      · simp [hj, Memory.read_cons, Ne.symm hj]
    · simp only [List.filter_cons, ne_eq, hik, not_false_eq_true, decide_true, if_true, Memory.read_cons, ih]
      by_cases hij : i = j
      · subst hij
        simp [hik]
      · simp [hij]

theorem Memory.read_place {m : Memory} {k : Nat} (h : ∀ c ∈ m, c.1 ≠ k) (v : Byte) (j : Nat) :
    Memory.read (Memory.place m k v) j = if j = k then v else Memory.read m j := by
  induction m with
  | nil => simp [Memory.place, Memory.read_cons, eq_comm]
  | cons c rest ih =>
    obtain ⟨i, w⟩ := c
    have hik : i ≠ k := h (i, w) (by simp)
    have hrest := ih fun c hc => h c (List.mem_cons_of_mem _ hc)
    unfold Memory.place
    split
    · rw [Memory.read_cons]
      by_cases hj : j = k
      · simp [hj]
      · simp [hj, Ne.symm hj]
    · rw [Memory.read_cons, hrest, Memory.read_cons]
      by_cases hij : i = j
      · subst hij
        simp [hik]
      · simp [hij]

theorem Memory.erase_no_key (m : Memory) (k : Nat) : ∀ c ∈ Memory.erase m k, c.1 ≠ k := by
  intro c hc
  have := (List.mem_filter.mp hc).2
  simpa using this

/-- What a byte reads as after a write: the value written there, and what it was everywhere else. No canonical form is
needed. -/
@[simp] theorem Memory.read_write (m : Memory) (k : Nat) (v : Byte) (j : Nat) :
    Memory.read (Memory.write m k v) j = if j = k then v else Memory.read m j := by
  unfold Memory.write
  split
  · next hv => rw [Memory.read_erase, hv]
  · rw [Memory.read_place (Memory.erase_no_key m k), Memory.read_erase]
    by_cases hj : j = k <;> simp [hj]

theorem Memory.mem_place {m : Memory} {k : Nat} {v : Byte} {c : Host.Cell} (h : c ∈ Memory.place m k v) :
    c = (k, v) ∨ c ∈ m := by
  induction m with
  | nil => simpa [Memory.place] using h
  | cons d rest ih =>
    obtain ⟨i, w⟩ := d
    unfold Memory.place at h
    split at h
    · simpa using h
    · rcases List.mem_cons.mp h with h | h
      · exact .inr (by simp [h])
      · rcases ih h with h | h
        · exact .inl h
        · exact .inr (List.mem_cons_of_mem _ h)

theorem Memory.erase_wf {size : Nat} {m : Memory} (h : Memory.wf size m) (k : Nat) :
    Memory.wf size (Memory.erase m k) :=
  ⟨h.1.filter _, fun c hc => h.2 c (List.mem_of_mem_filter hc)⟩

theorem Memory.place_wf {size : Nat} {m : Memory} (h : Memory.wf size m) {k : Nat} (hk : k < size)
    (hno : ∀ c ∈ m, c.1 ≠ k) {v : Byte} (hv : v ≠ Config.blankByte) :
    Memory.wf size (Memory.place m k v) := by
  refine ⟨?_, fun c hc => ?_⟩
  · have hs := h.1
    clear h
    induction m with
    | nil => simp [Memory.place]
    | cons d rest ih =>
      obtain ⟨i, w⟩ := d
      have hik : i ≠ k := hno (i, w) (by simp)
      have hd := List.pairwise_cons.mp hs
      unfold Memory.place
      split
      · next hlt =>
        refine List.pairwise_cons.mpr ⟨fun c hc => ?_, hs⟩
        rcases List.mem_cons.mp hc with hc | hc
        · simpa [hc] using hlt
        · exact lt_trans hlt (hd.1 c hc)
      · next hlt =>
        refine List.pairwise_cons.mpr ⟨fun c hc => ?_, ih (fun c hc => hno c (List.mem_cons_of_mem _ hc)) hd.2⟩
        rcases Memory.mem_place hc with hc | hc
        · simp only [hc]
          omega
        · exact hd.1 c hc
  · rcases Memory.mem_place hc with hc | hc
    · simpa [hc] using ⟨hk, hv⟩
    · exact h.2 c hc

/-- A write keeps the canonical form. -/
theorem Memory.write_wf {size : Nat} {m : Memory} (h : Memory.wf size m) {k : Nat} (hk : k < size) (v : Byte) :
    Memory.wf size (Memory.write m k v) := by
  unfold Memory.write
  split
  · exact Memory.erase_wf h k
  · next hv => exact Memory.place_wf (Memory.erase_wf h k) hk (Memory.erase_no_key m k) hv

/-- A byte below the first listed address reads as blank. -/
theorem Memory.read_below {m : Memory} {k : Nat} (hk : ∀ c ∈ m, k < c.1) :
    Memory.read m k = Config.blankByte :=
  Memory.read_of_not_mem fun c hc => (hk c hc).ne'

theorem Memory.wf_tail {size : Nat} {c : Host.Cell} {m : Memory} (h : Memory.wf size (c :: m)) : Memory.wf size m :=
  ⟨(List.pairwise_cons.mp h.1).2, fun d hd => h.2 d (List.mem_cons_of_mem _ hd)⟩

/-- Canonical memories that read alike are equal. -/
theorem Memory.eq_of_read_eq {size : Nat} {m n : Memory} (hm : Memory.wf size m) (hn : Memory.wf size n)
    (h : ∀ k, Memory.read m k = Memory.read n k) : m = n := by
  induction m generalizing n with
  | nil =>
    cases n with
    | nil => rfl
    | cons d n =>
      obtain ⟨j, w⟩ := d
      have := h j
      rw [Memory.read_cons, if_pos rfl] at this
      exact absurd this.symm (hn.2 (j, w) (by simp)).2
  | cons c m ih =>
    obtain ⟨i, v⟩ := c
    have hv := (hm.2 (i, v) (by simp)).2
    have hmi := (List.pairwise_cons.mp hm.1).1
    cases n with
    | nil =>
      have := h i
      rw [Memory.read_cons, if_pos rfl] at this
      exact absurd this hv
    | cons d n =>
      obtain ⟨j, w⟩ := d
      have hw := (hn.2 (j, w) (by simp)).2
      have hnj := (List.pairwise_cons.mp hn.1).1
      have hij : i = j := by
        rcases lt_trichotomy i j with hlt | heq | hgt
        · have hi := h i
          rw [Memory.read_cons, if_pos rfl, Memory.read_below] at hi
          · exact absurd hi hv
          · intro c hc
            rcases List.mem_cons.mp hc with hc | hc
            · simpa [hc] using hlt
            · exact hlt.trans (hnj c hc)
        · exact heq
        · have hj := h j
          rw [Memory.read_cons (k := j) (j := j), if_pos rfl, Memory.read_below] at hj
          · exact absurd hj.symm hw
          · intro c hc
            rcases List.mem_cons.mp hc with hc | hc
            · simpa [hc] using hgt
            · exact hgt.trans (hmi c hc)
      subst hij
      have hvw : v = w := by simpa [Memory.read_cons] using h i
      subst hvw
      refine congrArg _ (ih (Memory.wf_tail hm) (Memory.wf_tail hn) fun k => ?_)
      by_cases hk : i = k
      · subst hk
        rw [Memory.read_below hmi, Memory.read_below hnj]
      · simpa [Memory.read_cons, hk] using h k

/-- Writing what is read changes nothing. -/
theorem Memory.write_read_self {size : Nat} {m : Memory} (h : Memory.wf size m) {k : Nat} (hk : k < size) :
    Memory.write m k (Memory.read m k) = m :=
  Memory.eq_of_read_eq (Memory.write_wf h hk _) h fun j => by
    by_cases hj : j = k <;> simp [hj]

end Sys2Proof.Machine
end

