-- ==== Sys2Proof/Laws/Result.lean ====
section
/-! SUPPORT. What running one operation after another can answer: the lemmas a proof peels a meaning apart with. -/

namespace Sys2Proof.Machine

variable {α β γ : Type}

@[simp] theorem Result.bind_next (a : α) (f : α → Result β) :
    Result.bind (.next a) f = f a := rfl

@[simp] theorem Result.bind_fault (e : Fault) (f : α → Result β) :
    Result.bind (.fault e) f = .fault e := rfl

@[simp] theorem Result.bind_refused (e : Refusal) (f : α → Result β) :
    Result.bind (.refused e) f = .refused e := rfl

@[simp] theorem Result.raise_eq (e : Fault) : (Result.raise e : Result α) = .fault e := rfl

@[simp] theorem Result.map_next (a : α) (f : α → β) :
    Result.map (.next a) f = .next (f a) := rfl

@[simp] theorem Result.map_fault (e : Fault) (f : α → β) :
    Result.map (.fault e) f = .fault e := rfl

@[simp] theorem Result.map_refused (e : Refusal) (f : α → β) :
    Result.map (.refused e) f = .refused e := rfl

/-- Two operations in a row answer a value exactly when both do. -/
theorem Result.bind_eq_next {r : Result α} {f : α → Result β} {b : β} :
    r.bind f = .next b ↔ ∃ a, r = .next a ∧ f a = .next b := by
  cases r <;> simp [Result.bind]

/-- Two operations in a row fault exactly when the first does, or the first completes and the second does. -/
theorem Result.bind_eq_fault {r : Result α} {f : α → Result β} {e : Fault} :
    r.bind f = .fault e ↔ r = .fault e ∨ ∃ a, r = .next a ∧ f a = .fault e := by
  cases r <;> simp [Result.bind]

/-- The same for a refusal. -/
theorem Result.bind_eq_refused {r : Result α} {f : α → Result β} {e : Refusal} :
    r.bind f = .refused e ↔ r = .refused e ∨ ∃ a, r = .next a ∧ f a = .refused e := by
  cases r <;> simp [Result.bind]

theorem Result.bind_assoc (r : Result α) (f : α → Result β) (g : β → Result γ) :
    (r.bind f).bind g = r.bind fun a => (f a).bind g := by
  cases r <;> rfl

theorem Result.map_eq_next {r : Result α} {f : α → β} {b : β} :
    r.map f = .next b ↔ ∃ a, r = .next a ∧ f a = b := by
  cases r <;> simp [Result.map, Result.bind]

/-- Mapping after binding is binding to the mapped function. -/
theorem Result.map_bind (r : Result α) (f : α → Result β) (g : β → γ) :
    (r.bind f).map g = r.bind fun a => (f a).map g := by
  cases r <;> rfl

theorem Result.bind_congr {r : Result α} {f g : α → Result β} (h : ∀ a, r = .next a → f a = g a) :
    r.bind f = r.bind g := by
  cases r with
  | next a => exact h a rfl
  | fault _ => rfl
  | refused _ => rfl

end Sys2Proof.Machine
end

