-- ==== Sys2Proof/Laws/State.lean ====
section
/-! SUPPORT. One lemma per field and register update, so that no proof unfolds a record update. -/

namespace Sys2Proof.Machine

variable (s : State)

@[simp] theorem State.setA_a (v : Byte) : (s.setA v).a = v := rfl
@[simp] theorem State.setA_x (v : Byte) : (s.setA v).x = s.x := rfl
@[simp] theorem State.setA_y (v : Byte) : (s.setA v).y = s.y := rfl
@[simp] theorem State.setA_sp (v : Byte) : (s.setA v).sp = s.sp := rfl
@[simp] theorem State.setA_p (v : Byte) : (s.setA v).p = s.p := rfl
@[simp] theorem State.setA_pc (v : Byte) : (s.setA v).pc = s.pc := rfl
@[simp] theorem State.setA_cyc (v : Byte) : (s.setA v).cyc = s.cyc := rfl
@[simp] theorem State.setA_bus (v : Byte) : (s.setA v).bus = s.bus := rfl

@[simp] theorem State.setX_a (v : Byte) : (s.setX v).a = s.a := rfl
@[simp] theorem State.setX_x (v : Byte) : (s.setX v).x = v := rfl
@[simp] theorem State.setX_y (v : Byte) : (s.setX v).y = s.y := rfl
@[simp] theorem State.setX_sp (v : Byte) : (s.setX v).sp = s.sp := rfl
@[simp] theorem State.setX_p (v : Byte) : (s.setX v).p = s.p := rfl
@[simp] theorem State.setX_pc (v : Byte) : (s.setX v).pc = s.pc := rfl
@[simp] theorem State.setX_cyc (v : Byte) : (s.setX v).cyc = s.cyc := rfl
@[simp] theorem State.setX_bus (v : Byte) : (s.setX v).bus = s.bus := rfl

@[simp] theorem State.setY_a (v : Byte) : (s.setY v).a = s.a := rfl
@[simp] theorem State.setY_x (v : Byte) : (s.setY v).x = s.x := rfl
@[simp] theorem State.setY_y (v : Byte) : (s.setY v).y = v := rfl
@[simp] theorem State.setY_sp (v : Byte) : (s.setY v).sp = s.sp := rfl
@[simp] theorem State.setY_p (v : Byte) : (s.setY v).p = s.p := rfl
@[simp] theorem State.setY_pc (v : Byte) : (s.setY v).pc = s.pc := rfl
@[simp] theorem State.setY_cyc (v : Byte) : (s.setY v).cyc = s.cyc := rfl
@[simp] theorem State.setY_bus (v : Byte) : (s.setY v).bus = s.bus := rfl

@[simp] theorem State.setSp_a (v : Byte) : (s.setSp v).a = s.a := rfl
@[simp] theorem State.setSp_x (v : Byte) : (s.setSp v).x = s.x := rfl
@[simp] theorem State.setSp_y (v : Byte) : (s.setSp v).y = s.y := rfl
@[simp] theorem State.setSp_sp (v : Byte) : (s.setSp v).sp = v := rfl
@[simp] theorem State.setSp_p (v : Byte) : (s.setSp v).p = s.p := rfl
@[simp] theorem State.setSp_pc (v : Byte) : (s.setSp v).pc = s.pc := rfl
@[simp] theorem State.setSp_cyc (v : Byte) : (s.setSp v).cyc = s.cyc := rfl
@[simp] theorem State.setSp_bus (v : Byte) : (s.setSp v).bus = s.bus := rfl

@[simp] theorem State.setP_a (v : Byte) : (s.setP v).a = s.a := rfl
@[simp] theorem State.setP_x (v : Byte) : (s.setP v).x = s.x := rfl
@[simp] theorem State.setP_y (v : Byte) : (s.setP v).y = s.y := rfl
@[simp] theorem State.setP_sp (v : Byte) : (s.setP v).sp = s.sp := rfl
@[simp] theorem State.setP_p (v : Byte) : (s.setP v).p = v := rfl
@[simp] theorem State.setP_pc (v : Byte) : (s.setP v).pc = s.pc := rfl
@[simp] theorem State.setP_cyc (v : Byte) : (s.setP v).cyc = s.cyc := rfl
@[simp] theorem State.setP_bus (v : Byte) : (s.setP v).bus = s.bus := rfl

@[simp] theorem State.setPc_a (v : Word) : (s.setPc v).a = s.a := rfl
@[simp] theorem State.setPc_x (v : Word) : (s.setPc v).x = s.x := rfl
@[simp] theorem State.setPc_y (v : Word) : (s.setPc v).y = s.y := rfl
@[simp] theorem State.setPc_sp (v : Word) : (s.setPc v).sp = s.sp := rfl
@[simp] theorem State.setPc_p (v : Word) : (s.setPc v).p = s.p := rfl
@[simp] theorem State.setPc_pc (v : Word) : (s.setPc v).pc = v := rfl
@[simp] theorem State.setPc_cyc (v : Word) : (s.setPc v).cyc = s.cyc := rfl
@[simp] theorem State.setPc_bus (v : Word) : (s.setPc v).bus = s.bus := rfl

@[simp] theorem State.setCyc_a (v : BitVec 64) : (s.setCyc v).a = s.a := rfl
@[simp] theorem State.setCyc_x (v : BitVec 64) : (s.setCyc v).x = s.x := rfl
@[simp] theorem State.setCyc_y (v : BitVec 64) : (s.setCyc v).y = s.y := rfl
@[simp] theorem State.setCyc_sp (v : BitVec 64) : (s.setCyc v).sp = s.sp := rfl
@[simp] theorem State.setCyc_p (v : BitVec 64) : (s.setCyc v).p = s.p := rfl
@[simp] theorem State.setCyc_pc (v : BitVec 64) : (s.setCyc v).pc = s.pc := rfl
@[simp] theorem State.setCyc_cyc (v : BitVec 64) : (s.setCyc v).cyc = v := rfl
@[simp] theorem State.setCyc_bus (v : BitVec 64) : (s.setCyc v).bus = s.bus := rfl

@[simp] theorem State.setBus_a (v : Bus) : (s.setBus v).a = s.a := rfl
@[simp] theorem State.setBus_x (v : Bus) : (s.setBus v).x = s.x := rfl
@[simp] theorem State.setBus_y (v : Bus) : (s.setBus v).y = s.y := rfl
@[simp] theorem State.setBus_sp (v : Bus) : (s.setBus v).sp = s.sp := rfl
@[simp] theorem State.setBus_p (v : Bus) : (s.setBus v).p = s.p := rfl
@[simp] theorem State.setBus_pc (v : Bus) : (s.setBus v).pc = s.pc := rfl
@[simp] theorem State.setBus_cyc (v : Bus) : (s.setBus v).cyc = s.cyc := rfl
@[simp] theorem State.setBus_bus (v : Bus) : (s.setBus v).bus = v := rfl

@[simp] theorem State.charge_a (cost : Nat) : (s.charge cost).a = s.a := rfl
@[simp] theorem State.charge_x (cost : Nat) : (s.charge cost).x = s.x := rfl
@[simp] theorem State.charge_y (cost : Nat) : (s.charge cost).y = s.y := rfl
@[simp] theorem State.charge_sp (cost : Nat) : (s.charge cost).sp = s.sp := rfl
@[simp] theorem State.charge_p (cost : Nat) : (s.charge cost).p = s.p := rfl
@[simp] theorem State.charge_pc (cost : Nat) : (s.charge cost).pc = s.pc := rfl
@[simp] theorem State.charge_cyc (cost : Nat) : (s.charge cost).cyc = s.cyc + BitVec.ofNat 64 cost := rfl
@[simp] theorem State.charge_bus (cost : Nat) : (s.charge cost).bus = s.bus := rfl

@[simp] theorem State.retire_a (len cost : Nat) : (s.retire len cost).a = s.a := rfl
@[simp] theorem State.retire_x (len cost : Nat) : (s.retire len cost).x = s.x := rfl
@[simp] theorem State.retire_y (len cost : Nat) : (s.retire len cost).y = s.y := rfl
@[simp] theorem State.retire_sp (len cost : Nat) : (s.retire len cost).sp = s.sp := rfl
@[simp] theorem State.retire_p (len cost : Nat) : (s.retire len cost).p = s.p := rfl
@[simp] theorem State.retire_pc (len cost : Nat) : (s.retire len cost).pc = s.pc + BitVec.ofNat 16 len := rfl
@[simp] theorem State.retire_cyc (len cost : Nat) : (s.retire len cost).cyc = s.cyc + BitVec.ofNat 64 cost := rfl
@[simp] theorem State.retire_bus (len cost : Nat) : (s.retire len cost).bus = s.bus := rfl

end Sys2Proof.Machine
end

