-- ==== Sys2Proof/Laws/Bus.lean ====
section
/-! SUPPORT. The bus: when a read or a write answers, what a write changes, and that the bus invariant is kept. -/

namespace Sys2Proof.Machine

theorem ramIndex_lt (addr : Nat) : ramIndex addr < Config.ramSize :=
  Nat.mod_lt _ (by decide)

/-- R61: a RAM read answers. -/
theorem Bus.read_ram (b : Bus) {addr : Nat} (h : addr < 0x2000) :
    b.read addr = .next (b.ram.read (ramIndex addr)) := by
  simp [Bus.read, h]

/-- R67: a read from `$6000` up is the mapper's. -/
theorem Bus.read_mapper (b : Bus) {addr : Nat} (h : 0x6000 ≤ addr) (h' : addr < 0x10000) :
    b.read addr = b.mapper.read b addr := by
  unfold Bus.read
  iterate 7 rw [if_neg (by omega)]
  rw [if_pos h']

/-- A ROM read depends on the cartridge and the bank indices only. -/
theorem Bus.read_rom_congr {b b' : Bus} {addr : Nat} (h : 0x2000 ≤ addr) (hm : b'.mapper = b.mapper)
    (hl : b'.lowerBank = b.lowerBank) (hu : b'.upperBank = b.upperBank) (hc : b'.cart = b.cart) :
    b'.read addr = b.read addr := by
  have hmap : b'.mapper.read b' addr = b.mapper.read b addr := by
    rw [hm]
    cases b.mapper
    simp [Mapper.read, hl, hu, hc]
  have h2 : ¬ addr < 0x2000 := by omega
  simp only [Bus.read, hmap, if_neg h2]

/-- R75: a read that answers lies in RAM or in a ROM window. -/
theorem Bus.readByte_next {b : Bus} {addr : Word} {v : Byte} (h : b.readByte addr = .next v) :
    readable addr := by
  unfold Bus.readByte Bus.read at h
  have := addr.isLt
  by_cases h1 : addr.toNat < 0x2000
  · exact .inl h1
  · right
    by_contra h2
    rw [if_neg h1] at h
    repeat' split at h
    all_goals first
      | cases h
      | omega
      | skip
    cases hm : b.mapper
    rw [hm, Mapper.read, if_pos (by omega)] at h
    cases h

/-- R68 to R71: what a write that answers did. -/
theorem Bus.writeByte_next {b b' : Bus} {addr : Word} {v : Byte} (h : b.writeByte addr v = .next b') :
    (inRam addr ∧ b' = { b with ram := b.ram.write (ramIndex addr.toNat) v }) ∨ (dropped addr ∧ b' = b) := by
  unfold Bus.writeByte at h
  split at h
  · next h1 => exact .inl ⟨h1, by cases h; rfl⟩
  split at h
  · cases h
  split at h
  · next h1 h2 h3 => exact .inr ⟨by unfold dropped; omega, by cases h; rfl⟩
  split at h
  · cases h
  · next h1 h2 h3 h4 =>
    refine .inr ⟨by unfold dropped; omega, ?_⟩
    cases hm : b.mapper
    rw [hm, Mapper.write] at h
    cases h
    rfl

/-- R68: a write to RAM answers. -/
theorem Bus.writeByte_ram (b : Bus) {addr : Word} (h : inRam addr) (v : Byte) :
    b.writeByte addr v = .next { b with ram := b.ram.write (ramIndex addr.toNat) v } := by
  simp [Bus.writeByte, h]

/-- R69, R86: a dropped write answers the same bus. -/
theorem Bus.writeByte_dropped (b : Bus) {addr : Word} (h : dropped addr) (v : Byte) :
    b.writeByte addr v = .next b := by
  unfold dropped at h
  unfold Bus.writeByte
  rw [if_neg (by omega), if_neg (by omega)]
  split
  · rfl
  · rw [if_neg (by omega)]
    cases hm : b.mapper
    rfl

/-- R168: an address whose read answers takes a write. -/
theorem Bus.writeByte_of_readable (b : Bus) {addr : Word} (h : readable addr) (v : Byte) :
    ∃ b', b.writeByte addr v = .next b' := by
  rcases h with h | h
  · exact ⟨_, b.writeByte_ram h v⟩
  · exact ⟨_, b.writeByte_dropped (.inr h) v⟩

/-- A write changes nothing but RAM. -/
theorem Bus.writeByte_kept {b b' : Bus} {addr : Word} {v : Byte} (h : b.writeByte addr v = .next b') :
    b'.cart = b.cart ∧ b'.mapper = b.mapper ∧ b'.lowerBank = b.lowerBank ∧ b'.upperBank = b.upperBank := by
  rcases Bus.writeByte_next h with ⟨_, rfl⟩ | ⟨_, rfl⟩ <;> simp

/-- R74: after a write to RAM every mirror of the byte reads as written. -/
theorem Bus.readByte_write_same {b b' : Bus} {addr a : Word} {v : Byte} (h : b.writeByte addr v = .next b')
    (hs : sameRamByte addr a) : b'.readByte a = .next v := by
  rcases Bus.writeByte_next h with ⟨_, rfl⟩ | ⟨hd, _⟩
  · rw [Bus.readByte, Bus.read_ram _ hs.2.1]
    simp [hs.2.2]
  · have := hs.1
    unfold dropped at hd
    unfold inRam at this
    omega

/-- A write leaves every other byte as it was. -/
theorem Bus.readByte_write_other {b b' : Bus} {addr a : Word} {v : Byte} (h : b.writeByte addr v = .next b')
    (hs : ¬ sameRamByte addr a) : b'.readByte a = b.readByte a := by
  rcases Bus.writeByte_next h with ⟨hr, rfl⟩ | ⟨_, rfl⟩
  · unfold Bus.readByte
    by_cases ha : inRam a
    · rw [Bus.read_ram _ ha, Bus.read_ram _ ha]
      have : ramIndex a.toNat ≠ ramIndex addr.toNat := fun e => hs ⟨hr, ha, e.symm⟩
      simp [this]
    · have ha' : ¬ a.toNat < 0x2000 := ha
      exact Bus.read_rom_congr (by omega) rfl rfl rfl rfl
  · rfl

/-- A write takes no address's answer away. -/
theorem Bus.read_write_next {b b' : Bus} {addr : Word} {v x : Byte} {k : Nat} (h : b.writeByte addr v = .next b')
    (hk : b.read k = .next x) : ∃ y, b'.read k = .next y := by
  obtain ⟨hc, hm, hl, hu⟩ := Bus.writeByte_kept h
  rcases Nat.lt_or_ge k 0x2000 with hlt | hge
  · exact ⟨_, Bus.read_ram _ hlt⟩
  · exact ⟨x, by rw [Bus.read_rom_congr hge hm hl hu hc, hk]⟩

theorem Bus.readWord_write_next {b b' : Bus} {addr a : Word} {v : Byte} {x : Word} (h : b.writeByte addr v = .next b')
    (ha : b.readWord a = .next x) : ∃ y, b'.readWord a = .next y := by
  obtain ⟨l, hl, ha⟩ := Result.bind_eq_next.mp ha
  obtain ⟨g, hg, _⟩ := Result.bind_eq_next.mp ha
  obtain ⟨l', hl'⟩ := Bus.read_write_next h hl
  obtain ⟨g', hg'⟩ := Bus.read_write_next h hg
  exact ⟨word g' l', by simp [Bus.readWord, hl', hg']⟩

/-- R153, R154: pointer bytes in the zero page always answer. -/
theorem zeroPageWord_next (b : Bus) (ptr : Byte) : ∃ w, zeroPageWord b ptr = .next w := by
  have hz : ∀ q : Byte, (zext16 q).toNat < 0x2000 := fun q => by
    have := q.isLt
    simp only [zext16, BitVec.toNat_setWidth]
    omega
  exact ⟨word (b.ram.read (ramIndex (zext16 (ptr + 1#8)).toNat)) (b.ram.read (ramIndex (zext16 ptr).toNat)),
    by simp only [zeroPageWord, Bus.readByte, Bus.read_ram _ (hz _), Result.bind_next]⟩

/-- A write keeps the invariant of the bus; so RAM stays in canonical form. -/
theorem Bus.writeByte_inv {b b' : Bus} {addr : Word} {v : Byte} (hi : b.Inv) (h : b.writeByte addr v = .next b') :
    b'.Inv := by
  rcases Bus.writeByte_next h with ⟨_, rfl⟩ | ⟨_, rfl⟩
  · exact ⟨Memory.write_wf hi.ram (ramIndex_lt _) _, hi.cart, hi.mapper, hi.lower, hi.upper⟩
  · exact hi

/-- The RAM of a bus whose write answers keeps its canonical form. -/
theorem Bus.writeByte_ram_wf {b b' : Bus} {addr : Word} {v : Byte} (hw : Memory.wf Config.ramSize b.ram)
    (h : b.writeByte addr v = .next b') : Memory.wf Config.ramSize b'.ram := by
  rcases Bus.writeByte_next h with ⟨_, rfl⟩ | ⟨_, rfl⟩
  · exact Memory.write_wf hw (ramIndex_lt _) _
  · exact hw

/-- Replacing a byte of the cartridge keeps the canonical form of its banks. -/
theorem Cartridge.withPrgByte_wf {cart : Cartridge} (h : ∀ m ∈ cart.prgRomBanks, Memory.wf Config.prgBankSize m)
    (bank : Nat) {offset : Nat} (ho : offset < Config.prgBankSize) (v : Byte) :
    ∀ m ∈ (cart.withPrgByte bank offset v).prgRomBanks, Memory.wf Config.prgBankSize m := by
  intro m hm
  obtain ⟨k, hk, rfl⟩ := List.mem_iff_getElem.mp hm
  simp only [Cartridge.withPrgByte, List.length_modify] at hk
  simp only [Cartridge.withPrgByte, List.getElem_modify]
  split
  · exact Memory.write_wf (h _ (List.getElem_mem _)) ho v
  · exact h _ (List.getElem_mem _)

/-- Packing a block of bytes gives the canonical form. -/
theorem packFrom_wf (bytes : List Byte) (k : Nat) : Memory.wf (k + bytes.length) (packFrom k bytes) ∧
    ∀ c ∈ packFrom k bytes, k ≤ c.1 := by
  induction bytes generalizing k with
  | nil => exact ⟨Memory.wf_nil _, by simp [packFrom]⟩
  | cons v rest ih =>
    obtain ⟨hw, hge⟩ := ih (k + 1)
    have hlen : k + (v :: rest).length = k + 1 + rest.length := by simp; omega
    rw [hlen]
    unfold packFrom
    split
    · exact ⟨hw, fun c hc => by have := hge c hc; omega⟩
    · next hv =>
      refine ⟨⟨List.pairwise_cons.mpr ⟨fun c hc => by have := hge c hc; simp; omega, hw.1⟩, fun c hc => ?_⟩,
        fun c hc => ?_⟩
      · rcases List.mem_cons.mp hc with rfl | hc
        · exact ⟨by simp; omega, hv⟩
        · exact hw.2 c hc
      · rcases List.mem_cons.mp hc with rfl | hc
        · simp
        · have := hge c hc; omega

/-- A packed bank reads as the bytes it was made of. -/
theorem packFrom_read (bytes : List Byte) (k j : Nat) (h : j < bytes.length) :
    Memory.read (packFrom k bytes) (k + j) = bytes[j] := by
  induction bytes generalizing k j with
  | nil => cases h
  | cons v rest ih =>
    have hge := (packFrom_wf rest (k + 1)).2
    unfold packFrom
    cases j with
    | zero =>
      split
      · next hv =>
        rw [Memory.read_of_not_mem fun c hc => by have := hge c hc; omega]
        simp [hv]
      · simp [Memory.read_cons]
    | succ j =>
      have := ih (k + 1) j (by simpa using h)
      rw [show k + 1 + j = k + (j + 1) by omega] at this
      split
      · simpa using this
      · rw [Memory.read_cons, if_neg (by omega)]
        simpa using this

end Sys2Proof.Machine
end

