-- ==== Sys2Proof/Laws/Decode.lean ====
section
/-! SUPPORT. The decoder: its table is full, so its default is never taken. -/

namespace Sys2Proof.Laws

/-- R114: every row of the opcode matrix has sixteen cells. -/
theorem opcodeRow_length : ∀ n < 16, (opcodeRow n).length = 16 := by decide

/-- Decoding a list looks at its first byte alone (R117). -/
@[simp] theorem decode_cons (op : Byte) (rest : List Byte) : decode (op :: rest) = .ok (decodeByte op) := rfl

end Sys2Proof.Laws
end

