-- ==== Sys2Proof/Laws/Flags.lean ====
section
/-! SUPPORT. The status register: what a flag reads as after a flag is written, and the flags every computation leaves. -/

namespace Sys2Proof.Machine

/-- A flag reads as written; the others stay. -/
@[simp] theorem flag_setFlag (f g : Flag) (v : Bool) (p : Byte) :
    flag f (setFlag g v p) = if f = g then v else flag f p := by
  cases f <;> cases g <;> cases v <;> simp [flag, setFlag, Flag.bit, Flag.mask]

/-- Two status bytes with the same flags are equal. -/
theorem status_ext {p q : Byte} (h : ∀ f, flag f p = flag f q) : p = q := by
  apply BitVec.eq_of_getLsbD_eq
  intro i hi
  have := h .c; have := h .z; have := h .i; have := h .d
  have := h .b; have := h .u; have := h .v; have := h .n
  simp only [flag, Flag.bit] at *
  interval_cases i <;> assumption

theorem flag_setZN (f : Flag) (v p : Byte) :
    flag f (setZN v p) = if f = .n then v.getLsbD 7 else if f = .z then v == 0#8 else flag f p := by
  simp [setZN]

/-- R252, R263: what PLP and RTI leave in each flag. -/
theorem flag_pulledStatus (f : Flag) (v : Byte) :
    flag f (pulledStatus v) = if f = .b then false else if f = .u then true else flag f v := by
  cases f <;> simp [flag, pulledStatus, Flag.bit]

/-- R261: the flags of the pushed copy. -/
theorem flag_pushedStatus (f : Flag) (p : Byte) :
    flag f (pushedStatus p) = if f = .b ∨ f = .u then true else flag f p := by
  cases f <;> simp [flag, pushedStatus, Flag.bit]

theorem flag_compareStatus (f : Flag) (reg m p : Byte) :
    flag f (compareStatus reg m p) =
      if f = .n then (reg - m).getLsbD 7 else if f = .z then reg == m
      else if f = .c then decide (reg.toNat ≥ m.toNat) else flag f p := by
  simp [compareStatus]

theorem flag_bitTest (f : Flag) (a m p : Byte) :
    flag f (bitTest a m p) =
      if f = .v then m.getLsbD 6 else if f = .n then m.getLsbD 7
      else if f = .z then (a &&& m) == 0#8 else flag f p := by
  simp [bitTest]

/-- ADC and SBC read the carry of the status and keep what they do not write: Z and N set beforehand are not seen. -/
theorem adc_setZN (a m v p : Byte) : adc a m (setZN v p) = adc a m p := by
  have hc : carry (setZN v p) = carry p := by simp [carry, flag_setZN]
  simp only [adc, adcSum, hc, Prod.mk.injEq, true_and]
  apply status_ext
  intro f
  simp only [flag_setZN, flag_setFlag]
  cases f <;> simp

theorem sbc_setZN (a m v p : Byte) : sbc a m (setZN v p) = sbc a m p := by
  have hc : carry (setZN v p) = carry p := by simp [carry, flag_setZN]
  simp only [sbc, sbcDiff, hc, Prod.mk.injEq, true_and]
  apply status_ext
  intro f
  simp only [flag_setZN, flag_setFlag]
  cases f <;> simp

end Sys2Proof.Machine
end

