-- ==== Sys2Proof/Laws/PerInstr.lean ====
section
/-! SUPPORT. One lemma per constructor of `Instr`: an instruction has an opcode byte exactly when it is well formed, so
the well-formedness checks and the encoding tables admit the same pairs of mnemonic and mode. -/

namespace Sys2Proof.Laws.OpcodeExists

/-- The instruction is well formed exactly when the encoding tables give it a byte. -/
def Statement (i : Instr) : Prop := i.wf = (opcode i).isSome

theorem unimplemented (op : Byte) : Statement (.unimplemented op) := by
  simp only [Statement, opcode, Instr.wf]
  split <;> simp [*]

theorem ora (m : DataMode) : Statement (.ora m) := by
  rcases m with _ | m
  · rfl
  · cases m <;> rfl

theorem slo (m : MemMode) : Statement (.slo m) := by
  cases m <;> rfl

theorem nop (m : NopMode) (op : Byte) : Statement (.nop m op) := by
  simp only [Statement, opcode, Instr.wf]
  split <;> simp [*]

theorem asl (m : ShiftMode) : Statement (.asl m) := by
  rcases m with _ | m
  · rfl
  · cases m <;> rfl

theorem php : Statement .php := rfl

theorem bpl : Statement .bpl := rfl

theorem clc : Statement .clc := rfl

theorem jsr : Statement .jsr := rfl

theorem and (m : DataMode) : Statement (.and m) := by
  rcases m with _ | m
  · rfl
  · cases m <;> rfl

theorem rla (m : MemMode) : Statement (.rla m) := by
  cases m <;> rfl

theorem bit (m : MemMode) : Statement (.bit m) := by
  cases m <;> rfl

theorem rol (m : ShiftMode) : Statement (.rol m) := by
  rcases m with _ | m
  · rfl
  · cases m <;> rfl

theorem plp : Statement .plp := rfl

theorem bmi : Statement .bmi := rfl

theorem sec : Statement .sec := rfl

theorem rti : Statement .rti := rfl

theorem eor (m : DataMode) : Statement (.eor m) := by
  rcases m with _ | m
  · rfl
  · cases m <;> rfl

theorem sre (m : MemMode) : Statement (.sre m) := by
  cases m <;> rfl

theorem lsr (m : ShiftMode) : Statement (.lsr m) := by
  rcases m with _ | m
  · rfl
  · cases m <;> rfl

theorem pha : Statement .pha := rfl

theorem jmp (m : JmpMode) : Statement (.jmp m) := by
  cases m <;> rfl

theorem bvc : Statement .bvc := rfl

theorem cli : Statement .cli := rfl

theorem rts : Statement .rts := rfl

theorem adc (m : DataMode) : Statement (.adc m) := by
  rcases m with _ | m
  · rfl
  · cases m <;> rfl

theorem rra (m : MemMode) : Statement (.rra m) := by
  cases m <;> rfl

theorem ror (m : ShiftMode) : Statement (.ror m) := by
  rcases m with _ | m
  · rfl
  · cases m <;> rfl

theorem pla : Statement .pla := rfl

theorem bvs : Statement .bvs := rfl

theorem sei : Statement .sei := rfl

theorem sta (m : MemMode) : Statement (.sta m) := by
  cases m <;> rfl

theorem sax (m : MemMode) : Statement (.sax m) := by
  cases m <;> rfl

theorem sty (m : MemMode) : Statement (.sty m) := by
  cases m <;> rfl

theorem stx (m : MemMode) : Statement (.stx m) := by
  cases m <;> rfl

theorem dey : Statement .dey := rfl

theorem txa : Statement .txa := rfl

theorem bcc : Statement .bcc := rfl

theorem tya : Statement .tya := rfl

theorem txs : Statement .txs := rfl

theorem ldy (m : DataMode) : Statement (.ldy m) := by
  rcases m with _ | m
  · rfl
  · cases m <;> rfl

theorem lda (m : DataMode) : Statement (.lda m) := by
  rcases m with _ | m
  · rfl
  · cases m <;> rfl

theorem ldx (m : DataMode) : Statement (.ldx m) := by
  rcases m with _ | m
  · rfl
  · cases m <;> rfl

theorem lax (m : MemMode) : Statement (.lax m) := by
  cases m <;> rfl

theorem tay : Statement .tay := rfl

theorem tax : Statement .tax := rfl

theorem bcs : Statement .bcs := rfl

theorem clv : Statement .clv := rfl

theorem tsx : Statement .tsx := rfl

theorem cpy (m : DataMode) : Statement (.cpy m) := by
  rcases m with _ | m
  · rfl
  · cases m <;> rfl

theorem cmp (m : DataMode) : Statement (.cmp m) := by
  rcases m with _ | m
  · rfl
  · cases m <;> rfl

theorem dcp (m : MemMode) : Statement (.dcp m) := by
  cases m <;> rfl

theorem dec (m : MemMode) : Statement (.dec m) := by
  cases m <;> rfl

theorem iny : Statement .iny := rfl

theorem dex : Statement .dex := rfl

theorem bne : Statement .bne := rfl

theorem cld : Statement .cld := rfl

theorem cpx (m : DataMode) : Statement (.cpx m) := by
  rcases m with _ | m
  · rfl
  · cases m <;> rfl

theorem sbc (m : DataMode) (undocumented : Bool) : Statement (.sbc m undocumented) := by
  rcases m with _ | m <;> cases undocumented
  · rfl
  · rfl
  · cases m <;> rfl
  · cases m <;> rfl

theorem isc (m : MemMode) : Statement (.isc m) := by
  cases m <;> rfl

theorem inc (m : MemMode) : Statement (.inc m) := by
  cases m <;> rfl

theorem inx : Statement .inx := rfl

theorem beq : Statement .beq := rfl

theorem sed : Statement .sed := rfl

end Sys2Proof.Laws.OpcodeExists
end

