-- ==== Sys2Proof/Laws/Stack.lean ====
section
/-! SUPPORT. The stack operations always answer, and this is what they answer (40_execution_and_addressing.md R161 to R164,
R169). -/

namespace Sys2Proof.Machine

theorem stackAddr_toNat (sp : Byte) : (stackAddr sp).toNat = 0x100 + sp.toNat := by
  have := sp.isLt
  simp only [stackAddr, zext16, Config.stackBase, BitVec.toNat_add, BitVec.toNat_setWidth, BitVec.toNat_ofNat]
  omega

theorem stackAddr_inRam (sp : Byte) : inRam (stackAddr sp) := by
  have := sp.isLt
  have := stackAddr_toNat sp
  unfold inRam
  omega

/-- The physical index of a stack byte. -/
theorem stackAddr_ramIndex (sp : Byte) : ramIndex (stackAddr sp).toNat = 0x100 + sp.toNat := by
  have := sp.isLt
  rw [stackAddr_toNat, ramIndex]
  exact Nat.mod_eq_of_lt (by unfold Config.ramSize; omega)

/-- Two stack slots are the same byte only if they are the same slot. -/
theorem stackAddr_same_iff (p q : Byte) : sameRamByte (stackAddr p) (stackAddr q) ↔ p = q := by
  constructor
  · intro h
    have := h.2.2
    rw [stackAddr_ramIndex, stackAddr_ramIndex] at this
    exact BitVec.eq_of_toNat_eq (by omega)
  · rintro rfl
    exact ⟨stackAddr_inRam _, stackAddr_inRam _, rfl⟩

/-- The bus after a push. -/
def pushedBus (v : Byte) (s : State) : Bus :=
  { s.bus with ram := s.bus.ram.write (0x100 + s.sp.toNat) v }

/-- R161, R169: a push never faults. -/
theorem push_eq (v : Byte) (s : State) : push v s = .next ((s.setBus (pushedBus v s)).setSp (s.sp - 1#8)) := by
  simp [push, Bus.writeByte_ram _ (stackAddr_inRam s.sp), stackAddr_ramIndex, pushedBus]

/-- R162, R169: a pop never faults. -/
theorem pop_eq (s : State) : pop s = .next (s.bus.ram.read (0x100 + (s.sp + 1#8).toNat), s.setSp (s.sp + 1#8)) := by
  have := Bus.read_ram s.bus (stackAddr_inRam (s.sp + 1#8))
  rw [stackAddr_ramIndex] at this
  simp only [pop, Bus.readByte, State.setSp_bus, State.setSp_sp, this, Result.bind_next]

/-- A push writes one byte of RAM through the bus. -/
theorem pushedBus_write (v : Byte) (s : State) : s.bus.writeByte (stackAddr s.sp) v = .next (pushedBus v s) := by
  rw [Bus.writeByte_ram _ (stackAddr_inRam _), stackAddr_ramIndex, pushedBus]

/-- R163: a push of a word never faults. -/
theorem pushWord_eq (w : Word) (s : State) :
    ∃ b, pushWord w s = .next ((s.setBus b).setSp (s.sp - 2#8)) ∧
      ∃ b1, s.bus.writeByte (stackAddr s.sp) (hi w) = .next b1 ∧
        b1.writeByte (stackAddr (s.sp - 1#8)) (lo w) = .next b := by
  refine ⟨pushedBus (lo w) ((s.setBus (pushedBus (hi w) s)).setSp (s.sp - 1#8)), ?_, _, pushedBus_write _ _, ?_⟩
  · simp only [pushWord, push_eq, Result.bind_next]
    simp only [State.setBus, State.setSp]
    congr 2
    bv_omega
  · exact pushedBus_write (lo w) ((s.setBus (pushedBus (hi w) s)).setSp (s.sp - 1#8))

/-- R164: a pop of a word never faults. -/
theorem popWord_eq (s : State) :
    popWord s = .next
      (word (s.bus.ram.read (0x100 + (s.sp + 2#8).toNat)) (s.bus.ram.read (0x100 + (s.sp + 1#8).toNat)),
        s.setSp (s.sp + 2#8)) := by
  have h : s.sp + 1#8 + 1#8 = s.sp + 2#8 := by bv_omega
  simp only [popWord, pop_eq, Result.bind_next, State.setSp_sp, State.setSp_bus, h]
  rfl

/-- R164: splitting a word into bytes and putting it together. -/
@[simp] theorem word_hi_lo (w : Word) : word (hi w) (lo w) = w := by
  apply BitVec.eq_of_getLsbD_eq
  intro i hi'
  simp only [word, hi, lo, BitVec.getLsbD_append, BitVec.getLsbD_setWidth, BitVec.getLsbD_ushiftRight]
  by_cases h : i < 8
  · simp [h]
  · have : i - 8 < 8 := by omega
    have : 8 + (i - 8) = i := by omega
    simp [*]

@[simp] theorem hi_word (h l : Byte) : hi (word h l) = h := by
  apply BitVec.eq_of_getLsbD_eq
  intro i hi'
  simp only [word, hi, BitVec.getLsbD_setWidth, BitVec.getLsbD_ushiftRight, BitVec.getLsbD_append]
  simp [hi']

@[simp] theorem lo_word (h l : Byte) : lo (word h l) = l := by
  apply BitVec.eq_of_getLsbD_eq
  intro i hi'
  simp only [word, lo, BitVec.getLsbD_setWidth, BitVec.getLsbD_append]
  simp [hi']

/-- R8: `h:l` is `h × 256 + l`. -/
theorem word_toNat (h l : Byte) : (word h l).toNat = h.toNat * 256 + l.toNat := by
  have := l.isLt
  rw [word, BitVec.toNat_append, ← Nat.shiftLeft_add_eq_or_of_lt (by simpa using this), Nat.shiftLeft_eq]

end Sys2Proof.Machine
end

