-- ==== Sys2Proof/Laws/Templates.lean ====
section
/-! SUPPORT. One inversion lemma per instruction template: everything it can do when it answers a next state
(40_execution_and_addressing.md R158, R167, R168; R240; R290). -/

namespace Sys2Proof.Machine

/-- Resolution sees PC, X, Y and the bus, and nothing else. -/
theorem resolve_congr {s s' : State} (m : Mode) (hpc : s'.pc = s.pc) (hx : s'.x = s.x) (hy : s'.y = s.y)
    (hb : s'.bus = s.bus) : resolve m s' = resolve m s := by
  cases m <;> simp [resolve, operandByte, operandWord, hpc, hx, hy, hb]

/-- R290: a memory mode that resolved resolves again after a write, though perhaps elsewhere. -/
theorem resolve_after_write {m : MemMode} {s : State} {res : AddressResolution} {b : Bus} {addr : Word} {v : Byte}
    (hr : resolve m.mode s = .next res) (hb : s.bus.writeByte addr v = .next b) :
    ∃ res2, resolve m.mode { s with bus := b } = .next res2 := by
  have byte : ∀ d, operandByte s = .next d → ∃ d', operandByte { s with bus := b } = .next d' := fun _ hd =>
    Bus.read_write_next hb hd
  have wide : ∀ w, operandWord s = .next w → ∃ w', operandWord { s with bus := b } = .next w' := fun _ hw =>
    Bus.readWord_write_next hb hw
  cases m
  case abs | absX | absY =>
    obtain ⟨w, hw, _⟩ := Result.bind_eq_next.mp hr
    obtain ⟨w', hw'⟩ := wide w hw
    simp [MemMode.mode, resolve, hw', Result.bind_next]
  case zp | zpX | zpY =>
    obtain ⟨d, hd, _⟩ := Result.bind_eq_next.mp hr
    obtain ⟨d', hd'⟩ := byte d hd
    simp [MemMode.mode, resolve, hd', Result.bind_next]
  case indX =>
    obtain ⟨d, hd, _⟩ := Result.bind_eq_next.mp hr
    obtain ⟨d', hd'⟩ := byte d hd
    obtain ⟨w, hw⟩ := zeroPageWord_next b (d' + s.x)
    simp [MemMode.mode, resolve, hd', hw, Result.bind_next]
  case indY =>
    obtain ⟨d, hd, _⟩ := Result.bind_eq_next.mp hr
    obtain ⟨d', hd'⟩ := byte d hd
    obtain ⟨w, hw⟩ := zeroPageWord_next b d'
    simp [MemMode.mode, resolve, hd', hw, Result.bind_next]

/-- R158. -/
theorem readTemplate_next {m : DataMode} {effect : Byte → State → State} {s t : State}
    (h : readTemplate m effect s = .next t) :
    ∃ res v, resolve m.mode s = .next res ∧ s.bus.readByte res.address = .next v ∧
      t = (effect v s).retire (modeLength m.mode) (readCost m res) := by
  obtain ⟨res, hr, h⟩ := Result.bind_eq_next.mp h
  obtain ⟨v, hv, h⟩ := Result.bind_eq_next.mp h
  cases h
  exact ⟨res, v, hr, hv, rfl⟩

/-- R158: the read template completes as soon as its address resolves and its read answers. -/
theorem readTemplate_eq {m : DataMode} {s : State} {res : AddressResolution} {v : Byte}
    (effect : Byte → State → State) (hr : resolve m.mode s = .next res) (hv : s.bus.readByte res.address = .next v) :
    readTemplate m effect s = .next ((effect v s).retire (modeLength m.mode) (readCost m res)) := by
  simp [readTemplate, hr, hv]

/-- R167. -/
theorem storeTemplate_next {m : MemMode} {v : Byte} {s t : State} (h : storeTemplate m v s = .next t) :
    ∃ res b, resolve m.mode s = .next res ∧ s.bus.writeByte res.address v = .next b ∧
      t = (s.setBus b).retire (modeLength m.mode) (storeCycles m) := by
  obtain ⟨res, hr, h⟩ := Result.bind_eq_next.mp h
  obtain ⟨b, hb, h⟩ := Result.bind_eq_next.mp h
  cases h
  exact ⟨res, b, hr, hb, rfl⟩

/-- R168. -/
theorem rmwTemplate_next {m : MemMode} {f : Byte → Byte → Byte × Byte} {s t : State}
    (h : rmwTemplate m f s = .next t) :
    ∃ res v b, resolve m.mode s = .next res ∧ s.bus.readByte res.address = .next v ∧
      s.bus.writeByte res.address (f v s.p).1 = .next b ∧
      t = ((s.setBus b).setP (f v s.p).2).retire (modeLength m.mode) (rmwCycles m) := by
  obtain ⟨res, hr, h⟩ := Result.bind_eq_next.mp h
  obtain ⟨v, hv, h⟩ := Result.bind_eq_next.mp h
  obtain ⟨b, hb, h⟩ := Result.bind_eq_next.mp h
  cases h
  exact ⟨res, v, b, hr, hv, hb, rfl⟩

/-- R168: a read-modify-write instruction stops at its read or not at all. -/
theorem rmwTemplate_eq {m : MemMode} {s : State} {res : AddressResolution} {v : Byte}
    (f : Byte → Byte → Byte × Byte) (hr : resolve m.mode s = .next res)
    (hv : s.bus.readByte res.address = .next v) :
    ∃ b, s.bus.writeByte res.address (f v s.p).1 = .next b ∧
      rmwTemplate m f s =
        .next (((s.setBus b).setP (f v s.p).2).retire (modeLength m.mode) (rmwCycles m)) := by
  obtain ⟨b, hb⟩ := s.bus.writeByte_of_readable (Bus.readByte_next hv) (f v s.p).1
  exact ⟨b, hb, by simp [rmwTemplate, hr, hv, hb]⟩

/-- The accumulator form touches A and P; the memory form is the read-modify-write template. -/
theorem shiftTemplate_next {m : ShiftMode} {f : Byte → Byte → Byte × Byte} {s t : State}
    (h : shiftTemplate m f s = .next t) :
    (m = .acc ∧ t = ((s.setA (f s.a s.p).1).setP (f s.a s.p).2).retire 1 2) ∨
      ∃ m', m = .mem m' ∧ rmwTemplate m' f s = .next t := by
  cases m with
  | acc => exact .inl ⟨rfl, by cases h; rfl⟩
  | mem m => exact .inr ⟨m, rfl, h⟩

/-- The state a composite's second primitive starts from: the first primitive's RAM and flags, PC and CYC put back. -/
def rewound (s : State) (b : Bus) (p : Byte) : State := (s.setBus b).setP p

@[simp] theorem rewound_a (s : State) (b : Bus) (p : Byte) : (rewound s b p).a = s.a := rfl
@[simp] theorem rewound_x (s : State) (b : Bus) (p : Byte) : (rewound s b p).x = s.x := rfl
@[simp] theorem rewound_y (s : State) (b : Bus) (p : Byte) : (rewound s b p).y = s.y := rfl
@[simp] theorem rewound_sp (s : State) (b : Bus) (p : Byte) : (rewound s b p).sp = s.sp := rfl
@[simp] theorem rewound_p (s : State) (b : Bus) (p : Byte) : (rewound s b p).p = p := rfl
@[simp] theorem rewound_pc (s : State) (b : Bus) (p : Byte) : (rewound s b p).pc = s.pc := rfl
@[simp] theorem rewound_cyc (s : State) (b : Bus) (p : Byte) : (rewound s b p).cyc = s.cyc := rfl
@[simp] theorem rewound_bus (s : State) (b : Bus) (p : Byte) : (rewound s b p).bus = b := rfl

/-- R290: a composite that completes resolved and read twice; its two effects are those of its primitives. -/
theorem compositeTemplate_next {m : MemMode} {f : Byte → Byte → Byte × Byte} {effect : Byte → State → State}
    {s t : State} (h : compositeTemplate m f effect s = .next t) :
    ∃ res v b res2 v2, resolve m.mode s = .next res ∧ s.bus.readByte res.address = .next v ∧
      s.bus.writeByte res.address (f v s.p).1 = .next b ∧
      resolve m.mode (rewound s b (f v s.p).2) = .next res2 ∧ b.readByte res2.address = .next v2 ∧
      t = (((effect v2 (rewound s b (f v s.p).2)).setPc s.pc).setCyc s.cyc).retire
        (modeLength m.mode) (rmwCycles m) := by
  obtain ⟨s1, h1, h⟩ := Result.bind_eq_next.mp h
  obtain ⟨s2, h2, h⟩ := Result.bind_eq_next.mp h
  obtain ⟨res, v, b, hr, hv, hb, rfl⟩ := rmwTemplate_next h1
  have hs : ((((s.setBus b).setP (f v s.p).2).retire (modeLength m.mode) (rmwCycles m)).setPc s.pc).setCyc s.cyc =
      rewound s b (f v s.p).2 := rfl
  rw [hs] at h2
  obtain ⟨res2, v2, hr2, hv2, rfl⟩ := readTemplate_next h2
  cases h
  exact ⟨res, v, b, res2, v2, hr, hv, hb, hr2, hv2, rfl⟩

/-- R290: once its first half has read and written, a composite is its second half run on what the first left. -/
theorem compositeTemplate_second {m : MemMode} {s : State} {res : AddressResolution} {v : Byte} {b : Bus}
    (f : Byte → Byte → Byte × Byte) (effect : Byte → State → State) (hr : resolve m.mode s = .next res)
    (hv : s.bus.readByte res.address = .next v) (hb : s.bus.writeByte res.address (f v s.p).1 = .next b) :
    compositeTemplate m f effect s =
      (readTemplate (.mem m) effect (rewound s b (f v s.p).2)).bind fun s2 =>
        .next (((s2.setPc s.pc).setCyc s.cyc).retire (modeLength m.mode) (rmwCycles m)) := by
  simp [compositeTemplate, rmwTemplate, hr, hv, hb, rewound]
  rfl

/-- R290: the same where the second half completes. -/
theorem compositeTemplate_eq {m : MemMode} {s : State} {res res2 : AddressResolution} {v v2 : Byte} {b : Bus}
    (f : Byte → Byte → Byte × Byte) (effect : Byte → State → State) (hr : resolve m.mode s = .next res)
    (hv : s.bus.readByte res.address = .next v) (hb : s.bus.writeByte res.address (f v s.p).1 = .next b)
    (hr2 : resolve m.mode (rewound s b (f v s.p).2) = .next res2) (hv2 : b.readByte res2.address = .next v2) :
    compositeTemplate m f effect s =
      .next ((((effect v2 (rewound s b (f v s.p).2)).setPc s.pc).setCyc s.cyc).retire
        (modeLength m.mode) (rmwCycles m)) := by
  rw [compositeTemplate_second f effect hr hv hb, readTemplate_eq (m := .mem m) effect hr2 hv2]
  rfl

/-- R240. -/
theorem branchTemplate_next {taken : Bool} {s t : State} (h : branchTemplate taken s = .next t) :
    ∃ d, operandByte s = .next d ∧
      t = if taken then (s.setPc (branchTarget s.pc d).address).charge
          (2 + 1 + (if (branchTarget s.pc d).pageCrossed then 1 else 0))
        else s.retire 2 2 := by
  obtain ⟨res, hr, h⟩ := Result.bind_eq_next.mp h
  obtain ⟨d, hd, hr⟩ := Result.bind_eq_next.mp hr
  cases hr
  refine ⟨d, hd, ?_⟩
  split at h <;> cases h <;> simp_all

/-- R240: a branch completes as soon as its offset byte is readable. -/
theorem branchTemplate_eq {s : State} {d : Byte} (taken : Bool) (hd : operandByte s = .next d) :
    branchTemplate taken s = .next (if taken then (s.setPc (branchTarget s.pc d).address).charge
          (2 + 1 + (if (branchTarget s.pc d).pageCrossed then 1 else 0))
        else s.retire 2 2) := by
  cases taken <;> simp [branchTemplate, resolve, hd]

end Sys2Proof.Machine
end

