-- ==== Sys2Proof/Laws/Stops.lean ====
section
/-! SUPPORT. How each operation can stop (60_exceptions.md R310 to R313, R317): reads raise `UnsupportedRead`, writes raise
`UnhandledWrite`, and from a bus that meets its invariant nothing is refused. -/

namespace Sys2Proof.Machine

/-- The fault of a read. -/
def isReadFault (f : Fault) : Prop := ∃ r, f = .unsupportedRead r

theorem Cartridge.prgByte_not_fault {cart : Cartridge} {bank offset : Nat} {f : Fault} :
    cart.prgByte bank offset ≠ .fault f := by
  unfold Cartridge.prgByte
  split <;> simp

theorem Bus.read_fault {b : Bus} {addr : Nat} {f : Fault} (h : b.read addr = .fault f) : isReadFault f := by
  unfold Bus.read at h
  repeat' split at h
  all_goals first
    | exact ⟨_, (Host.Outcome.fault.inj h).symm⟩
    | cases h
    | skip
  cases hm : b.mapper
  rw [hm] at h
  unfold Mapper.read at h
  simp only at h
  split at h
  · cases h; exact ⟨_, rfl⟩
  · split at h <;> exact absurd h Cartridge.prgByte_not_fault

theorem Bus.readByte_fault {b : Bus} {addr : Word} {f : Fault} (h : b.readByte addr = .fault f) : isReadFault f :=
  Bus.read_fault h

theorem Bus.readWord_fault {b : Bus} {addr : Word} {f : Fault} (h : b.readWord addr = .fault f) : isReadFault f := by
  rcases Result.bind_eq_fault.mp h with h | ⟨l, _, h⟩
  · exact Bus.read_fault h
  · rcases Result.bind_eq_fault.mp h with h | ⟨_, _, h⟩
    · exact Bus.read_fault h
    · cases h

theorem zeroPageWord_fault {b : Bus} {ptr : Byte} {f : Fault} (h : zeroPageWord b ptr = .fault f) :
    isReadFault f := by
  rcases Result.bind_eq_fault.mp h with h | ⟨l, _, h⟩
  · exact Bus.readByte_fault h
  · rcases Result.bind_eq_fault.mp h with h | ⟨_, _, h⟩
    · exact Bus.readByte_fault h
    · cases h

/-- R317, items 3 and 4: resolution raises read faults only. -/
theorem resolve_fault {m : Mode} {s : State} {f : Fault} (h : resolve m s = .fault f) : isReadFault f := by
  have hb : ∀ {α : Type} {g : Byte → Result α}, (operandByte s).bind g = .fault f →
      isReadFault f ∨ ∃ d, operandByte s = .next d ∧ g d = .fault f := fun h =>
    (Result.bind_eq_fault.mp h).imp Bus.readByte_fault id
  have hw : ∀ {α : Type} {g : Word → Result α}, (operandWord s).bind g = .fault f →
      isReadFault f ∨ ∃ w, operandWord s = .next w ∧ g w = .fault f := fun h =>
    (Result.bind_eq_fault.mp h).imp Bus.readWord_fault id
  cases m <;> simp only [resolve] at h
  case implied | accumulator | immediate => cases h
  case zeroPage | zeroPageX | zeroPageY | relative =>
    rcases hb h with h | ⟨_, _, h⟩
    · exact h
    · cases h
  case absolute | absoluteX | absoluteY =>
    rcases hw h with h | ⟨_, _, h⟩
    · exact h
    · cases h
  case indexedIndirect | indirectIndexed =>
    rcases hb h with h | ⟨_, _, h⟩
    · exact h
    · rcases Result.bind_eq_fault.mp h with h | ⟨_, _, h⟩
      · exact zeroPageWord_fault h
      · cases h
  case indirect =>
    rcases hw h with h | ⟨_, _, h⟩
    · exact h
    · rcases Result.bind_eq_fault.mp h with h | ⟨_, _, h⟩
      · exact Bus.readWord_fault h
      · cases h
  case indirectWithJmpBug =>
    rcases hw h with h | ⟨_, _, h⟩
    · exact h
    · rcases Result.bind_eq_fault.mp h with h | ⟨_, _, h⟩
      · exact Bus.readByte_fault h
      · rcases Result.bind_eq_fault.mp h with h | ⟨_, _, h⟩
        · exact Bus.readByte_fault h
        · cases h

/-- R71: a write faults with its own address and byte, in the two ranges that refuse writes. -/
theorem Bus.writeByte_fault {b : Bus} {addr : Word} {v : Byte} {f : Fault} (h : b.writeByte addr v = .fault f) :
    f = .unhandledWrite addr v ∧
      ((0x2000 ≤ addr.toNat ∧ addr.toNat < 0x4000) ∨ (0x4016 ≤ addr.toNat ∧ addr.toNat < 0x8000)) := by
  unfold Bus.writeByte at h
  repeat' split at h
  all_goals first
    | (cases h; exact ⟨rfl, by omega⟩)
    | cases h

theorem readTemplate_fault {m : DataMode} {effect : Byte → State → State} {s : State} {f : Fault}
    (h : readTemplate m effect s = .fault f) : isReadFault f := by
  rcases Result.bind_eq_fault.mp h with h | ⟨_, _, h⟩
  · exact resolve_fault h
  · rcases Result.bind_eq_fault.mp h with h | ⟨_, _, h⟩
    · exact Bus.readByte_fault h
    · cases h

/-- R168: a read-modify-write instruction faults at a read only. -/
theorem rmwTemplate_fault {m : MemMode} {g : Byte → Byte → Byte × Byte} {s : State} {f : Fault}
    (h : rmwTemplate m g s = .fault f) : isReadFault f := by
  rcases Result.bind_eq_fault.mp h with h | ⟨res, hr, h⟩
  · exact resolve_fault h
  · rcases Result.bind_eq_fault.mp h with h | ⟨v, hv, h⟩
    · exact Bus.readByte_fault h
    · obtain ⟨b, hb⟩ := s.bus.writeByte_of_readable (Bus.readByte_next hv) (g v s.p).1
      simp [hb] at h

theorem shiftTemplate_fault {m : ShiftMode} {g : Byte → Byte → Byte × Byte} {s : State} {f : Fault}
    (h : shiftTemplate m g s = .fault f) : isReadFault f := by
  cases m with
  | acc => cases h
  | mem m => exact rmwTemplate_fault h

theorem compositeTemplate_fault {m : MemMode} {g : Byte → Byte → Byte × Byte} {effect : Byte → State → State}
    {s : State} {f : Fault} (h : compositeTemplate m g effect s = .fault f) : isReadFault f := by
  rcases Result.bind_eq_fault.mp h with h | ⟨_, _, h⟩
  · exact rmwTemplate_fault h
  · rcases Result.bind_eq_fault.mp h with h | ⟨_, _, h⟩
    · exact readTemplate_fault h
    · cases h

theorem branchTemplate_fault {taken : Bool} {s : State} {f : Fault} (h : branchTemplate taken s = .fault f) :
    isReadFault f := by
  rcases Result.bind_eq_fault.mp h with h | ⟨_, _, h⟩
  · exact resolve_fault h
  · split at h <;> cases h

/-- A store faults at a read of its operands, or at its write. -/
theorem storeTemplate_fault {m : MemMode} {v : Byte} {s : State} {f : Fault} (h : storeTemplate m v s = .fault f) :
    isReadFault f ∨ ∃ res, resolve m.mode s = .next res ∧ f = .unhandledWrite res.address v ∧
      ((0x2000 ≤ res.address.toNat ∧ res.address.toNat < 0x4000) ∨
        (0x4016 ≤ res.address.toNat ∧ res.address.toNat < 0x8000)) := by
  rcases Result.bind_eq_fault.mp h with h | ⟨res, hr, h⟩
  · exact .inl (resolve_fault h)
  · rcases Result.bind_eq_fault.mp h with h | ⟨_, _, h⟩
    · exact .inr ⟨res, hr, Bus.writeByte_fault h⟩
    · cases h

/-! ## Refusals -/

/-- A bus that meets its invariant refuses no read: its bank indices name banks. -/
theorem Bus.read_not_refused {b : Bus} (hi : b.Inv) (addr : Nat) (e : Refusal) : b.read addr ≠ .refused e := by
  have hne := hi.cart.1
  have hpos : 0 < b.cart.prgRomBanks.length := List.length_pos_iff.mpr hne
  intro h
  unfold Bus.read at h
  repeat' split at h
  all_goals first
    | cases h
    | skip
  cases hm : b.mapper
  have hl := hi.lower
  have hu := hi.upper
  rw [hm] at h hl hu
  simp only [Mapper.initialLowerBank] at hl
  simp only [Mapper.initialUpperBank] at hu
  have h0 : b.lowerBank < b.cart.prgRomBanks.length := by omega
  have h1 : b.upperBank < b.cart.prgRomBanks.length := by omega
  unfold Mapper.read Cartridge.prgByte at h
  simp only [List.getElem?_eq_getElem h0, List.getElem?_eq_getElem h1] at h
  split at h
  · cases h
  · split at h <;> cases h

theorem Bus.readByte_not_refused {b : Bus} (hi : b.Inv) (addr : Word) (e : Refusal) : b.readByte addr ≠ .refused e :=
  Bus.read_not_refused hi _ e

theorem Bus.readWord_not_refused {b : Bus} (hi : b.Inv) (addr : Word) (e : Refusal) :
    b.readWord addr ≠ .refused e := by
  intro h
  rcases Result.bind_eq_refused.mp h with h | ⟨_, _, h⟩
  · exact Bus.read_not_refused hi _ _ h
  · rcases Result.bind_eq_refused.mp h with h | ⟨_, _, h⟩
    · exact Bus.read_not_refused hi _ _ h
    · cases h

theorem Bus.writeByte_not_refused (b : Bus) (addr : Word) (v : Byte) (e : Refusal) :
    b.writeByte addr v ≠ .refused e := by
  intro h
  unfold Bus.writeByte at h
  repeat' split at h
  all_goals cases h

/-- A machine that meets its invariant resolves every mode or faults. -/
theorem resolve_not_refused {s : State} (hi : s.Inv) (m : Mode) (e : Refusal) : resolve m s ≠ .refused e := by
  intro h
  have hb := Bus.readByte_not_refused hi
  have hw := Bus.readWord_not_refused hi
  cases m <;> simp only [resolve, operandByte, operandWord, zeroPageWord, Result.bind_assoc] at h
  all_goals
    repeat'
      first
        | cases h
        | exact absurd h (hb _ _)
        | exact absurd h (hw _ _)
        | rcases Result.bind_eq_refused.mp h with h | ⟨_, _, h⟩

/-- A read that answers, with its invariant: every readable address answers. -/
theorem Bus.readByte_of_readable {b : Bus} (hi : b.Inv) {addr : Word} (h : readable addr) :
    ∃ v, b.readByte addr = .next v := by
  rcases h with h | h
  · exact ⟨_, Bus.read_ram _ h⟩
  · have hlt := addr.isLt
    have hpos : 0 < b.cart.prgRomBanks.length := List.length_pos_iff.mpr hi.cart.1
    rw [Bus.readByte, Bus.read_mapper _ (by omega) hlt]
    cases hm : b.mapper
    have hl := hi.lower
    have hu := hi.upper
    rw [hm] at hl hu
    simp only [Mapper.initialLowerBank] at hl
    simp only [Mapper.initialUpperBank] at hu
    have h0 : b.lowerBank < b.cart.prgRomBanks.length := by omega
    have h1 : b.upperBank < b.cart.prgRomBanks.length := by omega
    unfold Mapper.read Cartridge.prgByte
    simp only [List.getElem?_eq_getElem h0, List.getElem?_eq_getElem h1, if_neg (not_lt.mpr h)]
    split <;> exact ⟨_, rfl⟩

end Sys2Proof.Machine
end

