-- ==== Sys2Proof/Laws/Trace.lean ====
section
/-! SUPPORT. The trace line (60_exceptions.md R327): the width and the case of its fields, and what the bytes of the
instruction at PC are. -/

namespace Sys2Proof.Machine

@[simp] theorem hexDigit_toUpper (n : Nat) : (hexDigit n).toUpper = hexDigit n := by
  rcases Nat.lt_or_ge n 16 with h | h
  · have : ∀ k < 16, (hexDigit k).toUpper = hexDigit k := by decide
    exact this n h
  · have : hexDigit n = '0' := by
      unfold hexDigit hexDigits
      rw [List.getD_eq_default _ _ (by simpa using h)]
    rw [this]
    decide

theorem hex2_map_toUpper (b : Byte) : (hex2 b).map Char.toUpper = hex2 b := by
  simp [hex2]

@[simp] theorem hex2_length (b : Byte) : (hex2 b).length = 2 := rfl

/-- A word's digits are those of its four nibbles. -/
theorem hex4_eq (w : Word) : hex4 w =
    [hexDigit (w.toNat / 4096), hexDigit (w.toNat / 256 % 16), hexDigit (w.toNat / 16 % 16), hexDigit (w.toNat % 16)] := by
  have := w.isLt
  have hh : (hi w).toNat = w.toNat / 256 := by
    simp only [hi, BitVec.toNat_setWidth, BitVec.toNat_ushiftRight, Nat.shiftRight_eq_div_pow]
    omega
  have hl : (lo w).toNat = w.toNat % 256 := by simp [lo]
  simp only [hex4, hex2, hh, hl, List.cons_append, List.nil_append, show w.toNat / 256 / 16 = w.toNat / 4096 by omega,
    show w.toNat % 256 / 16 = w.toNat / 16 % 16 by omega, show w.toNat % 256 % 16 = w.toNat % 16 by omega]

/-- A number below 1000, right-justified in three columns. -/
theorem padLeft_decimal (n : Nat) (h : n < 1000) : padLeft 3 (decimal n) =
    [if n < 100 then ' ' else hexDigit (n / 100), if n < 10 then ' ' else hexDigit (n / 10 % 10), hexDigit (n % 10)] := by
  unfold padLeft decimal
  split
  · next h1 => simp [show n < 100 by omega, Nat.mod_eq_of_lt h1]
  · next h1 =>
    split
    · next h2 => simp [show n / 10 % 10 = n / 10 by omega]
    · next h2 => simp

theorem traceCycles_lt (s : State) : traceCycles s < 341 := Nat.mod_lt _ (by decide)

@[simp] theorem registersField_length (s : State) : (registersField s).length = 33 := by
  have := traceCycles_lt s
  simp [registersField, padLeft_decimal _ (show traceCycles s < 1000 by omega)]

theorem registersField_map_toUpper (s : State) : (registersField s).map Char.toUpper = registersField s := by
  have := traceCycles_lt s
  simp only [registersField, padLeft_decimal _ (show traceCycles s < 1000 by omega), List.map_append, List.map_cons,
    List.map_nil, hex2_map_toUpper, hexDigit_toUpper]
  split <;> split <;> simp

/-- One opcode byte and its operand bytes: the instruction's bytes once the opcode is read. -/
theorem instrBytes_eq {s : State} {op : Byte} (h : s.bus.readByte s.pc = .next op) :
    instrBytes s = (operandBytes ((instrLength (decodeByte op)).getD 1) s).map fun ds => op :: ds := by
  simp [instrBytes, h]

theorem instrBytes_of_fault {s : State} {e : Fault} (h : s.bus.readByte s.pc = .fault e) : instrBytes s = .fault e := by
  simp [instrBytes, h]

end Sys2Proof.Machine
end

