-- ==== Sys2Proof/Machine/Ines.lean ====
section
/-! DEFINITION. The iNES image a cartridge is read from: 20_memory.md R95, 60_exceptions.md R314. The loader is out of scope
(00_scope.md R4); the layout the rule gives is written down so that a machine can be made from an image. No step reads
this file. -/

namespace Sys2Proof.Machine

/-- R314: how reading an image fails; a value returned to the host, no fault of a step. -/
inductive InesProblem where
  | invalidHeader
  | invalidPayload
deriving DecidableEq, Repr

/-- R95: the four bytes an image starts with. -/
def inesMagic : List Byte := [0x4E#8, 0x45#8, 0x53#8, 0x1A#8]

/-- The next `count` blocks of `size` bytes, and the bytes after them; none where the bytes run out. -/
def takeBanks (size : Nat) : Nat → List Byte → Option (List Memory × List Byte)
  | 0, bytes => some ([], bytes)
  | count + 1, bytes =>
    if bytes.length < size then none
    else
      match takeBanks size count (bytes.drop size) with
      | none => none
      | some (banks, rest) => some (packFrom 0 (bytes.take size) :: banks, rest)

/-- R95: `mapper_id = (byte7[7:4] << 4) | byte6[7:4]`. -/
def inesMapperId (flag6 flag7 : Byte) : Byte := (flag7 &&& 0xF0#8) ||| (flag6 >>> 4)

/-- R95: `mirroring_mode`. How the four-screen bit combines with bit 0 is not stated: that value is the argument
`fourScreenWith`, applied to bit 0. -/
def inesMirroring (fourScreenWith : Bool → Mirroring) (flag6 : Byte) : Mirroring :=
  if flag6.getLsbD 3 then fourScreenWith (flag6.getLsbD 0)
  else if flag6.getLsbD 0 then .vertical else .horizontal

/-- R95: the bytes of the optional trainer, skipped and mapped nowhere. -/
def inesTrainerSize (flag6 : Byte) : Nat := if flag6.getLsbD 2 then 512 else 0

/-- R95: the payload after the header: trainer, PRG banks, CHR banks. -/
def inesPayload (flag6 prgCount chrCount : Byte) (payload : List Byte) : Option (List Memory × List Memory) :=
  if payload.length < inesTrainerSize flag6 then none
  else
    match takeBanks Config.prgBankSize prgCount.toNat (payload.drop (inesTrainerSize flag6)) with
    | none => none
    | some (prg, rest) =>
      match takeBanks Config.chrBankSize chrCount.toNat rest with
      | none => none
      | some (chr, _) => some (prg, chr)

/-- R95, R96: the cartridge of an image. -/
def cartridgeOfInes (fourScreenWith : Bool → Mirroring) : List Byte → Except InesProblem Cartridge
  | m0 :: m1 :: m2 :: m3 :: prgCount :: chrCount :: flag6 :: flag7 :: prgRamCount ::
      _ :: _ :: _ :: _ :: _ :: _ :: _ :: payload =>
    if [m0, m1, m2, m3] = inesMagic then
      match inesPayload flag6 prgCount chrCount payload with
      | none => .error .invalidPayload
      | some (prg, chr) => .ok
        { prgRomBanks := prg
          chrRomBanks := chr
          prgRamBanksCount := if prgRamCount = 0x00#8 then 1 else prgRamCount.toNat
          mapperId := inesMapperId flag6 flag7
          mirroringMode := inesMirroring fourScreenWith flag6
          batteryBackedRam := flag6.getLsbD 1
          trainerPresent := flag6.getLsbD 2 }
    else .error .invalidHeader
  | _ => .error .invalidHeader

end Sys2Proof.Machine
end

