-- ==== Sys2Proof/Tests/Slice0.lean ====
section
/-! SUPPORT. This model's own tests. Every expected result is a worked example or a vector of the spec
(95_test_vectors.md, the Example of an instruction's rule, spec/opcode_table.json). Each test is one step; `steps` compares
the whole state, so a test also shows what the step leaves alone. -/

namespace Sys2Proof.Tests

open Sys2Proof.Machine

/-! ## Well-formedness refuses what has no opcode byte -/

theorem test_wf_unimplemented : (Instr.unimplemented 0xA9#8).wf = false := by decide
theorem test_wf_nop_byte : (Instr.nop (.operand .imm) 0xA9#8).wf = false := by decide
theorem test_wf_nop_mode : (Instr.nop (.operand (.mem .indY)) 0x04#8).wf = false := by decide
theorem test_wf_seven_data :
    [Instr.lda, .adc, .and, .ora, .eor, .cmp].all (fun c => (c (.mem .zpY)).wf == false) = true := by decide
theorem test_wf_sbc_mode : (Instr.sbc (.mem .zpY) false).wf = false := by decide
theorem test_wf_sbc_undocumented : (Instr.sbc (.mem .zp) true).wf = false := by decide
theorem test_wf_ldx : (Instr.ldx (.mem .absX)).wf = false := by decide
theorem test_wf_ldy : (Instr.ldy (.mem .absY)).wf = false := by decide
theorem test_wf_index_compares :
    [Instr.cpx, .cpy].all (fun c => (c (.mem .zpX)).wf == false) = true := by decide
theorem test_wf_bit : (Instr.bit .absX).wf = false := by decide
theorem test_wf_stores :
    [Instr.sta .zpY, .stx .zpX, .sty .zpY, .sax .absY].all (fun i => i.wf == false) = true := by decide
theorem test_wf_shifts :
    [Instr.asl, .lsr, .rol, .ror].all (fun c => (c (.mem .absY)).wf == false) = true := by decide
theorem test_wf_inc_dec : [Instr.inc, .dec].all (fun c => (c .indX).wf == false) = true := by decide
theorem test_wf_composites :
    [Instr.slo, .sre, .rla, .rra, .dcp, .isc].all (fun c => (c .zpY).wf == false) = true := by decide
theorem test_wf_lax : (Instr.lax .absX).wf = false := by decide

/-! ## Decoding: one word at least for each constructor, from the Encoding tables of files 41 to 46 and R115 -/

theorem test_decode_data_movement :
    [0xA9#8, 0xB6#8, 0xBC#8, 0x91#8, 0x96#8, 0x8C#8, 0xAA#8, 0xA8#8, 0x8A#8, 0x98#8, 0xBA#8, 0x9A#8].map decodeByte =
    [.lda .imm, .ldx (.mem .zpY), .ldy (.mem .absX), .sta .indY, .stx .zpY, .sty .abs,
      .tax, .tay, .txa, .tya, .tsx, .txs] := by decide

theorem test_decode_arithmetic_logical :
    [0x61#8, 0xF1#8, 0xEB#8, 0x39#8, 0x1D#8, 0x55#8, 0x2C#8].map decodeByte =
    [.adc (.mem .indX), .sbc (.mem .indY) false, .sbc .imm true, .and (.mem .absY), .ora (.mem .absX),
      .eor (.mem .zpX), .bit .abs] := by decide

theorem test_decode_shift_compare_incdec :
    [0x0A#8, 0x5E#8, 0x26#8, 0x6E#8, 0xD1#8, 0xEC#8, 0xC0#8, 0xFE#8, 0xC6#8, 0xE8#8, 0xCA#8, 0xC8#8, 0x88#8].map
      decodeByte =
    [.asl .acc, .lsr (.mem .absX), .rol (.mem .zp), .ror (.mem .abs), .cmp (.mem .indY), .cpx (.mem .abs), .cpy .imm,
      .inc .absX, .dec .zp, .inx, .dex, .iny, .dey] := by decide

theorem test_decode_control_flow :
    [0x90#8, 0xB0#8, 0xD0#8, 0xF0#8, 0x10#8, 0x30#8, 0x50#8, 0x70#8, 0x4C#8, 0x6C#8, 0x20#8, 0x60#8, 0x40#8].map
      decodeByte =
    [.bcc, .bcs, .bne, .beq, .bpl, .bmi, .bvc, .bvs, .jmp .abs, .jmp .ind, .jsr, .rts, .rti] := by decide

theorem test_decode_stack_flags_nop :
    [0x48#8, 0x08#8, 0x68#8, 0x28#8, 0x18#8, 0x38#8, 0x58#8, 0x78#8, 0xB8#8, 0xD8#8, 0xF8#8, 0xEA#8, 0x1A#8, 0x80#8,
      0x04#8, 0x14#8, 0x0C#8, 0x1C#8].map decodeByte =
    [.pha, .php, .pla, .plp, .clc, .sec, .cli, .sei, .clv, .cld, .sed, .nop .implied 0xEA#8, .nop .implied 0x1A#8,
      .nop (.operand .imm) 0x80#8, .nop (.operand (.mem .zp)) 0x04#8, .nop (.operand (.mem .zpX)) 0x14#8,
      .nop (.operand (.mem .abs)) 0x0C#8, .nop (.operand (.mem .absX)) 0x1C#8] := by decide

theorem test_decode_undocumented :
    [0x1B#8, 0x47#8, 0x33#8, 0x63#8, 0xCF#8, 0xFF#8, 0xB7#8, 0x83#8, 0x00#8, 0xBB#8].map decodeByte =
    [.slo .absY, .sre .zp, .rla .indY, .rra .indX, .dcp .abs, .isc .absX, .lax .zpY, .sax .indX,
      .unimplemented 0x00#8, .unimplemented 0xBB#8] := by decide

/-- An empty list of bytes is rejected by name. -/
theorem test_decode_nothing : decodeTableWord 8 0xA9 = some (.lda .imm) ∧
    (match decode [] with | .error e => decide (e = .noOpcodeByte) | .ok _ => false) = true := by decide

/-- The columns `length`, `base_cycles` and `page_cross_penalty` of spec/opcode_table.json, a row of sixteen bytes a
line; 0 stands for null. -/
def tableLengths : List (List Nat) :=
  [[0, 2, 0, 2, 2, 2, 2, 2, 1, 2, 1, 0, 3, 3, 3, 3],
   [2, 2, 0, 2, 2, 2, 2, 2, 1, 3, 1, 3, 3, 3, 3, 3],
   [3, 2, 0, 2, 2, 2, 2, 2, 1, 2, 1, 0, 3, 3, 3, 3],
   [2, 2, 0, 2, 2, 2, 2, 2, 1, 3, 1, 3, 3, 3, 3, 3],
   [1, 2, 0, 2, 2, 2, 2, 2, 1, 2, 1, 0, 3, 3, 3, 3],
   [2, 2, 0, 2, 2, 2, 2, 2, 1, 3, 1, 3, 3, 3, 3, 3],
   [1, 2, 0, 2, 2, 2, 2, 2, 1, 2, 1, 0, 3, 3, 3, 3],
   [2, 2, 0, 2, 2, 2, 2, 2, 1, 3, 1, 3, 3, 3, 3, 3],
   [2, 2, 2, 2, 2, 2, 2, 2, 1, 2, 1, 0, 3, 3, 3, 3],
   [2, 2, 0, 0, 2, 2, 2, 2, 1, 3, 1, 0, 0, 3, 0, 0],
   [2, 2, 2, 2, 2, 2, 2, 2, 1, 2, 1, 0, 3, 3, 3, 3],
   [2, 2, 0, 2, 2, 2, 2, 2, 1, 3, 1, 0, 3, 3, 3, 3],
   [2, 2, 2, 2, 2, 2, 2, 2, 1, 2, 1, 0, 3, 3, 3, 3],
   [2, 2, 0, 2, 2, 2, 2, 2, 1, 3, 1, 3, 3, 3, 3, 3],
   [2, 2, 2, 2, 2, 2, 2, 2, 1, 2, 1, 2, 3, 3, 3, 3],
   [2, 2, 0, 2, 2, 2, 2, 2, 1, 3, 1, 3, 3, 3, 3, 3]]

def tableCycles : List (List Nat) :=
  [[0, 6, 0, 8, 3, 3, 5, 5, 3, 2, 2, 0, 4, 4, 6, 6],
   [2, 5, 0, 8, 4, 4, 6, 6, 2, 4, 2, 7, 4, 4, 7, 7],
   [6, 6, 0, 8, 3, 3, 5, 5, 4, 2, 2, 0, 4, 4, 6, 6],
   [2, 5, 0, 8, 4, 4, 6, 6, 2, 4, 2, 7, 4, 4, 7, 7],
   [6, 6, 0, 8, 3, 3, 5, 5, 3, 2, 2, 0, 3, 4, 6, 6],
   [2, 5, 0, 8, 4, 4, 6, 6, 2, 4, 2, 7, 4, 4, 7, 7],
   [6, 6, 0, 8, 3, 3, 5, 5, 4, 2, 2, 0, 5, 4, 6, 6],
   [2, 5, 0, 8, 4, 4, 6, 6, 2, 4, 2, 7, 4, 4, 7, 7],
   [2, 6, 2, 6, 3, 3, 3, 3, 2, 2, 2, 0, 4, 4, 4, 4],
   [2, 6, 0, 0, 4, 4, 4, 4, 2, 5, 2, 0, 0, 5, 0, 0],
   [2, 6, 2, 6, 3, 3, 3, 3, 2, 2, 2, 0, 4, 4, 4, 4],
   [2, 5, 0, 5, 4, 4, 4, 4, 2, 4, 2, 0, 4, 4, 4, 4],
   [2, 6, 2, 8, 3, 3, 5, 5, 2, 2, 2, 0, 4, 4, 6, 6],
   [2, 5, 0, 8, 4, 4, 6, 6, 2, 4, 2, 7, 4, 4, 7, 7],
   [2, 6, 2, 8, 3, 3, 5, 5, 2, 2, 2, 2, 4, 4, 6, 6],
   [2, 5, 0, 8, 4, 4, 6, 6, 2, 4, 2, 7, 4, 4, 7, 7]]

def tablePenalties : List (List Nat) :=
  [[0, 0, 0, 0, 0, 0, 0, 0, 0, 0, 0, 0, 0, 0, 0, 0],
   [0, 1, 0, 0, 0, 0, 0, 0, 0, 1, 0, 0, 1, 1, 0, 0],
   [0, 0, 0, 0, 0, 0, 0, 0, 0, 0, 0, 0, 0, 0, 0, 0],
   [0, 1, 0, 0, 0, 0, 0, 0, 0, 1, 0, 0, 1, 1, 0, 0],
   [0, 0, 0, 0, 0, 0, 0, 0, 0, 0, 0, 0, 0, 0, 0, 0],
   [0, 1, 0, 0, 0, 0, 0, 0, 0, 1, 0, 0, 1, 1, 0, 0],
   [0, 0, 0, 0, 0, 0, 0, 0, 0, 0, 0, 0, 0, 0, 0, 0],
   [0, 1, 0, 0, 0, 0, 0, 0, 0, 1, 0, 0, 1, 1, 0, 0],
   [0, 0, 0, 0, 0, 0, 0, 0, 0, 0, 0, 0, 0, 0, 0, 0],
   [0, 0, 0, 0, 0, 0, 0, 0, 0, 0, 0, 0, 0, 0, 0, 0],
   [0, 0, 0, 0, 0, 0, 0, 0, 0, 0, 0, 0, 0, 0, 0, 0],
   [0, 1, 0, 1, 0, 0, 0, 0, 0, 1, 0, 0, 1, 1, 1, 1],
   [0, 0, 0, 0, 0, 0, 0, 0, 0, 0, 0, 0, 0, 0, 0, 0],
   [0, 1, 0, 0, 0, 0, 0, 0, 0, 1, 0, 0, 1, 1, 0, 0],
   [0, 0, 0, 0, 0, 0, 0, 0, 0, 0, 0, 0, 0, 0, 0, 0],
   [0, 1, 0, 0, 0, 0, 0, 0, 0, 1, 0, 0, 1, 1, 0, 0]]

/-- A column of this model's decoder, laid out as the table. -/
def column (f : Instr → Nat) : List (List Nat) :=
  (List.range 16).map fun h => (List.range 16).map fun l => f (decodeByte (BitVec.ofNat 8 (16 * h + l)))

theorem test_table_lengths : column (fun i => (instrLength i).getD 0) = tableLengths := by decide

theorem test_table_cycles : column (fun i => (baseCycles i).getD 0) = tableCycles := by decide

theorem test_table_penalties : column (fun i => (pageCrossPenalty i).toNat) = tablePenalties := by decide

/-! ## One step -/

/-- The reset state with a one-bank cartridge whose bank starts with `code` and holds `$EA` at offset `$0010`, RAM as
given, and PC at `$C000` (95_test_vectors.md section 0). -/
def placed (code : List Byte) (ram : Memory) : State :=
  { State.reset with
    pc := 0xC000#16
    bus :=
      { State.reset.bus with
        ram := ram
        cart := { blankCartridge with prgRomBanks := [packFrom 0 code ++ [(0x0010, 0xEA#8)]] } } }

/-- The step from `s` completes in the state `end_ s`. -/
def steps (s : State) (end_ : State → State) : Bool :=
  match step s with
  | .next t => decide (t = end_ s)
  | _ => false

/-- The step from `s` raises this fault. -/
def faults (s : State) (f : Fault) : Bool :=
  match step s with
  | .fault g => decide (g = f)
  | _ => false

theorem step_of_faults {s : State} {f : Fault} (h : faults s f = true) : step s = .fault f := by
  unfold faults at h
  split at h
  · next g hg => rw [hg, of_decide_eq_true h]
  · cases h

/-- 95_test_vectors.md 2.1. -/
theorem test_lda_imm_zero :
    steps ({ placed [0xA9#8, 0x00#8] [] with a := 0x55#8 })
      (fun s => { s with a := 0x00#8, p := 0x26#8, pc := 0xC002#16, cyc := 2#64 }) = true := by decide

/-- R180, its example. -/
theorem test_lda_indY_pointer_wraps :
    steps ({ placed [0xB1#8, 0xFF#8] [(0x000, 0x02#8), (0x0FF, 0xF8#8), (0x308, 0x99#8)] with y := 0x10#8 })
      (fun s => { s with a := 0x99#8, p := 0xA4#8, pc := 0xC002#16, cyc := 6#64 }) = true := by decide

/-- 95_test_vectors.md 2.1. -/
theorem test_ldx_zpY_wraps :
    steps ({ placed [0xB6#8, 0xF0#8] [(0x010, 0xFF#8)] with y := 0x20#8 })
      (fun s => { s with x := 0xFF#8, p := 0xA4#8, pc := 0xC002#16, cyc := 4#64 }) = true := by decide

/-- R181, its example. -/
theorem test_ldx_imm_zero :
    steps ({ placed [0xA2#8, 0x00#8] [] with x := 0x11#8 })
      (fun s => { s with x := 0x00#8, p := 0x26#8, pc := 0xC002#16, cyc := 2#64 }) = true := by decide

/-- 95_test_vectors.md 2.1. -/
theorem test_ldy_absX_page_cross :
    steps ({ placed [0xBC#8, 0xFF#8, 0x10#8] [(0x1FE, 0x01#8)] with x := 0xFF#8 })
      (fun s => { s with y := 0x01#8, pc := 0xC003#16, cyc := 5#64 }) = true := by decide

/-- R182, its example. -/
theorem test_ldy_imm :
    steps (placed [0xA0#8, 0xFF#8] [])
      (fun s => { s with y := 0xFF#8, p := 0xA4#8, pc := 0xC002#16, cyc := 2#64 }) = true := by decide

/-- 95_test_vectors.md 2.1. -/
theorem test_sta_absX_no_cross :
    steps ({ placed [0x9D#8, 0x00#8, 0x02#8] [] with a := 0x5A#8, x := 0x01#8 })
      (fun s => { s with pc := 0xC003#16, cyc := 5#64, bus := { s.bus with ram := [(0x201, 0x5A#8)] } }) = true := by decide

/-- 95_test_vectors.md 2.1. -/
theorem test_sta_ppu_faults :
    faults ({ placed [0x8D#8, 0x00#8, 0x20#8] [] with a := 0x80#8 }) (.unhandledWrite 0x2000#16 0x80#8) = true := by decide

/-- 95_test_vectors.md 2.1. -/
theorem test_stx_zpY :
    steps ({ placed [0x96#8, 0xF0#8] [] with x := 0x42#8, y := 0x20#8 })
      (fun s => { s with pc := 0xC002#16, cyc := 4#64, bus := { s.bus with ram := [(0x010, 0x42#8)] } }) = true := by decide

/-- 95_test_vectors.md 2.1. -/
theorem test_sty_zpX_wraps :
    steps ({ placed [0x94#8, 0x10#8] [] with x := 0xF5#8, y := 0x09#8 })
      (fun s => { s with pc := 0xC002#16, cyc := 4#64, bus := { s.bus with ram := [(0x005, 0x09#8)] } }) = true := by decide

/-- 95_test_vectors.md 2.1. -/
theorem test_tax :
    steps ({ placed [0xAA#8] [] with a := 0x80#8 })
      (fun s => { s with x := 0x80#8, p := 0xA4#8, pc := 0xC001#16, cyc := 2#64 }) = true := by decide

/-- R187, its example. -/
theorem test_tay :
    steps ({ placed [0xA8#8] [] with a := 0x00#8, y := 0x03#8 })
      (fun s => { s with y := 0x00#8, p := 0x26#8, pc := 0xC001#16, cyc := 2#64 }) = true := by decide

/-- R188, its example. -/
theorem test_txa :
    steps ({ placed [0x8A#8] [] with x := 0x7F#8, a := 0x80#8, p := 0xA4#8 })
      (fun s => { s with a := 0x7F#8, p := 0x24#8, pc := 0xC001#16, cyc := 2#64 }) = true := by decide

/-- R189, its example. -/
theorem test_tya :
    steps ({ placed [0x98#8] [] with y := 0xFF#8 })
      (fun s => { s with a := 0xFF#8, p := 0xA4#8, pc := 0xC001#16, cyc := 2#64 }) = true := by decide

/-- 95_test_vectors.md 2.1. -/
theorem test_tsx :
    steps (placed [0xBA#8] [])
      (fun s => { s with x := 0xFD#8, p := 0xA4#8, pc := 0xC001#16, cyc := 2#64 }) = true := by decide

/-- 95_test_vectors.md 2.1. -/
theorem test_txs_sets_no_flag :
    steps (placed [0x9A#8] [])
      (fun s => { s with sp := 0x00#8, pc := 0xC001#16, cyc := 2#64 }) = true := by decide

/-- 95_test_vectors.md S2. -/
theorem test_adc_overflow :
    steps ({ placed [0x69#8, 0x50#8] [] with a := 0x50#8, p := 0x00#8 })
      (fun s => { s with a := 0xA0#8, p := 0xC0#8, pc := 0xC002#16, cyc := 2#64 }) = true := by decide

/-- 95_test_vectors.md 2.2, R200. -/
theorem test_adc_carry_ignores_decimal :
    steps ({ placed [0x69#8, 0x00#8] [] with a := 0xFF#8, p := 0x2D#8 })
      (fun s => { s with a := 0x00#8, p := 0x2F#8, pc := 0xC002#16, cyc := 2#64 }) = true := by decide

/-- 95_test_vectors.md 2.2. -/
theorem test_sbc_signed_overflow :
    steps ({ placed [0xE9#8, 0xFF#8] [] with a := 0x7F#8, p := 0x25#8 })
      (fun s => { s with a := 0x80#8, p := 0xE4#8, pc := 0xC002#16, cyc := 2#64 }) = true := by decide

/-- 95_test_vectors.md 2.6. -/
theorem test_sbc_undocumented_byte :
    steps ({ placed [0xEB#8, 0x40#8] [] with a := 0x40#8, p := 0x01#8 })
      (fun s => { s with a := 0x00#8, p := 0x03#8, pc := 0xC002#16, cyc := 2#64 }) = true := by decide

/-- 95_test_vectors.md 2.2. -/
theorem test_and_to_zero :
    steps ({ placed [0x29#8, 0x0F#8] [] with a := 0xF0#8 })
      (fun s => { s with a := 0x00#8, p := 0x26#8, pc := 0xC002#16, cyc := 2#64 }) = true := by decide

/-- 95_test_vectors.md 2.2. -/
theorem test_ora :
    steps ({ placed [0x09#8, 0x80#8] [] with a := 0x01#8 })
      (fun s => { s with a := 0x81#8, p := 0xA4#8, pc := 0xC002#16, cyc := 2#64 }) = true := by decide

/-- 95_test_vectors.md 2.2. -/
theorem test_eor :
    steps ({ placed [0x49#8, 0xFF#8] [] with a := 0x0F#8 })
      (fun s => { s with a := 0xF0#8, p := 0xA4#8, pc := 0xC002#16, cyc := 2#64 }) = true := by decide

/-- 95_test_vectors.md 2.2. -/
theorem test_bit_flags_from_memory :
    steps ({ placed [0x24#8, 0x10#8] [(0x010, 0xC0#8)] with a := 0x01#8 })
      (fun s => { s with p := 0xE6#8, pc := 0xC002#16, cyc := 3#64 }) = true := by decide

/-- 95_test_vectors.md 2.2. -/
theorem test_bit_overflow_is_bit6 :
    steps ({ placed [0x24#8, 0x10#8] [(0x010, 0x3F#8)] with a := 0xFF#8, p := 0xE4#8 })
      (fun s => { s with p := 0x24#8, pc := 0xC002#16, cyc := 3#64 }) = true := by decide

/-- 95_test_vectors.md 2.3. -/
theorem test_asl_acc :
    steps ({ placed [0x0A#8] [] with a := 0x81#8 })
      (fun s => { s with a := 0x02#8, p := 0x25#8, pc := 0xC001#16, cyc := 2#64 }) = true := by decide

/-- 95_test_vectors.md 2.3. -/
theorem test_asl_zp :
    steps (placed [0x06#8, 0x10#8] [(0x010, 0x40#8)])
      (fun s => { s with p := 0xA4#8, pc := 0xC002#16, cyc := 5#64, bus := { s.bus with ram := [(0x010, 0x80#8)] } }) = true := by decide

/-- 95_test_vectors.md 2.3. -/
theorem test_lsr_absX_clears_n :
    steps ({ placed [0x5E#8, 0xFF#8, 0x02#8] [(0x300, 0x02#8)] with x := 0x01#8, p := 0xA4#8 })
      (fun s => { s with p := 0x24#8, pc := 0xC003#16, cyc := 7#64, bus := { s.bus with ram := [(0x300, 0x01#8)] } }) = true := by decide

/-- 95_test_vectors.md 2.3. -/
theorem test_lsr_acc_to_zero :
    steps ({ placed [0x4A#8] [] with a := 0x01#8 })
      (fun s => { s with a := 0x00#8, p := 0x27#8, pc := 0xC001#16, cyc := 2#64 }) = true := by decide

/-- 95_test_vectors.md 2.3. -/
theorem test_rol_acc :
    steps ({ placed [0x2A#8] [] with a := 0x80#8, p := 0x25#8 })
      (fun s => { s with a := 0x01#8, p := 0x25#8, pc := 0xC001#16, cyc := 2#64 }) = true := by decide

/-- R222, its example. -/
theorem test_rol_zp :
    steps ({ placed [0x26#8, 0x10#8] [(0x010, 0x7F#8)] with p := 0x25#8 })
      (fun s => { s with p := 0xA4#8, pc := 0xC002#16, cyc := 5#64, bus := { s.bus with ram := [(0x010, 0xFF#8)] } }) = true := by decide

/-- 95_test_vectors.md 2.3. -/
theorem test_ror_acc :
    steps ({ placed [0x6A#8] [] with a := 0x01#8, p := 0x25#8 })
      (fun s => { s with a := 0x80#8, p := 0xA5#8, pc := 0xC001#16, cyc := 2#64 }) = true := by decide

/-- 95_test_vectors.md 2.3. -/
theorem test_ror_zp_carry_in_clear :
    steps (placed [0x66#8, 0x10#8] [(0x010, 0x01#8)])
      (fun s => { s with p := 0x27#8, pc := 0xC002#16, cyc := 5#64, bus := { s.bus with ram := [] } }) = true := by decide

/-- R224, its example. -/
theorem test_cmp_less_keeps_v :
    steps ({ placed [0xC9#8, 0x41#8] [] with a := 0x40#8, p := 0x64#8 })
      (fun s => { s with p := 0xE4#8, pc := 0xC002#16, cyc := 2#64 }) = true := by decide

/-- 95_test_vectors.md 2.3. -/
theorem test_cmp_unsigned :
    steps ({ placed [0xC9#8, 0x00#8] [] with a := 0x80#8 })
      (fun s => { s with p := 0xA5#8, pc := 0xC002#16, cyc := 2#64 }) = true := by decide

/-- R225, its example. -/
theorem test_cpx_zp :
    steps ({ placed [0xE4#8, 0x10#8] [(0x010, 0x06#8)] with x := 0x05#8 })
      (fun s => { s with p := 0xA4#8, pc := 0xC002#16, cyc := 3#64 }) = true := by decide

/-- 95_test_vectors.md 2.3. -/
theorem test_cpy_wrapped_difference :
    steps (placed [0xC0#8, 0xFF#8] [])
      (fun s => { s with pc := 0xC002#16, cyc := 2#64 }) = true := by decide

/-- 95_test_vectors.md 2.3. -/
theorem test_inc_wraps :
    steps (placed [0xE6#8, 0x10#8] [(0x010, 0xFF#8)])
      (fun s => { s with p := 0x26#8, pc := 0xC002#16, cyc := 5#64, bus := { s.bus with ram := [] } }) = true := by decide

/-- 95_test_vectors.md 2.3. -/
theorem test_inc_rom_changes_flags_only :
    steps (placed [0xEE#8, 0x10#8, 0x80#8] [])
      (fun s => { s with p := 0xA4#8, pc := 0xC003#16, cyc := 6#64 }) = true := by decide

/-- 95_test_vectors.md 2.3. -/
theorem test_dec_wraps :
    steps (placed [0xC6#8, 0x10#8] [])
      (fun s => { s with p := 0xA4#8, pc := 0xC002#16, cyc := 5#64, bus := { s.bus with ram := [(0x010, 0xFF#8)] } }) = true := by decide

/-- 95_test_vectors.md 2.3. -/
theorem test_inx_wraps :
    steps ({ placed [0xE8#8] [] with x := 0xFF#8 })
      (fun s => { s with x := 0x00#8, p := 0x26#8, pc := 0xC001#16, cyc := 2#64 }) = true := by decide

/-- R230, its example. -/
theorem test_dex :
    steps ({ placed [0xCA#8] [] with x := 0x01#8 })
      (fun s => { s with x := 0x00#8, p := 0x26#8, pc := 0xC001#16, cyc := 2#64 }) = true := by decide

/-- R231, its example. -/
theorem test_iny :
    steps ({ placed [0xC8#8] [] with y := 0xFF#8 })
      (fun s => { s with y := 0x00#8, p := 0x26#8, pc := 0xC001#16, cyc := 2#64 }) = true := by decide

/-- 95_test_vectors.md 2.3. -/
theorem test_dey_wraps :
    steps (placed [0x88#8] [])
      (fun s => { s with y := 0xFF#8, p := 0xA4#8, pc := 0xC001#16, cyc := 2#64 }) = true := by decide

/-- 95_test_vectors.md 2.4. -/
theorem test_bcc_taken :
    steps (placed [0x90#8, 0x05#8] [])
      (fun s => { s with pc := 0xC007#16, cyc := 3#64 }) = true := by decide

/-- 95_test_vectors.md 2.4. -/
theorem test_bcc_not_taken :
    steps ({ placed [0x90#8, 0x05#8] [] with p := 0x25#8 })
      (fun s => { s with pc := 0xC002#16, cyc := 2#64 }) = true := by decide

/-- 95_test_vectors.md 2.4. -/
theorem test_bcs_to_itself :
    steps ({ placed [0xB0#8, 0xFE#8] [] with p := 0x25#8 })
      (fun s => { s with cyc := 3#64 }) = true := by decide

/-- 95_test_vectors.md 2.4. -/
theorem test_beq_back_across_page :
    steps ({ placed [0xF0#8, 0x80#8] [] with p := 0x26#8 })
      (fun s => { s with pc := 0xBF82#16, cyc := 4#64 }) = true := by decide

/-- R245, its example. -/
theorem test_bpl_not_taken :
    steps ({ placed [0x10#8, 0x00#8] [] with p := 0xA4#8 })
      (fun s => { s with pc := 0xC002#16, cyc := 2#64 }) = true := by decide

/-- R246, its example. -/
theorem test_bmi_taken :
    steps ({ placed [0x30#8, 0x10#8] [] with p := 0xA4#8 })
      (fun s => { s with pc := 0xC012#16, cyc := 3#64 }) = true := by decide

/-- 95_test_vectors.md 2.4. -/
theorem test_bvc_taken :
    steps (placed [0x50#8, 0x10#8] [])
      (fun s => { s with pc := 0xC012#16, cyc := 3#64 }) = true := by decide

/-- 95_test_vectors.md 2.4. -/
theorem test_bvs_taken :
    steps ({ placed [0x70#8, 0x10#8] [] with p := 0x64#8 })
      (fun s => { s with pc := 0xC012#16, cyc := 3#64 }) = true := by decide

/-- 95_test_vectors.md S5. -/
theorem test_bne_not_taken :
    steps ({ placed [0xD0#8, 0x20#8] [] with p := 0x26#8 })
      (fun s => { s with pc := 0xC002#16, cyc := 2#64 }) = true := by decide

/-- 95_test_vectors.md S3. -/
theorem test_jmp_indirect_page_bug :
    steps (placed [0x6C#8, 0xFF#8, 0x02#8] [(0x200, 0x40#8), (0x2FF, 0x80#8), (0x300, 0x12#8)])
      (fun s => { s with pc := 0x4080#16, cyc := 5#64 }) = true := by decide

/-- 95_test_vectors.md 2.4. -/
theorem test_jmp_abs :
    steps (placed [0x4C#8, 0x34#8, 0x12#8] [])
      (fun s => { s with pc := 0x1234#16, cyc := 3#64 }) = true := by decide

/-- 95_test_vectors.md 2.4. -/
theorem test_jsr_sp_wraps :
    steps ({ placed [0x20#8, 0x23#8, 0xC1#8] [] with sp := 0x00#8 })
      (fun s => { s with pc := 0xC123#16, sp := 0xFE#8, cyc := 6#64, bus := { s.bus with ram := [(0x100, 0xC0#8), (0x1FF, 0x02#8)] } }) = true := by decide

/-- 95_test_vectors.md 2.4. -/
theorem test_rts_popping_ffff :
    steps ({ placed [0x60#8] [(0x1FC, 0xFF#8), (0x1FD, 0xFF#8)] with sp := 0xFB#8 })
      (fun s => { s with pc := 0x0000#16, sp := 0xFD#8, cyc := 6#64 }) = true := by decide

/-- 95_test_vectors.md 2.4. -/
theorem test_rti :
    steps ({ placed [0x40#8] [(0x1FB, 0xFF#8), (0x1FC, 0x34#8), (0x1FD, 0x12#8)] with sp := 0xFA#8 })
      (fun s => { s with p := 0xEF#8, pc := 0x1234#16, sp := 0xFD#8, cyc := 6#64 }) = true := by decide

/-- 95_test_vectors.md 2.5. -/
theorem test_pha_sp_wraps :
    steps ({ placed [0x48#8] [] with a := 0x42#8, sp := 0x00#8 })
      (fun s => { s with sp := 0xFF#8, pc := 0xC001#16, cyc := 3#64, bus := { s.bus with ram := [(0x100, 0x42#8)] } }) = true := by decide

/-- 95_test_vectors.md 2.5. -/
theorem test_php_p_zero :
    steps ({ placed [0x08#8] [] with p := 0x00#8 })
      (fun s => { s with sp := 0xFC#8, pc := 0xC001#16, cyc := 3#64, bus := { s.bus with ram := [(0x1FD, 0x30#8)] } }) = true := by decide

/-- 95_test_vectors.md 2.5. -/
theorem test_pla_sp_wraps :
    steps ({ placed [0x68#8] [(0x100, 0x7F#8)] with sp := 0xFF#8 })
      (fun s => { s with a := 0x7F#8, sp := 0x00#8, pc := 0xC001#16, cyc := 4#64 }) = true := by decide

/-- 95_test_vectors.md 2.5. -/
theorem test_plp_masks :
    steps (placed [0x28#8] [(0x1FE, 0xFF#8)])
      (fun s => { s with p := 0xEF#8, sp := 0xFE#8, pc := 0xC001#16, cyc := 4#64 }) = true := by decide

/-- 95_test_vectors.md 2.5. -/
theorem test_clc :
    steps ({ placed [0x18#8] [] with p := 0xFF#8 })
      (fun s => { s with p := 0xFE#8, pc := 0xC001#16, cyc := 2#64 }) = true := by decide

/-- 95_test_vectors.md 2.5. -/
theorem test_sec :
    steps ({ placed [0x38#8] [] with p := 0x00#8 })
      (fun s => { s with p := 0x01#8, pc := 0xC001#16, cyc := 2#64 }) = true := by decide

/-- 95_test_vectors.md 2.5. -/
theorem test_cli :
    steps ({ placed [0x58#8] [] with p := 0xFF#8 })
      (fun s => { s with p := 0xFB#8, pc := 0xC001#16, cyc := 2#64 }) = true := by decide

/-- 95_test_vectors.md 2.5. -/
theorem test_sei :
    steps ({ placed [0x78#8] [] with p := 0x00#8 })
      (fun s => { s with p := 0x04#8, pc := 0xC001#16, cyc := 2#64 }) = true := by decide

/-- 95_test_vectors.md 2.5. -/
theorem test_clv :
    steps ({ placed [0xB8#8] [] with p := 0xFF#8 })
      (fun s => { s with p := 0xBF#8, pc := 0xC001#16, cyc := 2#64 }) = true := by decide

/-- 95_test_vectors.md 2.5. -/
theorem test_cld :
    steps ({ placed [0xD8#8] [] with p := 0xFF#8 })
      (fun s => { s with p := 0xF7#8, pc := 0xC001#16, cyc := 2#64 }) = true := by decide

/-- 95_test_vectors.md 2.5. -/
theorem test_sed :
    steps ({ placed [0xF8#8] [] with p := 0x00#8 })
      (fun s => { s with p := 0x08#8, pc := 0xC001#16, cyc := 2#64 }) = true := by decide

/-- 95_test_vectors.md 2.5. -/
theorem test_nop_absX_page_cross :
    steps ({ placed [0x1C#8, 0xFF#8, 0x02#8] [] with x := 0x01#8 })
      (fun s => { s with pc := 0xC003#16, cyc := 5#64 }) = true := by decide

/-- 95_test_vectors.md 2.5. -/
theorem test_nop_absX_reaching_ppu :
    faults ({ placed [0x3C#8, 0xFF#8, 0x1F#8] [] with x := 0x01#8 }) (.unsupportedRead .ppu) = true := by decide

/-- 95_test_vectors.md 2.6. -/
theorem test_slo_rom_reads_old_byte :
    steps ({ placed [0x0F#8, 0x10#8, 0x80#8] [] with a := 0x01#8 })
      (fun s => { s with a := 0xEB#8, p := 0xA5#8, pc := 0xC003#16, cyc := 6#64 }) = true := by decide

/-- 95_test_vectors.md 2.6: SLO shifts the pointer it reads through, to another byte or into the PPU range. -/
theorem test_slo_moves_own_pointer :
    steps ({ placed [0x03#8, 0x10#8] [(0x010, 0x10#8), (0x020, 0x0F#8)] with a := 0x40#8 })
      (fun s => { s with
        a := 0x4F#8
        pc := 0xC002#16
        cyc := 8#64
        bus := { s.bus with ram := [(0x010, 0x20#8), (0x020, 0x0F#8)] } }) = true ∧
    faults ({ placed [0x03#8, 0x10#8] [(0x010, 0x11#8), (0x011, 0x10#8)] with a := 0x40#8 })
      (.unsupportedRead .ppu) = true := by decide

/-- 95_test_vectors.md 2.6. -/
theorem test_sre_zpX :
    steps ({ placed [0x57#8, 0xF0#8] [(0x010, 0xFF#8)] with a := 0xFF#8, x := 0x20#8 })
      (fun s => { s with a := 0x80#8, p := 0xA5#8, pc := 0xC002#16, cyc := 6#64, bus := { s.bus with ram := [(0x010, 0x7F#8)] } }) = true := by decide

/-- 95_test_vectors.md 2.6. -/
theorem test_rla_indX :
    steps ({ placed [0x23#8, 0x10#8] [(0x015, 0x03#8), (0x300, 0xC0#8)] with a := 0xF0#8, x := 0x04#8, p := 0x25#8 })
      (fun s => { s with a := 0x80#8, p := 0xA5#8, pc := 0xC002#16, cyc := 8#64, bus := { s.bus with ram := [(0x015, 0x03#8), (0x300, 0x81#8)] } }) = true := by decide

/-- 95_test_vectors.md 2.6. -/
theorem test_rra_uses_ror_carry :
    steps ({ placed [0x67#8, 0x10#8] [(0x010, 0x01#8)] with a := 0x10#8 })
      (fun s => { s with a := 0x11#8, pc := 0xC002#16, cyc := 5#64, bus := { s.bus with ram := [] } }) = true := by decide

/-- 95_test_vectors.md 2.6. -/
theorem test_dcp_wraps :
    steps ({ placed [0xC7#8, 0x10#8] [] with a := 0x40#8 })
      (fun s => { s with pc := 0xC002#16, cyc := 5#64, bus := { s.bus with ram := [(0x010, 0xFF#8)] } }) = true := by decide

/-- 95_test_vectors.md 2.6. -/
theorem test_isc_indY_overflow :
    steps ({ placed [0xF3#8, 0x10#8] [(0x011, 0x03#8), (0x302, 0x7F#8)] with p := 0x25#8, y := 0x02#8 })
      (fun s => { s with a := 0x80#8, p := 0xE4#8, pc := 0xC002#16, cyc := 8#64, bus := { s.bus with ram := [(0x011, 0x03#8), (0x302, 0x80#8)] } }) = true := by decide

/-- 95_test_vectors.md 2.6. -/
theorem test_lax_indY_page_cross :
    steps ({ placed [0xB3#8, 0x10#8] [(0x010, 0xFF#8), (0x011, 0x02#8), (0x300, 0x33#8)] with y := 0x01#8 })
      (fun s => { s with a := 0x33#8, x := 0x33#8, pc := 0xC002#16, cyc := 6#64 }) = true := by decide

/-- 95_test_vectors.md 2.6. -/
theorem test_sax_indX :
    steps ({ placed [0x83#8, 0x10#8] [(0x013, 0x03#8)] with a := 0xC3#8, x := 0x02#8 })
      (fun s => { s with pc := 0xC002#16, cyc := 6#64, bus := { s.bus with ram := [(0x013, 0x03#8), (0x300, 0x02#8)] } }) = true := by decide

/-- 95_test_vectors.md 2.6. -/
theorem test_sax_ppu_faults :
    faults ({ placed [0x8F#8, 0x00#8, 0x20#8] [] with a := 0xFF#8, x := 0x0F#8 }) (.unhandledWrite 0x2000#16 0x0F#8) = true := by decide

/-- 95_test_vectors.md 2.7. -/
theorem test_unimplemented_brk :
    faults (placed [0x00#8] []) (.unknownOpcode 0x00#8) = true := by decide

/-- 95_test_vectors.md 2.7. -/
theorem test_unimplemented_jam :
    faults (placed [0x02#8] []) (.unknownOpcode 0x02#8) = true := by decide

/-- 95_test_vectors.md 2.7. -/
theorem test_fetch_from_ppu :
    faults ({ placed [0xEA#8] [] with pc := 0x2000#16 }) (.unsupportedRead .ppu) = true := by decide

/-- 95_test_vectors.md 2.7. -/
theorem test_fetch_from_io :
    faults ({ placed [0xEA#8] [] with pc := 0x4018#16 }) (.unsupportedRead .io) = true := by decide

/-- 95_test_vectors.md 2.7. -/
theorem test_fetch_from_prg_ram :
    faults ({ placed [0xEA#8] [] with pc := 0x6000#16 }) (.unsupportedRead .prgRam) = true := by decide

/-! ## Bus, construction, trace -/

/-- 95_test_vectors.md 2.8. -/
theorem test_read_word_at_top :
    (match (placed [] []).bus.readWord 0xFFFF#16 with
      | .fault f => decide (f = .unsupportedRead .outOfRange)
      | _ => false) = true := by decide

/-- 95_test_vectors.md 2.8: `read_word($07FF)` takes its high byte from a mirror of `$0000`. -/
theorem test_read_word_mirror :
    (match (placed [] [(0x000, 0x12#8), (0x7FF, 0x34#8)]).bus.readWord 0x07FF#16 with
      | .next w => decide (w = 0x1234#16)
      | _ => false) = true := by decide

/-- 95_test_vectors.md 2.8: a three-bank cartridge. -/
theorem test_three_banks :
    (match State.construct { blankCartridge with prgRomBanks := [[(0, 0x11#8)], [(0, 0x22#8)], [(0, 0x33#8)]] } with
      | .ok s => (match s.bus.readByte 0x8000#16, s.bus.readByte 0xC000#16 with
        | .next l, .next u => decide (l = 0x11#8 ∧ u = 0x33#8)
        | _, _ => false)
      | .error _ => false) = true := by decide

/-- R341: a cartridge with another mapper is refused. -/
theorem test_construct_refuses_mapper :
    (match State.construct { blankCartridge with mapperId := 0x01#8 } with
      | .error e => decide (e = .mapperNotSupported 0x01#8)
      | .ok _ => false) = true := by decide

/-- R342: a step straight after construction raises `UnknownOpcode($00)`. -/
theorem test_step_from_reset : faults State.reset (.unknownOpcode 0x00#8) = true := by decide

/-- R345, R318: a run of three steps ends at the second, and its state is the one before it. -/
theorem test_run_stops_at_fault : (placed [0xE8#8, 0x02#8] []).run 3 =
    ({ placed [0xE8#8, 0x02#8] [] with x := 0x01#8, pc := 0xC001#16, cyc := 2#64 }, .fault (.unknownOpcode 0x02#8)) := by
  decide

/-- The host's word laid at the fetch address is the instruction the next step runs. -/
theorem test_withFetchWord : steps (State.reset.withFetchWord 8 0xE8)
    (fun s => { s with x := 0x01#8, pc := 0x0001#16, cyc := 2#64 }) = true := by decide

/-- 95_test_vectors.md 2.9: `CYC = 136` shows as ` 67`. -/
theorem test_trace_cycles :
    registersField { State.reset with a := 0xA0#8, x := 0x01#8, y := 0xFF#8, p := 0xC0#8, sp := 0xFB#8, cyc := 136#64 } =
      ['A', ':', 'A', '0', ' ', 'X', ':', '0', '1', ' ', 'Y', ':', 'F', 'F', ' ', 'P', ':', 'C', '0', ' ',
        'S', 'P', ':', 'F', 'B', ' ', 'C', 'Y', 'C', ':', ' ', '6', '7'] := by decide

/-- 95_test_vectors.md 2.9: the first 16 columns of the full line. -/
theorem test_trace_compared :
    (match traceLine (fun _ _ => ['j', 'm', 'p', ' ']) (placed [0x4C#8, 0xF5#8, 0xC5#8] []) with
      | .next l => decide ((comparedPrefix l).length = 20 ∧ (comparedPrefix l).drop 16 = ['J', 'M', 'P', ' '] ∧
          comparedSuffix l = registersField (placed [0x4C#8, 0xF5#8, 0xC5#8] []))
      | _ => false) = true := by decide

/-- R95: a header of no banks: mapper id `$41` from the upper nibbles, battery bit, PRG-RAM count 0 read as 1. -/
theorem test_ines_header :
    cartridgeOfInes (fun _ => .fourScreen) [0x4E#8, 0x45#8, 0x53#8, 0x1A#8, 0#8, 0#8, 0x13#8, 0x4F#8, 0#8,
        0#8, 0#8, 0#8, 0#8, 0#8, 0#8, 0#8]
      = .ok ⟨[], [], 1, 0x41#8, .vertical, true, false⟩ := by decide
theorem test_ines_bad_magic :
    cartridgeOfInes (fun _ => .fourScreen) [0x4E#8, 0x45#8, 0x53#8, 0x1B#8, 0#8, 0#8, 0#8, 0#8, 0#8,
        0#8, 0#8, 0#8, 0#8, 0#8, 0#8, 0#8] = .error .invalidHeader := by decide
theorem test_ines_truncated :
    cartridgeOfInes (fun _ => .fourScreen) [0x4E#8, 0x45#8, 0x53#8, 0x1A#8, 1#8, 0#8, 0#8, 0#8, 0#8,
        0#8, 0#8, 0#8, 0#8, 0#8, 0#8, 0#8, 0xA9#8] = .error .invalidPayload := by decide

theorem test_trace_line :
    (match traceLine (fun _ _ => ['j', 'm', 'p']) (placed [0x4C#8, 0xF5#8, 0xC5#8] []) with
      | .next l => decide (l.take 19 = ['C', '0', '0', '0', ' ', ' ', '4', 'C', ' ', 'F', '5', ' ', 'C', '5', ' ', ' ',
          'J', 'M', 'P'] ∧ l.length = 81)
      | _ => false) = true := by decide

/-! ## Witnesses: for each statement of Certificates/Slice0/Obligations.lean with premises, a state and operands that meet
them, at a boundary of the range where a clause has one -/

/-- The operation answers this value. -/
def gives {α : Type} [DecidableEq α] (r : Result α) (v : α) : Bool :=
  match r with
  | .next a => decide (a = v)
  | _ => false

theorem of_gives {α : Type} [DecidableEq α] {r : Result α} {v : α} (h : gives r v = true) : r = .next v := by
  unfold gives at h
  split at h
  · next a => rw [of_decide_eq_true h]
  · cases h

/-- The operation raises this fault. -/
def raises {α : Type} (r : Result α) (f : Fault) : Bool :=
  match r with
  | .fault g => decide (g = f)
  | _ => false

theorem of_raises {α : Type} {r : Result α} {f : Fault} (h : raises r f = true) : r = .fault f := by
  unfold raises at h
  split at h
  · next g => rw [of_decide_eq_true h]
  · cases h

/-- A two-byte load in ROM, the state most witnesses start from. -/
def loading : State := placed [0xA5#8, 0xFF#8] [(0x0FF, 0x80#8)]

theorem witness_loading_inv : loading.Inv :=
  ⟨by decide, ⟨by decide, by decide, by decide⟩, by decide, by decide, by decide⟩

theorem witness_DecodeOfEncodeIsTheInstruction : (Instr.sbc .imm true).wf = true ∧ (Instr.unimplemented 0xFE#8).wf = false ∧
    (Instr.nop (.operand (.mem .absX)) 0xFC#8).wf = true := by decide

theorem witness_EveryByteIsOneInstruction : ∃ i j : Instr, i.wf = true ∧ j.wf = true ∧ encode i = encode j :=
  ⟨.isc .absX, decodeByte 0xFF#8, by decide, by decide, by decide⟩

theorem witness_StepRunsTheDecodedInstruction :
    (∃ (s : State) (op : Byte) (rest : List Byte) (i : Instr),
      s.bus.readByte s.pc = .next op ∧ decode (op :: rest) = .ok i) ∧
    ∃ (s : State) (f : Fault), s.bus.readByte s.pc = .fault f :=
  ⟨⟨loading, 0xA5#8, [0xFF#8], .lda (.mem .zp), of_gives (by decide), rfl⟩,
    ⟨loading.setPc 0x7FFF#16, .unsupportedRead .prgRam, of_raises (by decide)⟩⟩

theorem witness_UnimplementedByteRaisesUnknownOpcode :
    ∃ (s : State) (op : Byte), op ∈ unimplementedBytes ∧ s.bus.readByte s.pc = .next op ∧
      step s = .fault (.unknownOpcode op) :=
  ⟨placed [0xBB#8] [], 0xBB#8, by decide, of_gives (by decide), step_of_faults (by decide)⟩

/-- Premises of StepIsNeverRefused, StepKeepsMachineInvariant, StepKeepsStatusBitsFourAndFive, NoStepChangesTheCartridge
and EveryStepCostsTwoToEightCycles. -/
theorem witness_step_completes : loading.Inv ∧ (∃ t, step loading = .next t) ∧ flag .b loading.p = false ∧
    flag .u loading.p = true ∧ 0x2000 ≤ (0x2000#16).toNat :=
  ⟨witness_loading_inv, ⟨_, rfl⟩, by decide, by decide, by decide⟩

/-- A page-crossing load and a branch taken across a page, the two surcharges of EveryStepCostsTwoToEightCycles; the
longest instruction. -/
theorem witness_EveryStepCostsTwoToEightCycles :
    (∃ t, step ({ placed [0xBD#8, 0xFF#8, 0x10#8] [] with x := 0x01#8 }) = .next t ∧ t.cyc = 5#64) ∧
    (∃ t, step ({ placed [0xF0#8, 0x80#8] [] with p := 0x26#8 }) = .next t ∧ t.cyc = 4#64) ∧
    (∃ t, step (placed [0x03#8, 0x10#8] []) = .next t ∧ t.cyc = 8#64) :=
  ⟨⟨_, rfl, rfl⟩, ⟨_, rfl, rfl⟩, ⟨_, rfl, rfl⟩⟩

/-- A form of each row of R120's table: the rows of EveryStepCostsTwoToEightCycles list instructions. -/
theorem witness_columns : Instr.lda (.mem .indY) ∈ readForms .indY 0x04#8 ∧ hasColumns (.lda (.mem .indY)) 2 5 true ∧
    Instr.sax .zpY ∈ storeForms .zpY ∧ hasColumns (.sax .zpY) 2 4 false ∧
    Instr.isc .absY ∈ rmwForms .absY ∧ hasColumns (.isc .absY) 3 7 false ∧
    Instr.sbc .imm true ∈ immediateForms 0x80#8 ∧ Instr.nop .implied 0xFA#8 ∈ registerForms 0xFA#8 ∧
    hasColumns (.nop .implied 0xFA#8) 1 2 false :=
  ⟨by decide, ⟨rfl, rfl, rfl⟩, by decide, ⟨rfl, rfl, rfl⟩, by decide, ⟨rfl, rfl, rfl⟩, by decide, by decide,
    ⟨rfl, rfl, rfl⟩⟩

/-- A form of each length that completes, PC at the wrap and past it. -/
theorem witness_PcAdvancesByTheLength :
    (Instr.pha ∈ registerForms 0xEA#8 ++ [.pha, .php, .pla, .plp] ∧
      ∃ t, exec .pha (loading.setPc 0xFFFF#16) = .next t ∧ t.pc = 0x0000#16) ∧
    (Instr.lda .imm ∈ immediateForms 0x80#8 ∧
      ∃ t, exec (.lda .imm) (loading.setPc 0xFFFF#16) = .next t ∧ t.pc = 0x0001#16) ∧
    (Instr.slo .indX ∈ readForms .indX 0x04#8 ++ storeForms .indX ++ rmwForms .indX ∧
      ∃ t, exec (.slo .indX) (loading.setPc 0xFFFE#16) = .next t ∧ t.pc = 0x0000#16) ∧
    (Instr.sta .abs ∈ readForms .abs 0x0C#8 ++ storeForms .abs ++ rmwForms .abs ∧
      ∃ t, exec (.sta .abs) (loading.setPc 0xFFFD#16) = .next t ∧ t.pc = 0x0000#16) :=
  ⟨⟨by decide, _, rfl, rfl⟩, ⟨by decide, _, rfl, rfl⟩, ⟨by decide, _, rfl, rfl⟩, ⟨by decide, _, rfl, rfl⟩⟩

theorem witness_ConstructionMakesTheMachineOfItsCartridge :
    (∃ s, State.construct { blankCartridge with prgRomBanks := [[], [(0x3FFF, 0x01#8)]] } = .ok s) ∧
    (({ blankCartridge with mapperId := 0xFF#8 }).mapperId ≠ 0x00#8 ∧ blankCartridge.prgRomBanks ≠ [] ∧
      ∀ m ∈ blankCartridge.prgRomBanks, Memory.wf 16384 m) ∧
    (List.replicate 16383 0x01#8).length ≠ 16384 ∧ (List.replicate 16384 0x01#8).length = 16384 :=
  ⟨⟨_, rfl⟩, ⟨by decide, by decide, by decide⟩, by rw [List.length_replicate]; decide, List.length_replicate⟩

theorem witness_OnlyStoresRaiseUnhandledWrite :
    step ({ placed [0x8D#8, 0x00#8, 0x20#8] [] with a := 0x80#8 }) = .fault (.unhandledWrite 0x2000#16 0x80#8) ∧
    step ({ placed [0x8E#8, 0xFF#8, 0x3F#8] [] with x := 0x01#8 }) = .fault (.unhandledWrite 0x3FFF#16 0x01#8) ∧
    step ({ placed [0x8C#8, 0x16#8, 0x40#8] [] with y := 0x02#8 }) = .fault (.unhandledWrite 0x4016#16 0x02#8) ∧
    step ({ placed [0x8F#8, 0xFF#8, 0x7F#8] [] with a := 0x0F#8, x := 0x3C#8 }) =
      .fault (.unhandledWrite 0x7FFF#16 0x0C#8) :=
  ⟨step_of_faults (by decide), step_of_faults (by decide), step_of_faults (by decide), step_of_faults (by decide)⟩

/-- Premises of PcAdvancesByTheLength, RegistersChangeOnlyByTheirWriters, FlagsChangeOnlyByTheirWriters and
MemoryChangesOnlyByStores, for an instruction of three bytes that writes no register. -/
theorem witness_frames : ∃ t, exec (.cmp (.mem .abs)) (placed [0xCD#8, 0xFF#8, 0x1F#8] []) = .next t ∧
    transfersControl (.cmp (.mem .abs)) = false ∧ storesMemory (.cmp (.mem .abs)) = false ∧
    writesA (.cmp (.mem .abs)) = false ∧ writesX (.cmp (.mem .abs)) = false ∧ writesY (.cmp (.mem .abs)) = false ∧
    writesSp (.cmp (.mem .abs)) = false :=
  ⟨_, rfl, by decide, by decide, by decide, by decide, by decide, by decide⟩

theorem witness_StorageFlagsHaveNoEffect :
    [Flag.i, .d, .b, .u].all (fun f => decide (f ∉ flagsWritten (.adc .imm))) = true ∧
    Flag.d ∉ flagsWritten .cli ∧ (Instr.cli ≠ .php) := by decide

/-- The last address of each row of the read column, and the first. -/
theorem witness_ReadColumnOfTheAddressMap : loading.bus.Inv ∧
    loading.bus.readByte 0x1FFF#16 = .next 0x00#8 ∧
    loading.bus.readByte 0x2000#16 = .fault (.unsupportedRead .ppu) ∧
    loading.bus.readByte 0x3FFF#16 = .fault (.unsupportedRead .ppu) ∧
    loading.bus.readByte 0x4000#16 = .fault (.unsupportedRead .apu) ∧
    loading.bus.readByte 0x4013#16 = .fault (.unsupportedRead .apu) ∧
    loading.bus.readByte 0x4014#16 = .fault (.unsupportedRead .ppuDma) ∧
    loading.bus.readByte 0x4015#16 = .fault (.unsupportedRead .apu) ∧
    loading.bus.readByte 0x4016#16 = .fault (.unsupportedRead .controller) ∧
    loading.bus.readByte 0x4017#16 = .fault (.unsupportedRead .controller) ∧
    loading.bus.readByte 0x4018#16 = .fault (.unsupportedRead .io) ∧
    loading.bus.readByte 0x5FFF#16 = .fault (.unsupportedRead .io) ∧
    loading.bus.readByte 0x6000#16 = .fault (.unsupportedRead .prgRam) ∧
    loading.bus.readByte 0x7FFF#16 = .fault (.unsupportedRead .prgRam) ∧
    loading.bus.readByte 0x8000#16 = .next 0xA5#8 ∧ loading.bus.readByte 0xBFFF#16 = .next 0x00#8 ∧
    loading.bus.readByte 0xC001#16 = .next 0xFF#8 ∧ loading.bus.readByte 0xFFFF#16 = .next 0x00#8 := by
  and_intros <;> first | exact witness_loading_inv | exact of_gives (by decide) | exact of_raises (by decide)

theorem witness_WriteColumnOfTheAddressMap :
    (∃ b, loading.bus.writeByte 0x1FFF#16 0x07#8 = .next b) ∧
    loading.bus.writeByte 0x2000#16 0x07#8 = .fault (.unhandledWrite 0x2000#16 0x07#8) ∧
    loading.bus.writeByte 0x3FFF#16 0x07#8 = .fault (.unhandledWrite 0x3FFF#16 0x07#8) ∧
    loading.bus.writeByte 0x4000#16 0x07#8 = .next loading.bus ∧
    loading.bus.writeByte 0x4015#16 0x07#8 = .next loading.bus ∧
    loading.bus.writeByte 0x4016#16 0x07#8 = .fault (.unhandledWrite 0x4016#16 0x07#8) ∧
    loading.bus.writeByte 0x7FFF#16 0x07#8 = .fault (.unhandledWrite 0x7FFF#16 0x07#8) ∧
    loading.bus.writeByte 0x8000#16 0x07#8 = .next loading.bus ∧
    loading.bus.writeByte 0xFFFF#16 0x07#8 = .next loading.bus :=
  ⟨⟨_, rfl⟩, rfl, rfl, rfl, rfl, rfl, rfl, rfl, rfl⟩

theorem witness_RamIsMirrored : loading.bus.readByte 0x1FFF#16 = loading.bus.readByte 0x07FF#16 ∧
    (0x1FFF#16).toNat < 0x2000 ∧ (0x07FF#16).toNat % 0x0800 = (0x1FFF#16).toNat % 0x0800 := by
  and_intros <;> first | exact of_gives (by decide) | exact of_raises (by decide) | decide

theorem witness_ReadWordIsLittleEndianWithoutWrap :
    (loading.bus.readByte 0xC000#16 = .next 0xA5#8 ∧ loading.bus.readByte (0xC000#16 + 1#16) = .next 0xFF#8 ∧
      loading.bus.readWord 0xC000#16 = .next 0xFFA5#16) ∧
    (loading.bus.readByte 0x1FFF#16 = .next 0x00#8 ∧
      loading.bus.readByte (0x1FFF#16 + 1#16) = .fault (.unsupportedRead .ppu)) ∧
    loading.bus.readByte 0xFFFF#16 = .next 0x00#8 ∧
    loading.bus.readByte 0x7FFF#16 = .fault (.unsupportedRead .prgRam) := by
  and_intros <;> first | exact of_gives (by decide) | exact of_raises (by decide)

theorem witness_OneBankCartridgeIsMirrored : loading.bus.Inv ∧ loading.bus.cart.prgRomBanks.length = 1 ∧ 0x3FFF < 0x4000 := by
  and_intros <;> first | exact witness_loading_inv | exact of_gives (by decide) | exact of_raises (by decide) | decide

/-- Premises of ZeroPageIndexingWrapsAt256 and ZeroPagePointersWrapAt256, the operand byte at the end of the page. -/
theorem witness_zero_page_modes : loading.bus.readByte (loading.pc + 1#16) = .next 0xFF#8 :=
  of_gives (by decide)

theorem witness_AbsoluteModesIndexTheOperandWord :
    (∃ l h, (loading.setPc 0xFFFD#16).bus.readByte 0xFFFE#16 = .next l ∧
      (loading.setPc 0xFFFD#16).bus.readByte 0xFFFF#16 = .next h) ∧
    (∃ l, (loading.setPc 0xFFFE#16).bus.readByte (0xFFFE#16 + 1#16) = .next l) :=
  ⟨⟨0x00#8, 0x00#8, of_gives (by decide), of_gives (by decide)⟩, ⟨0x00#8, of_gives (by decide)⟩⟩

theorem witness_IndirectModesReadTheirPointer :
    (operandWord (placed [0x6C#8, 0xFF#8, 0x02#8] [(0x2FF, 0x80#8)]) = .next 0x02FF#16 ∧
      (placed [0x6C#8, 0xFF#8, 0x02#8] [(0x2FF, 0x80#8)]).bus.readByte 0x02FF#16 = .next 0x80#8 ∧
      (placed [0x6C#8, 0xFF#8, 0x02#8] [(0x2FF, 0x80#8)]).bus.readByte 0x0200#16 = .next 0x00#8) ∧
    (operandWord (placed [0x6C#8, 0xFE#8, 0xFF#8] []) = .next 0xFFFE#16 ∧
      (placed [0x6C#8, 0xFE#8, 0xFF#8] []).bus.readByte 0xFFFE#16 = .next 0x00#8 ∧
      (placed [0x6C#8, 0xFE#8, 0xFF#8] []).bus.readByte (0xFFFE#16 + 1#16) = .next 0x00#8) ∧
    (operandWord (placed [0x6C#8, 0xFF#8, 0xFF#8] []) = .next 0xFFFF#16 ∧
      (placed [0x6C#8, 0xFF#8, 0xFF#8] []).bus.readByte 0xFFFF#16 = .next 0x00#8) ∧
    (operandWord (placed [0x6C#8, 0x00#8, 0x20#8] []) = .next 0x2000#16 ∧
      (placed [0x6C#8, 0x00#8, 0x20#8] []).bus.readByte 0x2000#16 = .fault (.unsupportedRead .ppu)) ∧
    (operandWord (placed [0x6C#8, 0xFF#8, 0x1F#8] []) = .next 0x1FFF#16 ∧
      (placed [0x6C#8, 0xFF#8, 0x1F#8] []).bus.readByte 0x1FFF#16 = .next 0x00#8 ∧
      (placed [0x6C#8, 0xFF#8, 0x1F#8] []).bus.readByte (0x1FFF#16 + 1#16) = .fault (.unsupportedRead .ppu)) := by
  and_intros <;> first | exact of_gives (by decide) | exact of_raises (by decide)

theorem witness_ReadableOperandsResolve : (loading.setPc 0xFFFD#16).Inv ∧ readable (0xFFFD#16 + 1#16) ∧
    readable (0xFFFD#16 + 2#16) ∧ readable (0x1FFD#16 + 2#16) ∧ (0xFFFD#16).toNat ≠ 0xFFFE ∧
    loading.bus.readByte (0x1FFF#16 + 1#16) = .fault (.unsupportedRead .ppu) ∧
    loading.bus.readByte (0x1FFE#16 + 1#16) = .next 0x00#8 ∧ (0x1FFE#16).toNat ≠ 0xFFFE ∧
    loading.bus.readByte (0x1FFE#16 + 2#16) = .fault (.unsupportedRead .ppu) := by
  and_intros <;> first | exact witness_loading_inv | exact of_gives (by decide) | exact of_raises (by decide) | decide

/-- Premises of the statements of the read-class instructions: LoadsReplaceTheRegister, AdcAddsWithCarry,
SbcSubtractsWithBorrow, LogicalInstructionsCombineBits, BitTestsTheByteRead and ComparisonsSetFlagsAlone; and of
ReadModifyWriteStoresBack. -/
theorem witness_read_class :
    (resolve (MemMode.mode .zp) loading = .next ⟨0x00FF#16, false⟩ ∧ loading.bus.readByte 0x00FF#16 = .next 0x80#8) ∧
    (resolve (DataMode.mode .imm) loading = .next ⟨0xC001#16, false⟩ ∧ loading.bus.readByte 0xC001#16 = .next 0xFF#8) := by
  and_intros <;> exact of_gives (by decide)

/-- An address of each clause: RAM, dropped, neither. -/
theorem witness_StoresWriteTheResolvedAddress :
    (resolve (MemMode.mode .abs) (placed [0x8D#8, 0xFF#8, 0x1F#8] []) = .next ⟨0x1FFF#16, false⟩ ∧ inRam 0x1FFF#16) ∧
    (resolve (MemMode.mode .abs) (placed [0x8D#8, 0x15#8, 0x40#8] []) = .next ⟨0x4015#16, false⟩ ∧ dropped 0x4015#16) ∧
    (resolve (MemMode.mode .abs) (placed [0x8D#8, 0xFF#8, 0xFF#8] []) = .next ⟨0xFFFF#16, false⟩ ∧ dropped 0xFFFF#16) ∧
    (resolve (MemMode.mode .abs) (placed [0x8D#8, 0xFF#8, 0x7F#8] []) = .next ⟨0x7FFF#16, false⟩ ∧
      ¬ inRam 0x7FFF#16 ∧ ¬ dropped 0x7FFF#16) := by
  and_intros <;> first | exact of_gives (by decide) | exact of_raises (by decide) | decide

theorem witness_ShiftsMoveOneBit : ∃ (i : Instr) (f : Byte → Byte → Byte × Byte),
    (i, f) ∈ [(Instr.asl .acc, asl), (.lsr .acc, lsr), (.rol .acc, rol), (.ror .acc, ror)] :=
  ⟨.asl .acc, asl, by simp⟩

theorem witness_BranchesTestTheirFlag :
    ((Instr.bcc, Flag.c, false) ∈ [(Instr.bcc, Flag.c, false), (.bcs, .c, true)] ∧
      (placed [0x90#8, 0x80#8] []).bus.readByte (0xC000#16 + 1#16) = .next 0x80#8 ∧
      0xBF82#16 = 0xC000#16 + 2#16 + BitVec.ofInt 16 ((0x80 : Int) - 256)) ∧
    (loading.setPc 0x1FFF#16).bus.readByte (0x1FFF#16 + 1#16) = .fault (.unsupportedRead .ppu) := by
  and_intros <;> first | exact of_gives (by decide) | exact of_raises (by decide) | decide

theorem witness_JmpGoesToItsTarget :
    resolve (JmpMode.mode .ind) (placed [0x6C#8, 0xFF#8, 0x02#8] []) = .next ⟨0x0000#16, false⟩ ∧
    resolve (JmpMode.mode .abs) (loading.setPc 0xFFFE#16) = .fault (.unsupportedRead .outOfRange) := by
  and_intros <;> first | exact of_gives (by decide) | exact of_raises (by decide)

/-- Premises of JsrPushesTheReturnAddress and JsrThenRtsComesBack. -/
theorem witness_jsr : operandWord (placed [0x20#8, 0x23#8, 0xC1#8] []) = .next 0xC123#16 ∧
    operandWord (loading.setPc 0xFFFE#16) = .fault (.unsupportedRead .outOfRange) := by
  and_intros <;> first | exact of_gives (by decide) | exact of_raises (by decide)

theorem witness_FlagInstructionsWriteOneBit :
    (Instr.clv, Flag.v, false) ∈ [(Instr.clc, Flag.c, false), (.sec, .c, true), (.cli, .i, false), (.sei, .i, true),
      (.clv, .v, false), (.cld, .d, false), (.sed, .d, true)] := by decide

theorem witness_NopChangesOnlyPcAndCycles : 0xFC#8 ∈ nopBytes (.operand (.mem .absX)) ∧
    (resolve (DataMode.mode .imm) loading = .next ⟨0xC001#16, false⟩ ∧ loading.bus.readByte 0xC001#16 = .next 0xFF#8) ∧
    (resolve (DataMode.mode (.mem .abs)) (placed [0x0C#8, 0x00#8, 0x20#8] []) = .next ⟨0x2000#16, false⟩ ∧
      (placed [0x0C#8, 0x00#8, 0x20#8] []).bus.readByte 0x2000#16 = .fault (.unsupportedRead .ppu)) ∧
    resolve (DataMode.mode (.mem .abs)) (loading.setPc 0xFFFE#16) = .fault (.unsupportedRead .outOfRange) := by
  and_intros <;> first | exact of_gives (by decide) | exact of_raises (by decide) | decide

/-- Premises of ShiftCompositesCombineTheSecondByte and ArithmeticCompositesUseTheSecondByte: SLO moving its own pointer
(95_test_vectors.md 2.6), and RRA, ISC, DCP in the zero page. -/
theorem witness_composites :
    (∃ b res2, resolve (MemMode.mode .indX) (placed [0x03#8, 0x10#8] [(0x010, 0x10#8), (0x020, 0x0F#8)]) =
        .next ⟨0x0010#16, false⟩ ∧
      (placed [0x03#8, 0x10#8] [(0x010, 0x10#8), (0x020, 0x0F#8)]).bus.writeByte 0x0010#16 0x20#8 = .next b ∧
      resolve (MemMode.mode .indX) { placed [0x03#8, 0x10#8] [(0x010, 0x10#8), (0x020, 0x0F#8)] with bus := b } =
        .next res2 ∧ b.readByte res2.address = .next 0x0F#8) ∧
    [0x01#8, 0x03#8, 0x81#8].all (fun w =>
      match (placed [0x67#8, 0x10#8] [(0x010, 0x02#8)]).bus.writeByte 0x0010#16 w with
      | .next b => (match b.readByte 0x0010#16 with | .next v2 => decide (v2 = w) | _ => false)
      | _ => false) = true :=
  ⟨⟨_, _, rfl, rfl, rfl, rfl⟩, by decide⟩

theorem witness_CompositesOnRomUseTheOldByte :
    resolve (MemMode.mode .abs) (placed [0x0F#8, 0x00#8, 0x80#8] []) = .next ⟨0x8000#16, false⟩ ∧
    (placed [0x0F#8, 0x00#8, 0x80#8] []).bus.readByte 0x8000#16 = .next 0x0F#8 ∧ 0x8000 ≤ (0x8000#16).toNat := by
  and_intros <;> first | exact of_gives (by decide) | exact of_raises (by decide) | decide

theorem witness_CompositesFromRomCombineTheModifiedByte :
    MemMode.absY ∉ [MemMode.indX, .indY] ∧ 0x8000 ≤ (0xFFFC#16).toNat ∧ (0xFFFC#16).toNat < 0xFFFD ∧
    resolve (MemMode.mode .absY) ((placed [] []).setPc 0xFFFC#16) = .next ⟨0x0000#16, false⟩ ∧
    (placed [] []).bus.readByte 0x0000#16 = .next 0x00#8 ∧ inRam 0x0000#16 := by
  and_intros <;> first | exact of_gives (by decide) | exact of_raises (by decide) | decide

/-- A store at `$0102`, the byte right after the instruction itself. -/
theorem witness_StoredByteIsFetchedNext :
    ∃ t, (Instr.sta .abs, 0xE8#8) ∈ [(Instr.sta .abs, 0xE8#8), (.stx .abs, 0x00#8)] ∧ resolve (MemMode.mode .abs) ({ placed [] [(0x0FF, 0x8D#8), (0x100, 0x02#8), (0x101, 0x01#8)] with
        pc := 0x00FF#16, a := 0xE8#8 }) = .next ⟨0x0102#16, false⟩ ∧ inRam 0x0102#16 ∧
      exec (.sta .abs) ({ placed [] [(0x0FF, 0x8D#8), (0x100, 0x02#8), (0x101, 0x01#8)] with
        pc := 0x00FF#16, a := 0xE8#8 }) = .next t ∧ sameRamByte 0x0102#16 t.pc :=
  ⟨_, by decide, rfl, by decide, rfl, by decide⟩

/-- SLO `($0F,X)` whose pointer lies at `$000F` and whose target is the pointer's own second byte, through a mirror. -/
def faultingComposite : State := placed [0x03#8, 0x0F#8] [(0x00F, 0x10#8), (0x010, 0x10#8)]

/-- A mode that stops, for a store too; a read that stops; an immediate operand that cannot be read; a composite whose
second read stops; a run of one completed step that then stops. -/
theorem witness_FaultsComeInAccessOrder :
    (Instr.sta .zp ∈ readForms .zp 0x04#8 ++ storeForms .zp ++ rmwForms .zp ∧
      resolve (MemMode.mode .zp) (loading.setPc 0x1FFF#16) = .fault (.unsupportedRead .ppu)) ∧
    (resolve (MemMode.mode .abs) (placed [0xAD#8, 0xFF#8, 0x7F#8] []) = .next ⟨0x7FFF#16, false⟩ ∧
      (placed [0xAD#8, 0xFF#8, 0x7F#8] []).bus.readByte 0x7FFF#16 = .fault (.unsupportedRead .prgRam)) ∧
    (Instr.sbc .imm true ∈ immediateForms 0x80#8 ∧
      loading.bus.readByte (0x1FFF#16 + 1#16) = .fault (.unsupportedRead .ppu)) ∧
    (resolve (MemMode.mode .indX) faultingComposite = .next ⟨0x1010#16, false⟩ ∧
      faultingComposite.bus.readByte 0x1010#16 = .next 0x10#8 ∧
      ∃ b res2, faultingComposite.bus.writeByte 0x1010#16 (asl 0x10#8 faultingComposite.p).1 = .next b ∧
        resolve (MemMode.mode .indX) { faultingComposite with bus := b } = .next res2 ∧
        b.readByte res2.address = .fault (.unsupportedRead .ppu)) ∧
    step faultingComposite = .fault (.unsupportedRead .ppu) ∧
    ∃ t, (placed [0xE8#8, 0x02#8] []).run 1 = (t, .host) ∧ step t = .fault (.unknownOpcode 0x02#8) := by
  refine ⟨⟨by decide, of_raises (by decide)⟩, ⟨of_gives (by decide), of_raises (by decide)⟩, ⟨by decide, of_raises (by decide)⟩,
    ⟨of_gives (by decide), of_gives (by decide), ?_⟩, step_of_faults (by decide), ⟨_, rfl, step_of_faults (by decide)⟩⟩
  exact ⟨_, _, rfl, rfl, of_raises (by decide)⟩

/-- `LDA absolute` at the end of RAM, one byte before it, and at `$FFFE`: each way its operand word faults. -/
def tracedAt (pc : Word) : State := (loading.setBus (loading.bus.layByte pc 0xAD#8)).setPc pc

/-- A disassembly text of 31 characters, the widest; bytes that can be fetched, of each length, and bytes that cannot. -/
theorem witness_TraceLineHasItsColumns : ((List.replicate 31 'x').map Char.toUpper).length ≤ 31 ∧
    instrBytes (placed [0xE8#8] []) = .next [0xE8#8] ∧
    instrBytes loading = .next [0xA5#8, 0xFF#8] ∧
    instrBytes (placed [0x4C#8, 0xF5#8, 0xC5#8] []) = .next [0x4C#8, 0xF5#8, 0xC5#8] ∧
    instrBytes (placed [0x02#8] []) = .next [0x02#8] ∧
    (instrLength (decodeByte 0xA5#8) = some 2 ∧ instrLength (decodeByte 0xAD#8) = some 3) ∧
    ((tracedAt 0x1FFF#16).bus.readByte 0x1FFF#16 = .next 0xAD#8 ∧
      (tracedAt 0x1FFF#16).bus.readByte (0x1FFF#16 + 1#16) = .fault (.unsupportedRead .ppu)) ∧
    ((tracedAt 0x1FFE#16).bus.readByte (0x1FFE#16 + 1#16) = .next 0x00#8 ∧
      (tracedAt 0x1FFE#16).bus.readByte (0x1FFE#16 + 2#16) = .fault (.unsupportedRead .ppu)) ∧
    ((tracedAt 0xFFFE#16).bus.readByte 0xFFFE#16 = .next 0xAD#8 ∧
      (tracedAt 0xFFFE#16).bus.readByte (0xFFFE#16 + 1#16) = .next 0x00#8 ∧
      instrBytes (tracedAt 0xFFFE#16) = .fault (.unsupportedRead .outOfRange)) ∧
    instrBytes (loading.setPc 0x2000#16) = .fault (.unsupportedRead .ppu) := by
  and_intros <;> first | exact of_gives (by decide) | exact of_raises (by decide) | decide

end Sys2Proof.Tests
end

section
/-! What an instruction may change (10_state.md R20 to R24, R36 to R39, R45; 20_memory.md R76): one frame theorem over
`exec`, `exec_within`, from which the invariants and the frames of registers and flags are read off. -/

namespace Sys2Proof.Machine

/-! ## What a step is -/

/-- R140: a step that completes fetched a byte at PC and completed the instruction it decodes to. -/
theorem step_next {s t : State} (h : step s = .next t) :
    ∃ op, s.bus.readByte s.pc = .next op ∧ exec (decodeByte op) s = .next t :=
  Result.bind_eq_next.mp h

/-! ## Buses reached by writes -/

/-- R76: `b'` is reached from `b` by writes through the bus, any number of them. -/
def Bus.Written : Bus → Bus → Prop :=
  Relation.ReflTransGen fun b b' => ∃ addr v, b.writeByte addr v = .next b'

/-- Writes keep the invariant of the bus. -/
theorem Bus.Written.inv {b b' : Bus} (h : b.Written b') (hi : b.Inv) : b'.Inv := by
  induction h with
  | refl => exact hi
  | tail _ hw ih =>
    obtain ⟨_, _, hw⟩ := hw
    exact Bus.writeByte_inv ih hw

/-- Writes change nothing but RAM. -/
theorem Bus.Written.kept {b b' : Bus} (h : b.Written b') :
    b'.cart = b.cart ∧ b'.mapper = b.mapper ∧ b'.lowerBank = b.lowerBank ∧ b'.upperBank = b.upperBank := by
  induction h with
  | refl => exact ⟨rfl, rfl, rfl, rfl⟩
  | tail _ hw ih =>
    obtain ⟨_, _, hw⟩ := hw
    obtain ⟨hc, hm, hl, hu⟩ := ih
    obtain ⟨hc', hm', hl', hu'⟩ := Bus.writeByte_kept hw
    exact ⟨hc'.trans hc, hm'.trans hm, hl'.trans hl, hu'.trans hu⟩

/-! ## Footprints -/

/-- What may change besides PC and CYC: each register, the bytes of memory, and which flags. -/
structure Footprint where
  a : Bool := false
  x : Bool := false
  y : Bool := false
  sp : Bool := false
  stores : Bool := false
  flags : List Flag := []

/-- R20 to R24, R76, R45: the footprint the spec's tables give an instruction. -/
def footprint (i : Instr) : Footprint where
  a := writesA i
  x := writesX i
  y := writesY i
  sp := writesSp i
  stores := storesMemory i
  flags := flagsWritten i

/-- From `s` to `t` nothing outside the footprint changed, and memory changed by bus writes alone. -/
structure Within (w : Footprint) (s t : State) : Prop where
  a : w.a = false → t.a = s.a
  x : w.x = false → t.x = s.x
  y : w.y = false → t.y = s.y
  sp : w.sp = false → t.sp = s.sp
  bus : w.stores = false → t.bus = s.bus
  flags : flagsKept w.flags s.p t.p
  written : s.bus.Written t.bus

theorem flagsKept_trans {fl : List Flag} {p q r : Byte} (h : flagsKept fl p q) (h' : flagsKept fl q r) :
    flagsKept fl p r :=
  fun f hf => (h' f hf).trans (h f hf)

theorem flagsKept_mono {fl fl' : List Flag} {p q : Byte} (h : flagsKept fl p q) (hs : fl ⊆ fl') :
    flagsKept fl' p q :=
  fun f hf => h f fun hm => hf (hs hm)

namespace Within

variable {w : Footprint} {s t u : State}

theorem refl (w : Footprint) (s : State) : Within w s s :=
  ⟨fun _ => rfl, fun _ => rfl, fun _ => rfl, fun _ => rfl, fun _ => rfl, fun _ _ => rfl, .refl⟩

theorem trans (h : Within w s t) (h' : Within w t u) : Within w s u where
  a hw := (h'.a hw).trans (h.a hw)
  x hw := (h'.x hw).trans (h.x hw)
  y hw := (h'.y hw).trans (h.y hw)
  sp hw := (h'.sp hw).trans (h.sp hw)
  bus hw := (h'.bus hw).trans (h.bus hw)
  flags := flagsKept_trans h.flags h'.flags
  written := h.written.trans h'.written

/-- PC and CYC lie outside every footprint. -/
theorem setPc_setCyc (h : Within w s t) (pc : Word) (cyc : BitVec 64) : Within w s ((t.setPc pc).setCyc cyc) :=
  ⟨h.a, h.x, h.y, h.sp, h.bus, h.flags, h.written⟩

theorem setA (h : Within w s t) (hw : w.a = true) (v : Byte) : Within w s (t.setA v) :=
  { h with a := by simp [hw] }

theorem setX (h : Within w s t) (hw : w.x = true) (v : Byte) : Within w s (t.setX v) :=
  { h with x := by simp [hw] }

theorem setY (h : Within w s t) (hw : w.y = true) (v : Byte) : Within w s (t.setY v) :=
  { h with y := by simp [hw] }

theorem setSp (h : Within w s t) (hw : w.sp = true) (v : Byte) : Within w s (t.setSp v) :=
  { h with sp := by simp [hw] }

theorem setP (h : Within w s t) {q : Byte} (hq : flagsKept w.flags t.p q) : Within w s (t.setP q) :=
  { h with flags := flagsKept_trans h.flags hq }

theorem setBus (h : Within w s t) (hw : w.stores = true) {b : Bus} {addr : Word} {v : Byte}
    (hb : t.bus.writeByte addr v = .next b) : Within w s (t.setBus b) :=
  { h with bus := by simp [hw], written := h.written.tail ⟨addr, v, hb⟩ }

/-- A footprint may be widened by further flags. -/
theorem widen_flags (h : Within w s t) {fl : List Flag} (hs : w.flags ⊆ fl) : Within { w with flags := fl } s t :=
  { h with flags := flagsKept_mono h.flags hs }

end Within

/-! ## The flags each computation leaves -/

theorem setFlag_kept (f : Flag) (v : Bool) (p : Byte) : flagsKept [f] p (setFlag f v p) := by
  intro g hg
  rw [flag_setFlag, if_neg (by simpa using hg)]

/-- R165: the pair of flags `setZN` writes lies in every row that lists both. -/
theorem setZN_kept {fl : List Flag} (hn : .n ∈ fl) (hz : .z ∈ fl) {p q : Byte} (h : flagsKept fl p q) (v : Byte) :
    flagsKept fl p (setZN v q) := by
  intro f hf
  rw [flag_setZN, if_neg (by rintro rfl; exact hf hn), if_neg (by rintro rfl; exact hf hz), h f hf]

theorem setZN_kept_self (v p : Byte) : flagsKept [.n, .z] p (setZN v p) :=
  setZN_kept (by simp) (by simp) (fun _ _ => rfl) v

/-- The shifts write the carry, then Z and N. -/
theorem setZN_carry_kept (v : Byte) (c : Bool) (p : Byte) : flagsKept [.n, .z, .c] p (setZN v (setFlag .c c p)) :=
  setZN_kept (by simp) (by simp) (flagsKept_mono (setFlag_kept .c c p) (by simp)) v

/-- ADC and SBC write carry and overflow, then Z and N. -/
theorem setZN_overflow_carry_kept (r : Byte) (v c : Bool) (p : Byte) :
    flagsKept [.n, .v, .z, .c] p (setZN r (setFlag .v v (setFlag .c c p))) :=
  setZN_kept (by simp) (by simp)
    (flagsKept_trans (flagsKept_mono (setFlag_kept .c c p) (by simp))
      (flagsKept_mono (setFlag_kept .v v _) (by simp))) r

theorem compareStatus_kept (reg m p : Byte) : flagsKept [.n, .z, .c] p (compareStatus reg m p) := by
  intro f hf
  simp only [List.mem_cons, List.not_mem_nil, or_false, not_or] at hf
  simp [flag_compareStatus, hf]

theorem bitTest_kept (a m p : Byte) : flagsKept [.n, .v, .z] p (bitTest a m p) := by
  intro f hf
  simp only [List.mem_cons, List.not_mem_nil, or_false, not_or] at hf
  simp [flag_bitTest, hf]

/-- R26: the row of PLP and RTI lists every flag. -/
theorem mem_allFlags (f : Flag) : f ∈ [Flag.n, .v, .u, .b, .d, .i, .z, .c] := by
  cases f <;> decide

/-- R252, R263: PLP and RTI may write every flag. -/
theorem allFlags_kept (p q : Byte) : flagsKept [.n, .v, .u, .b, .d, .i, .z, .c] p q :=
  fun f hf => absurd (mem_allFlags f) hf

/-! ## The footprint of each effect -/

theorem loadA_within (v : Byte) (s : State) : Within { a := true, flags := [.n, .z] } s (loadA v s) :=
  ((Within.refl _ s).setA rfl v).setP (setZN_kept_self v s.p)

theorem loadX_within (v : Byte) (s : State) : Within { x := true, flags := [.n, .z] } s (loadX v s) :=
  ((Within.refl _ s).setX rfl v).setP (setZN_kept_self v s.p)

theorem loadY_within (v : Byte) (s : State) : Within { y := true, flags := [.n, .z] } s (loadY v s) :=
  ((Within.refl _ s).setY rfl v).setP (setZN_kept_self v s.p)

theorem loadAX_within (v : Byte) (s : State) : Within { a := true, x := true, flags := [.n, .z] } s (loadAX v s) :=
  (((Within.refl _ s).setA rfl v).setX rfl v).setP (setZN_kept_self v s.p)

theorem addToA_within (v : Byte) (s : State) :
    Within { a := true, flags := [.n, .v, .z, .c] } s (addToA v s) :=
  ((Within.refl _ s).setA rfl _).setP (setZN_overflow_carry_kept _ _ _ s.p)

theorem subtractFromA_within (v : Byte) (s : State) :
    Within { a := true, flags := [.n, .v, .z, .c] } s (subtractFromA v s) :=
  ((Within.refl _ s).setA rfl _).setP (setZN_overflow_carry_kept _ _ _ s.p)

theorem compareA_within (v : Byte) (s : State) : Within { flags := [.n, .z, .c] } s (compareA v s) :=
  (Within.refl _ s).setP (compareStatus_kept s.a v s.p)

theorem compareX_within (v : Byte) (s : State) : Within { flags := [.n, .z, .c] } s (compareX v s) :=
  (Within.refl _ s).setP (compareStatus_kept s.x v s.p)

theorem compareY_within (v : Byte) (s : State) : Within { flags := [.n, .z, .c] } s (compareY v s) :=
  (Within.refl _ s).setP (compareStatus_kept s.y v s.p)

theorem testA_within (v : Byte) (s : State) : Within { flags := [.n, .v, .z] } s (testA v s) :=
  (Within.refl _ s).setP (bitTest_kept s.a v s.p)

/-! ## The footprint of each template and of the stack operations -/

section
variable {w : Footprint} {s t : State}

/-- R142, R143: retiring moves PC and CYC alone. -/
theorem Within.retire (h : Within w s t) (len cost : Nat) : Within w s (t.retire len cost) :=
  h.setPc_setCyc _ _

/-- A control transfer moves PC and CYC alone. -/
theorem Within.transfer (h : Within w s t) (pc : Word) (cost : Nat) : Within w s ((t.setPc pc).charge cost) :=
  h.setPc_setCyc _ _

theorem readTemplate_within {m : DataMode} {effect : Byte → State → State}
    (h : readTemplate m effect s = .next t) (he : ∀ v s, Within w s (effect v s)) : Within w s t := by
  obtain ⟨res, v, _, _, rfl⟩ := readTemplate_next h
  exact (he v s).retire _ _

theorem storeTemplate_within {m : MemMode} {v : Byte} (h : storeTemplate m v s = .next t) :
    Within { stores := true } s t := by
  obtain ⟨res, b, _, hb, rfl⟩ := storeTemplate_next h
  exact ((Within.refl _ s).setBus rfl hb).retire _ _

theorem rmwTemplate_within {m : MemMode} {f : Byte → Byte → Byte × Byte} {fl : List Flag}
    (h : rmwTemplate m f s = .next t) (hf : ∀ v p, flagsKept fl p (f v p).2) :
    Within { stores := true, flags := fl } s t := by
  obtain ⟨res, v, b, _, _, hb, rfl⟩ := rmwTemplate_next h
  exact (((Within.refl _ s).setBus rfl hb).setP (hf v s.p)).retire _ _

/-- The accumulator form of a shift. -/
theorem shiftTemplate_acc_within {f : Byte → Byte → Byte × Byte} {fl : List Flag}
    (h : shiftTemplate .acc f s = .next t) (hf : ∀ v p, flagsKept fl p (f v p).2) :
    Within { a := true, flags := fl } s t := by
  cases h
  exact (((Within.refl _ s).setA rfl _).setP (hf s.a s.p)).retire _ _

/-- R290: a composite keeps what both of its primitives keep. -/
theorem compositeTemplate_within {m : MemMode} {f : Byte → Byte → Byte × Byte} {effect : Byte → State → State}
    {fl : List Flag} {a : Bool} (h : compositeTemplate m f effect s = .next t)
    (hf : ∀ v p, flagsKept fl p (f v p).2) (he : ∀ v s, Within { a := a, flags := fl } s (effect v s)) :
    Within { a := a, stores := true, flags := fl } s t := by
  obtain ⟨res, v, b, res2, v2, _, _, hb, _, _, rfl⟩ := compositeTemplate_next h
  have first : Within { a := a, stores := true, flags := fl } s (rewound s b (f v s.p).2) :=
    ((Within.refl _ s).setBus rfl hb).setP (hf v s.p)
  have second := he v2 (rewound s b (f v s.p).2)
  have both := first.trans { second with bus := nofun }
  exact (both.setPc_setCyc s.pc s.cyc).retire _ _

theorem branchTemplate_within {taken : Bool} (h : branchTemplate taken s = .next t) : Within {} s t := by
  obtain ⟨d, _, rfl⟩ := branchTemplate_next h
  cases taken
  · exact (Within.refl _ s).retire 2 2
  · exact (Within.refl _ s).transfer _ _

theorem flagTemplate_within {f : Flag} {value : Bool} (h : flagTemplate f value s = .next t) :
    Within { flags := [f] } s t := by
  cases h
  exact ((Within.refl _ s).setP (setFlag_kept f value s.p)).retire _ _

theorem push_within {v : Byte} (h : push v s = .next t) : Within { sp := true, stores := true } s t := by
  rw [push_eq] at h
  cases h
  exact ((Within.refl _ s).setBus rfl (pushedBus_write v s)).setSp rfl _

theorem pushWord_within {v : Word} (h : pushWord v s = .next t) : Within { sp := true, stores := true } s t := by
  obtain ⟨s1, h1, h2⟩ := Result.bind_eq_next.mp h
  exact (push_within h1).trans (push_within h2)

theorem pop_within {v : Byte} (hsp : w.sp = true) (h : pop s = .next (v, t)) : Within w s t := by
  rw [pop_eq] at h
  cases h
  exact (Within.refl _ s).setSp hsp _

theorem popWord_within {v : Word} (hsp : w.sp = true) (h : popWord s = .next (v, t)) : Within w s t := by
  rw [popWord_eq] at h
  cases h
  exact (Within.refl _ s).setSp hsp _

end

/-! ## The footprint of the instructions that are no template -/

section
variable {s t : State}

theorem execNop_within {m : NopMode} (op : Byte) (h : execNop m op s = .next t) : Within {} s t := by
  cases m with
  | implied => cases h; exact (Within.refl _ s).retire 1 2
  | operand m => exact readTemplate_within h (fun _ s => Within.refl _ s)

theorem execJmp_within {m : JmpMode} (h : execJmp m s = .next t) : Within {} s t := by
  obtain ⟨res, _, h⟩ := Result.bind_eq_next.mp h
  cases h
  exact (Within.refl _ s).transfer _ _

theorem execJsr_within (h : execJsr s = .next t) : Within { sp := true, stores := true } s t := by
  obtain ⟨res, _, h⟩ := Result.bind_eq_next.mp h
  obtain ⟨s1, h1, h⟩ := Result.bind_eq_next.mp h
  cases h
  exact (pushWord_within h1).transfer _ _

theorem execRts_within (h : execRts s = .next t) : Within { sp := true } s t := by
  obtain ⟨⟨v, s1⟩, h1, h⟩ := Result.bind_eq_next.mp h
  cases h
  exact (popWord_within rfl h1).transfer _ _

theorem execRti_within (h : execRti s = .next t) :
    Within { sp := true, flags := [.n, .v, .u, .b, .d, .i, .z, .c] } s t := by
  obtain ⟨⟨v, s1⟩, h1, h⟩ := Result.bind_eq_next.mp h
  obtain ⟨⟨pc, s2⟩, h2, h⟩ := Result.bind_eq_next.mp h
  cases h
  exact (((pop_within rfl h1).setP (allFlags_kept _ _)).trans (popWord_within rfl h2)).transfer _ _

/-- PHA and PHP: one push. -/
theorem push_retire_within {v : Byte}
    (h : ((push v s).bind fun s' => Host.Outcome.next (s'.retire 1 3)) = .next t) :
    Within { sp := true, stores := true } s t := by
  obtain ⟨s1, h1, h⟩ := Result.bind_eq_next.mp h
  cases h
  exact (push_within h1).retire _ _

theorem execPla_within (h : execPla s = .next t) : Within { a := true, sp := true, flags := [.n, .z] } s t := by
  obtain ⟨⟨v, s1⟩, h1, h⟩ := Result.bind_eq_next.mp h
  cases h
  exact (((pop_within rfl h1).setA rfl v).setP (setZN_kept_self v s1.p)).retire _ _

theorem execPlp_within (h : execPlp s = .next t) :
    Within { sp := true, flags := [.n, .v, .u, .b, .d, .i, .z, .c] } s t := by
  obtain ⟨⟨v, s1⟩, h1, h⟩ := Result.bind_eq_next.mp h
  cases h
  exact ((pop_within rfl h1).setP (allFlags_kept _ _)).retire _ _

/-- The implied instructions: one update of the state, one byte, two cycles. -/
theorem implied_within {w : Footprint} {u : State} (hu : Within w s u)
    (h : (Host.Outcome.next (u.retire 1 2) : Result State) = .next t) : Within w s t := by
  cases h
  exact hu.retire 1 2

end

/-- An instruction that completes changes nothing outside its footprint (R20 to R24, R45, R76). -/
theorem exec_within {i : Instr} {s t : State} (h : exec i s = .next t) : Within (footprint i) s t := by
  cases i with
  | unimplemented op => cases h
  | lda m => exact readTemplate_within h loadA_within
  | ldx m => exact readTemplate_within h loadX_within
  | ldy m => exact readTemplate_within h loadY_within
  | lax m => exact readTemplate_within h loadAX_within
  | adc m => exact readTemplate_within h addToA_within
  | sbc m undocumented => exact readTemplate_within h subtractFromA_within
  | and m => exact readTemplate_within h (fun v s => loadA_within (s.a &&& v) s)
  | ora m => exact readTemplate_within h (fun v s => loadA_within (s.a ||| v) s)
  | eor m => exact readTemplate_within h (fun v s => loadA_within (s.a ^^^ v) s)
  | cmp m => exact readTemplate_within h compareA_within
  | cpx m => exact readTemplate_within h compareX_within
  | cpy m => exact readTemplate_within h compareY_within
  | bit m => exact readTemplate_within h testA_within
  | nop m op => exact execNop_within op h
  | sta m | stx m | sty m | sax m => exact storeTemplate_within h
  | asl m | lsr m | rol m | ror m =>
    cases m with
    | acc => exact shiftTemplate_acc_within h (fun _ _ => setZN_carry_kept _ _ _)
    | mem m => exact rmwTemplate_within h (fun _ _ => setZN_carry_kept _ _ _)
  | inc m | dec m => exact rmwTemplate_within h (fun _ _ => setZN_kept_self _ _)
  | slo m =>
    exact compositeTemplate_within h (fun _ _ => setZN_carry_kept _ _ _)
      (fun v s => (loadA_within (s.a ||| v) s).widen_flags (by simp [flagsWritten]))
  | sre m =>
    exact compositeTemplate_within h (fun _ _ => setZN_carry_kept _ _ _)
      (fun v s => (loadA_within (s.a ^^^ v) s).widen_flags (by simp [flagsWritten]))
  | rla m =>
    exact compositeTemplate_within h (fun _ _ => setZN_carry_kept _ _ _)
      (fun v s => (loadA_within (s.a &&& v) s).widen_flags (by simp [flagsWritten]))
  | rra m =>
    exact compositeTemplate_within h (fun _ _ => flagsKept_mono (setZN_carry_kept _ _ _) (by simp [flagsWritten]))
      addToA_within
  | dcp m =>
    exact compositeTemplate_within h (fun _ _ => flagsKept_mono (setZN_kept_self _ _) (by simp [flagsWritten]))
      compareA_within
  | isc m =>
    exact compositeTemplate_within h (fun _ _ => flagsKept_mono (setZN_kept_self _ _) (by simp [flagsWritten]))
      subtractFromA_within
  | tax => exact implied_within (loadX_within s.a s) h
  | tay => exact implied_within (loadY_within s.a s) h
  | txa => exact implied_within (loadA_within s.x s) h
  | tya => exact implied_within (loadA_within s.y s) h
  | tsx => exact implied_within (loadX_within s.sp s) h
  | txs => exact implied_within ((Within.refl _ s).setSp rfl s.x) h
  | inx => exact implied_within (loadX_within (s.x + 1#8) s) h
  | dex => exact implied_within (loadX_within (s.x - 1#8) s) h
  | iny => exact implied_within (loadY_within (s.y + 1#8) s) h
  | dey => exact implied_within (loadY_within (s.y - 1#8) s) h
  | clc | sec | cli | sei | clv | cld | sed => exact flagTemplate_within h
  | bcc | bcs | bne | beq | bpl | bmi | bvc | bvs => exact branchTemplate_within h
  | jmp m => exact execJmp_within h
  | jsr => exact execJsr_within h
  | rts => exact execRts_within h
  | rti => exact execRti_within h
  | pha | php => exact push_retire_within h
  | pla => exact execPla_within h
  | plp => exact execPlp_within h

/-- A step's bus is the bus before it after writes through the bus. -/
theorem step_written {s t : State} (h : step s = .next t) : s.bus.Written t.bus := by
  obtain ⟨_, _, h⟩ := step_next h
  exact (exec_within h).written

/-! ## The obligations the footprints settle -/

/-- Settles O7: a step changes the bus by bus writes alone, and each keeps the invariant. -/
theorem stepKeepsMachineInvariant : Obligations.StepKeepsMachineInvariant :=
  fun _ _ hi h => (step_written h).inv hi

/-- Settles O11: bus writes change nothing but RAM, and reads from `$2000` up do not see RAM. -/
theorem noStepChangesTheCartridge : Obligations.NoStepChangesTheCartridge := by
  intro s t h
  obtain ⟨hc, hm, hl, hu⟩ := (step_written h).kept
  exact ⟨hc, hm, hl, hu, fun _ ha => Bus.read_rom_congr ha hm hl hu hc⟩

/-- Settles O17: the footprint's registers are the columns "written by" of R20 to R24. -/
theorem registersChangeOnlyByTheirWriters : Obligations.RegistersChangeOnlyByTheirWriters := by
  intro i s t h
  have hw := exec_within h
  exact ⟨hw.a, hw.x, hw.y, hw.sp⟩

/-- Settles O18: the footprint's flags are the instruction's row of R45. -/
theorem flagsChangeOnlyByTheirWriters : Obligations.FlagsChangeOnlyByTheirWriters :=
  fun _ _ _ h => (exec_within h).flags

/-! ## The status bits 4 and 5 -/

/-- R252, R263: the status PLP and RTI leave was pulled from the stack. -/
theorem exec_plp_rti_status {i : Instr} {s t : State} (hi : i = .plp ∨ i = .rti) (h : exec i s = .next t) :
    ∃ v, t.p = pulledStatus v := by
  rcases hi with rfl | rfl
  · obtain ⟨⟨v, s1⟩, _, h⟩ := Result.bind_eq_next.mp h
    cases h
    exact ⟨v, rfl⟩
  · obtain ⟨⟨v, s1⟩, _, h⟩ := Result.bind_eq_next.mp h
    obtain ⟨⟨pc, s2⟩, h2, h⟩ := Result.bind_eq_next.mp h
    rw [popWord_eq] at h2
    cases h2
    cases h
    exact ⟨v, rfl⟩

/-- R45: bits 4 and 5 stand in no row of the flag table but those of PLP and RTI. -/
theorem flagsWritten_b_u (i : Instr) : (i = .plp ∨ i = .rti) ∨ (.b ∉ flagsWritten i ∧ .u ∉ flagsWritten i) := by
  cases i <;> simp [flagsWritten]

/-- Settles O10: PLP and RTI load bit 4 clear and bit 5 set; no other instruction writes either. -/
theorem stepKeepsStatusBitsFourAndFive : Obligations.StepKeepsStatusBitsFourAndFive := by
  intro s t h
  obtain ⟨op, _, h⟩ := step_next h
  rcases flagsWritten_b_u (decodeByte op) with hi | ⟨hb, hu⟩
  · obtain ⟨v, hv⟩ := exec_plp_rti_status hi h
    simp [hv, flag_pulledStatus]
  · have hk := (exec_within h).flags
    rw [hk .b hb, hk .u hu]
    exact ⟨id, id⟩

/-! ## The state after construction -/

/-- R341: the blank cartridge meets the preconditions of construction. -/
theorem blankCartridge_valid : blankCartridge.valid :=
  ⟨by decide, by decide, rfl⟩

/-- The invariant holds of the reset state. -/
theorem reset_inv : State.reset.Inv where
  ram := Memory.wf_nil _
  cart := blankCartridge_valid
  mapper := by decide
  lower := rfl
  upper := rfl

theorem construct_blankCartridge : State.construct blankCartridge = .ok State.reset := by
  obtain ⟨hne, hwf, _⟩ := blankCartridge_valid
  rw [State.construct, Bus.construct, if_neg hne, if_pos hwf]
  rfl

/-- Settles O8, with construction run on the blank cartridge. -/
theorem resetStateIsAsConstructed : Obligations.ResetStateIsAsConstructed :=
  ⟨reset_inv, ⟨by decide, by decide⟩, construct_blankCartridge, rfl, rfl, rfl, rfl, rfl, rfl, rfl, Memory.read_nil⟩

end Sys2Proof.Machine
end

section
/-! The storage flags (10_state.md R29 to R32): writing I, D, bit 4 or bit 5 of P beforehand commutes with every meaning
that neither writes the flag nor pushes P. Each operation of the model is shown to commute once. -/

namespace Sys2Proof.Machine

/-- `s` with one flag of P written to any value. -/
def State.mark (f : Flag) (value : Bool) (s : State) : State := s.setP (setFlag f value s.p)

@[simp] theorem State.mark_a (f : Flag) (v : Bool) (s : State) : (s.mark f v).a = s.a := rfl
@[simp] theorem State.mark_x (f : Flag) (v : Bool) (s : State) : (s.mark f v).x = s.x := rfl
@[simp] theorem State.mark_y (f : Flag) (v : Bool) (s : State) : (s.mark f v).y = s.y := rfl
@[simp] theorem State.mark_sp (f : Flag) (v : Bool) (s : State) : (s.mark f v).sp = s.sp := rfl
@[simp] theorem State.mark_p (f : Flag) (v : Bool) (s : State) : (s.mark f v).p = setFlag f v s.p := rfl
@[simp] theorem State.mark_pc (f : Flag) (v : Bool) (s : State) : (s.mark f v).pc = s.pc := rfl
@[simp] theorem State.mark_bus (f : Flag) (v : Bool) (s : State) : (s.mark f v).bus = s.bus := rfl

/-- R29 to R32: the flags that are storage only. -/
def Flag.storage (f : Flag) : Prop := f ∈ [Flag.i, .d, .b, .u]

/-! ## Commuting with a mark -/

/-- Marking before the operation is marking the state it answers. -/
def Ignores (f : Flag) (g : State → Result State) : Prop :=
  ∀ value s, g (s.mark f value) = (g s).map (State.mark f value)

/-- The same for an update of the state. -/
def Commutes (f : Flag) (e : State → State) : Prop :=
  ∀ value s, e (s.mark f value) = (e s).mark f value

/-- The same for a computation of a byte and a status: the byte does not see the flag, and the flag stays. -/
def OpIgnores (f : Flag) (op : Byte → Byte → Byte × Byte) : Prop :=
  ∀ value m p, op m (setFlag f value p) = ((op m p).1, setFlag f value (op m p).2)

/-- Binding carries a commuting update through. -/
theorem Result.bind_map_comm {α β : Type} {r : Result α} {k : α → Result β} {g : α → α} {g' : β → β}
    (hk : ∀ a, k (g a) = (k a).map g') : (r.map g).bind k = (r.bind k).map g' := by
  cases r with
  | next a => exact hk a
  | fault _ => rfl
  | refused _ => rfl

/-! ## Status computations -/

/-- Writes of two different flags commute. -/
theorem setFlag_comm {f g : Flag} (h : g ≠ f) (v w : Bool) (p : Byte) :
    setFlag g w (setFlag f v p) = setFlag f v (setFlag g w p) := by
  apply status_ext
  intro k
  simp only [flag_setFlag]
  by_cases hg : k = g
  · simp [hg, h]
  · simp [hg]

section
variable {f : Flag} (hf : f.storage)
include hf

/-- A storage flag is none of the four that instructions compute. -/
theorem Flag.storage.ne_computed : Flag.c ≠ f ∧ Flag.z ≠ f ∧ Flag.v ≠ f ∧ Flag.n ≠ f := by
  cases f <;> simp [Flag.storage] at hf ⊢

theorem carry_setFlag_storage (v : Bool) (p : Byte) : carry (setFlag f v p) = carry p := by
  simp [carry, hf.ne_computed]

theorem setZN_setFlag_storage (r : Byte) (v : Bool) (p : Byte) :
    setZN r (setFlag f v p) = setFlag f v (setZN r p) := by
  obtain ⟨_, hz, _, hn⟩ := hf.ne_computed
  simp only [setZN, setFlag_comm hz, setFlag_comm hn]

theorem compareStatus_setFlag_storage (reg m : Byte) (v : Bool) (p : Byte) :
    compareStatus reg m (setFlag f v p) = setFlag f v (compareStatus reg m p) := by
  obtain ⟨hc, hz, _, hn⟩ := hf.ne_computed
  simp only [compareStatus, setFlag_comm hc, setFlag_comm hz, setFlag_comm hn]

theorem bitTest_setFlag_storage (a m : Byte) (v : Bool) (p : Byte) :
    bitTest a m (setFlag f v p) = setFlag f v (bitTest a m p) := by
  obtain ⟨_, hz, hv, hn⟩ := hf.ne_computed
  simp only [bitTest, setFlag_comm hz, setFlag_comm hv, setFlag_comm hn]

theorem adc_opIgnores (a : Byte) : OpIgnores f (adc a) := by
  obtain ⟨hc, _, hv, _⟩ := hf.ne_computed
  intro v m p
  have hsum : adcSum a m (setFlag f v p) = adcSum a m p := by rw [adcSum, carry_setFlag_storage hf, adcSum]
  rw [adc, hsum]
  simp only [adc, setFlag_comm hc, setFlag_comm hv, setZN_setFlag_storage hf]

theorem sbc_opIgnores (a : Byte) : OpIgnores f (sbc a) := by
  obtain ⟨hc, _, hv, _⟩ := hf.ne_computed
  intro v m p
  have hdiff : sbcDiff a m (setFlag f v p) = sbcDiff a m p := by rw [sbcDiff, carry_setFlag_storage hf, sbcDiff]
  rw [sbc, hdiff]
  simp only [sbc, setFlag_comm hc, setFlag_comm hv, setZN_setFlag_storage hf]

theorem asl_opIgnores : OpIgnores f asl := by
  intro v m p
  simp only [asl, setFlag_comm hf.ne_computed.1, setZN_setFlag_storage hf]

theorem lsr_opIgnores : OpIgnores f lsr := by
  intro v m p
  simp only [lsr, setFlag_comm hf.ne_computed.1, setZN_setFlag_storage hf]

theorem rol_opIgnores : OpIgnores f rol := by
  intro v m p
  simp only [rol, carry_setFlag_storage hf, setFlag_comm hf.ne_computed.1, setZN_setFlag_storage hf]

theorem ror_opIgnores : OpIgnores f ror := by
  intro v m p
  simp only [ror, carry_setFlag_storage hf, setFlag_comm hf.ne_computed.1, setZN_setFlag_storage hf]

theorem increment_opIgnores : OpIgnores f increment := by
  intro v m p
  simp only [increment, setZN_setFlag_storage hf]

theorem decrement_opIgnores : OpIgnores f decrement := by
  intro v m p
  simp only [decrement, setZN_setFlag_storage hf]

/-! ## Effects -/

theorem loadA_commutes (b : Byte) : Commutes f (loadA b) := by
  intro v s
  simp only [loadA, State.mark_p, setZN_setFlag_storage hf]
  rfl

theorem loadX_commutes (b : Byte) : Commutes f (loadX b) := by
  intro v s
  simp only [loadX, State.mark_p, setZN_setFlag_storage hf]
  rfl

theorem loadY_commutes (b : Byte) : Commutes f (loadY b) := by
  intro v s
  simp only [loadY, State.mark_p, setZN_setFlag_storage hf]
  rfl

theorem loadAX_commutes (b : Byte) : Commutes f (loadAX b) := by
  intro v s
  simp only [loadAX, State.mark_p, setZN_setFlag_storage hf]
  rfl

theorem addToA_commutes (b : Byte) : Commutes f (addToA b) := by
  intro v s
  simp only [addToA, State.mark_a, State.mark_p, adc_opIgnores hf s.a v b s.p]
  rfl

theorem subtractFromA_commutes (b : Byte) : Commutes f (subtractFromA b) := by
  intro v s
  simp only [subtractFromA, State.mark_a, State.mark_p, sbc_opIgnores hf s.a v b s.p]
  rfl

theorem compareA_commutes (b : Byte) : Commutes f (compareA b) := by
  intro v s
  simp only [compareA, State.mark_a, State.mark_p, compareStatus_setFlag_storage hf]
  rfl

theorem compareX_commutes (b : Byte) : Commutes f (compareX b) := by
  intro v s
  simp only [compareX, State.mark_x, State.mark_p, compareStatus_setFlag_storage hf]
  rfl

theorem compareY_commutes (b : Byte) : Commutes f (compareY b) := by
  intro v s
  simp only [compareY, State.mark_y, State.mark_p, compareStatus_setFlag_storage hf]
  rfl

theorem testA_commutes (b : Byte) : Commutes f (testA b) := by
  intro v s
  simp only [testA, State.mark_a, State.mark_p, bitTest_setFlag_storage hf]
  rfl

end

/-! ## Templates -/

section
variable {f : Flag}

/-- Resolution sees no flag. -/
@[simp] theorem resolve_mark (m : Mode) (v : Bool) (s : State) : resolve m (s.mark f v) = resolve m s :=
  resolve_congr m rfl rfl rfl rfl

theorem readTemplate_ignores {effect : Byte → State → State} (m : DataMode) (he : ∀ b, Commutes f (effect b)) :
    Ignores f (readTemplate m effect) := by
  intro v s
  simp only [readTemplate, resolve_mark, State.mark_bus, he _ v s, Result.map_bind, Result.map_next]
  rfl

theorem storeTemplate_ignores (m : MemMode) (b : Byte) : Ignores f (storeTemplate m b) := by
  intro v s
  simp only [storeTemplate, resolve_mark, State.mark_bus, Result.map_bind, Result.map_next]
  rfl

theorem rmwTemplate_ignores {op : Byte → Byte → Byte × Byte} (m : MemMode) (ho : OpIgnores f op) :
    Ignores f (rmwTemplate m op) := by
  intro v s
  simp only [rmwTemplate, resolve_mark, State.mark_bus, State.mark_p, ho v, Result.map_bind, Result.map_next]
  rfl

theorem shiftTemplate_ignores {op : Byte → Byte → Byte × Byte} (m : ShiftMode) (ho : OpIgnores f op) :
    Ignores f (shiftTemplate m op) := by
  intro v s
  cases m with
  | acc =>
    simp only [shiftTemplate, State.mark_a, State.mark_p, ho v]
    rfl
  | mem m => exact rmwTemplate_ignores m ho v s

/-- R290: both primitives of a composite commute, so it does. -/
theorem compositeTemplate_ignores {op : Byte → Byte → Byte × Byte} {effect : Byte → State → State} (m : MemMode)
    (ho : OpIgnores f op) (he : ∀ b, Commutes f (effect b)) : Ignores f (compositeTemplate m op effect) := by
  intro v s
  rw [compositeTemplate, rmwTemplate_ignores m ho v s]
  refine Result.bind_map_comm fun s1 => ?_
  have second := readTemplate_ignores (.mem m) he v ((s1.setPc s.pc).setCyc s.cyc)
  exact (congrArg (Result.bind · _) second).trans (Result.bind_map_comm fun _ => rfl)

/-- A branch reads one computed flag, as it is or inverted. -/
theorem branchTemplate_ignores {g : Flag} (h : g ≠ f) (condition : Bool → Bool) :
    Ignores f fun s => branchTemplate (condition (flag g s.p)) s := by
  intro v s
  simp only [branchTemplate, resolve_mark, State.mark_p, flag_setFlag, if_neg h, Result.map_bind]
  cases condition (flag g s.p) <;> rfl

theorem flagTemplate_ignores {g : Flag} (h : f ∉ [g]) (b : Bool) : Ignores f (flagTemplate g b) := by
  have hne : g ≠ f := fun e => h (by simp [e])
  intro v s
  simp only [flagTemplate, State.mark_p, setFlag_comm hne]
  rfl

/-- The implied instructions: an update that commutes, one byte, two cycles. -/
theorem implied_mark {v : Bool} {u u' : State} (h : u' = u.mark f v) :
    (Host.Outcome.next (u'.retire 1 2) : Result State) =
      Result.map (.next (u.retire 1 2)) (State.mark f v) := by
  rw [h]
  rfl

theorem execJmp_ignores (m : JmpMode) : Ignores f (execJmp m) := by
  intro v s
  simp only [execJmp, resolve_mark, Result.map_bind]
  rfl

/-! ## Stack operations -/

theorem push_ignores (b : Byte) : Ignores f (push b) := by
  intro v s
  simp only [push_eq]
  rfl

theorem pushWord_ignores (w : Word) : Ignores f (pushWord w) := by
  intro v s
  rw [pushWord, push_ignores _ v s]
  exact Result.bind_map_comm fun s1 => push_ignores _ v s1

theorem execPha_ignores : Ignores f execPha := by
  intro v s
  rw [execPha, push_ignores _ v s]
  exact Result.bind_map_comm fun _ => rfl

theorem execJsr_ignores : Ignores f execJsr := by
  intro v s
  rw [execJsr, execJsr, resolve_mark, Result.map_bind, State.mark_pc, pushWord_ignores _ v s]
  exact Result.bind_congr fun _ _ => Result.bind_map_comm fun _ => rfl

theorem execRts_ignores : Ignores f execRts := by
  intro v s
  simp only [execRts, popWord_eq]
  rfl

theorem execPla_ignores (hf : f.storage) : Ignores f execPla := by
  intro v s
  simp only [execPla, pop_eq, Result.bind_next, State.mark_bus, State.mark_sp]
  exact congrArg (fun u => Host.Outcome.next (State.retire 1 4 u)) (loadA_commutes hf _ v (s.setSp (s.sp + 1#8)))

end

/-- An instruction that neither writes a storage flag nor pushes P does not see it. -/
theorem exec_ignores {f : Flag} {i : Instr} (hf : f.storage) (hw : f ∉ flagsWritten i) (hp : i ≠ .php) :
    Ignores f (exec i) := by
  obtain ⟨hc, hz, hv, hn⟩ := hf.ne_computed
  intro v s
  cases i with
  | unimplemented op => rfl
  | lda m => exact readTemplate_ignores m (loadA_commutes hf) v s
  | ldx m => exact readTemplate_ignores m (loadX_commutes hf) v s
  | ldy m => exact readTemplate_ignores m (loadY_commutes hf) v s
  | lax m => exact readTemplate_ignores (.mem m) (loadAX_commutes hf) v s
  | adc m => exact readTemplate_ignores m (addToA_commutes hf) v s
  | sbc m undocumented => exact readTemplate_ignores m (subtractFromA_commutes hf) v s
  | and m => exact readTemplate_ignores m (fun b v s => loadA_commutes hf (s.a &&& b) v s) v s
  | ora m => exact readTemplate_ignores m (fun b v s => loadA_commutes hf (s.a ||| b) v s) v s
  | eor m => exact readTemplate_ignores m (fun b v s => loadA_commutes hf (s.a ^^^ b) v s) v s
  | cmp m => exact readTemplate_ignores m (compareA_commutes hf) v s
  | cpx m => exact readTemplate_ignores m (compareX_commutes hf) v s
  | cpy m => exact readTemplate_ignores m (compareY_commutes hf) v s
  | bit m => exact readTemplate_ignores (.mem m) (testA_commutes hf) v s
  | nop m op =>
    cases m with
    | implied => rfl
    | operand m => exact readTemplate_ignores m (fun _ _ _ => rfl) v s
  | sta m => exact storeTemplate_ignores m s.a v s
  | stx m => exact storeTemplate_ignores m s.x v s
  | sty m => exact storeTemplate_ignores m s.y v s
  | sax m => exact storeTemplate_ignores m (s.a &&& s.x) v s
  | asl m => exact shiftTemplate_ignores m (asl_opIgnores hf) v s
  | lsr m => exact shiftTemplate_ignores m (lsr_opIgnores hf) v s
  | rol m => exact shiftTemplate_ignores m (rol_opIgnores hf) v s
  | ror m => exact shiftTemplate_ignores m (ror_opIgnores hf) v s
  | inc m => exact rmwTemplate_ignores m (increment_opIgnores hf) v s
  | dec m => exact rmwTemplate_ignores m (decrement_opIgnores hf) v s
  | slo m =>
    exact compositeTemplate_ignores m (asl_opIgnores hf) (fun b v s => loadA_commutes hf (s.a ||| b) v s) v s
  | sre m =>
    exact compositeTemplate_ignores m (lsr_opIgnores hf) (fun b v s => loadA_commutes hf (s.a ^^^ b) v s) v s
  | rla m =>
    exact compositeTemplate_ignores m (rol_opIgnores hf) (fun b v s => loadA_commutes hf (s.a &&& b) v s) v s
  | rra m => exact compositeTemplate_ignores m (ror_opIgnores hf) (addToA_commutes hf) v s
  | dcp m => exact compositeTemplate_ignores m (decrement_opIgnores hf) (compareA_commutes hf) v s
  | isc m => exact compositeTemplate_ignores m (increment_opIgnores hf) (subtractFromA_commutes hf) v s
  | tax => exact implied_mark (loadX_commutes hf s.a v s)
  | tay => exact implied_mark (loadY_commutes hf s.a v s)
  | txa => exact implied_mark (loadA_commutes hf s.x v s)
  | tya => exact implied_mark (loadA_commutes hf s.y v s)
  | tsx => exact implied_mark (loadX_commutes hf s.sp v s)
  | txs => rfl
  | inx => exact implied_mark (loadX_commutes hf (s.x + 1#8) v s)
  | dex => exact implied_mark (loadX_commutes hf (s.x - 1#8) v s)
  | iny => exact implied_mark (loadY_commutes hf (s.y + 1#8) v s)
  | dey => exact implied_mark (loadY_commutes hf (s.y - 1#8) v s)
  | clc | sec | cli | sei | clv | cld | sed =>
    exact flagTemplate_ignores hw _ v s
  | bcc => exact branchTemplate_ignores hc not v s
  | bcs => exact branchTemplate_ignores hc id v s
  | bne => exact branchTemplate_ignores hz not v s
  | beq => exact branchTemplate_ignores hz id v s
  | bpl => exact branchTemplate_ignores hn not v s
  | bmi => exact branchTemplate_ignores hn id v s
  | bvc => exact branchTemplate_ignores hv not v s
  | bvs => exact branchTemplate_ignores hv id v s
  | jmp m => exact execJmp_ignores m v s
  | jsr => exact execJsr_ignores v s
  | rts => exact execRts_ignores v s
  | pha => exact execPha_ignores v s
  | pla => exact execPla_ignores hf v s
  | php => exact absurd rfl hp
  | plp | rti => exact absurd (mem_allFlags f) hw

/-- Settles O16: every operation a meaning is made of commutes with writing the flag. -/
theorem storageFlagsHaveNoEffect : Obligations.StorageFlagsHaveNoEffect :=
  fun _ _ s value hf hw hp => exec_ignores hf hw hp value s

end Sys2Proof.Machine
end

section
/-! The memory bus address by address (20_memory.md): the read and the write column of the address map, what a completed
write leaves, words, and the fetch after a store. -/

namespace Sys2Proof.Machine

/-! ## Memory under the instructions -/

/-- Settles O19: an instruction whose footprint has no store leaves the bus as it was. -/
theorem memoryChangesOnlyByStores : Obligations.MemoryChangesOnlyByStores :=
  fun _ _ _ hi h a => congrArg (·.readByte a) ((exec_within h).bus hi)

/-! ## The read column, row by row -/

section
variable (b : Bus) {addr : Nat}

/-- R62. -/
theorem Bus.read_ppu (h : 0x2000 ≤ addr) (h' : addr < 0x4000) : b.read addr = .fault (.unsupportedRead .ppu) := by
  simp [Bus.read, h.not_gt, h']

/-- R63: the APU's range, which `$4014` interrupts. -/
theorem Bus.read_apu (h : (0x4000 ≤ addr ∧ addr ≤ 0x4013) ∨ addr = 0x4015) :
    b.read addr = .fault (.unsupportedRead .apu) := by
  rcases h with ⟨h, h'⟩ | rfl
  · unfold Bus.read
    iterate 2 rw [if_neg (by omega)]
    rw [if_pos (by omega), Result.raise_eq]
  · rfl

/-- R64. -/
theorem Bus.read_ppuDma (h : addr = 0x4014) : b.read addr = .fault (.unsupportedRead .ppuDma) := by
  subst h
  rfl

/-- R65. -/
theorem Bus.read_controller (h : addr = 0x4016 ∨ addr = 0x4017) :
    b.read addr = .fault (.unsupportedRead .controller) := by
  rcases h with rfl | rfl <;> rfl

/-- R66, decision D10. -/
theorem Bus.read_io (h : 0x4018 ≤ addr) (h' : addr < 0x6000) : b.read addr = .fault (.unsupportedRead .io) := by
  unfold Bus.read
  iterate 6 rw [if_neg (by omega)]
  rw [if_pos h', Result.raise_eq]

/-- R85, decision D7. -/
theorem Bus.read_prgRam (h : 0x6000 ≤ addr) (h' : addr < 0x8000) :
    b.read addr = .fault (.unsupportedRead .prgRam) := by
  rw [b.read_mapper h (by omega)]
  cases b.mapper
  rw [Mapper.read, if_pos h', Result.raise_eq]

/-- R83. -/
theorem Bus.read_lowerWindow (h : 0x8000 ≤ addr) (h' : addr < 0xC000) :
    b.read addr = b.cart.prgByte b.lowerBank (addr - 0x8000) := by
  rw [b.read_mapper (by omega) (by omega)]
  cases b.mapper
  rw [Mapper.read, if_neg (by omega), if_pos h']

/-- R84. -/
theorem Bus.read_upperWindow (h : 0xC000 ≤ addr) (h' : addr < 0x10000) :
    b.read addr = b.cart.prgByte b.upperBank (addr - 0xC000) := by
  rw [b.read_mapper (by omega) h']
  cases b.mapper
  rw [Mapper.read, if_neg (by omega), if_neg (by omega)]

end

/-- R83, R84: a bank index in range names a bank, and the bytes read are that bank's. -/
theorem Cartridge.prgByte_of_lt {cart : Cartridge} {bank : Nat} (h : bank < cart.prgRomBanks.length) (offset : Nat) :
    ∃ m, cart.prgRomBanks[bank]? = some m ∧ cart.prgByte bank offset = .next (m.read offset) :=
  ⟨_, List.getElem?_eq_getElem h, by simp [Cartridge.prgByte, List.getElem?_eq_getElem h]⟩

section
variable {b : Bus} (hi : b.Inv) {a : Word}
include hi

/-- R82: NROM's lower bank is the first. -/
theorem Bus.Inv.lowerBank_eq : b.lowerBank = 0 := by
  rw [hi.lower]
  cases b.mapper
  rfl

/-- R82: NROM's upper bank is the last. -/
theorem Bus.Inv.upperBank_eq : b.upperBank = b.cart.prgRomBanks.length - 1 := by
  rw [hi.upper]
  cases b.mapper
  rfl

/-- R341: there is a bank. -/
theorem Bus.Inv.banks_pos : 0 < b.cart.prgRomBanks.length :=
  List.length_pos_iff.mpr hi.cart.1

/-- R83: `$8000`–`$BFFF` is the first bank. -/
theorem Bus.Inv.readByte_lowerWindow (h : 0x8000 ≤ a.toNat) (h' : a.toNat < 0xC000) :
    ∃ m, b.cart.prgRomBanks[0]? = some m ∧ b.readByte a = .next (m.read (a.toNat - 0x8000)) := by
  rw [Bus.readByte, b.read_lowerWindow h h', hi.lowerBank_eq]
  exact Cartridge.prgByte_of_lt hi.banks_pos _

/-- R84: `$C000`–`$FFFF` is the last bank. -/
theorem Bus.Inv.readByte_upperWindow (h : 0xC000 ≤ a.toNat) :
    ∃ m, b.cart.prgRomBanks[b.cart.prgRomBanks.length - 1]? = some m ∧
      b.readByte a = .next (m.read (a.toNat - 0xC000)) := by
  rw [Bus.readByte, b.read_upperWindow h a.isLt, hi.upperBank_eq]
  exact Cartridge.prgByte_of_lt (Nat.sub_one_lt hi.banks_pos.ne') _

end

/-- Settles O20: one rule per row; the invariant is used for the two ROM windows alone. -/
theorem readColumnOfTheAddressMap : Obligations.ReadColumnOfTheAddressMap :=
  fun b _ hi =>
    ⟨b.read_ram, b.read_ppu, fun h h' => b.read_apu (.inl ⟨h, h'⟩), b.read_ppuDma, fun h => b.read_apu (.inr h),
      b.read_controller, b.read_io, b.read_prgRam, hi.readByte_lowerWindow, hi.readByte_upperWindow⟩

/-- Settles O24: the first bank and the last are one bank, read at one offset. -/
theorem oneBankCartridgeIsMirrored : Obligations.OneBankCartridgeIsMirrored := by
  intro b k hi hone hk
  have hlow : (BitVec.ofNat 16 (0x8000 + k)).toNat = 0x8000 + k := Nat.mod_eq_of_lt (by omega)
  have hhigh : (BitVec.ofNat 16 (0xC000 + k)).toNat = 0xC000 + k := Nat.mod_eq_of_lt (by omega)
  obtain ⟨m, hm, hread⟩ := hi.readByte_lowerWindow (a := BitVec.ofNat 16 (0x8000 + k)) (by omega) (by omega)
  obtain ⟨m', hm', hread'⟩ := hi.readByte_upperWindow (a := BitVec.ofNat 16 (0xC000 + k)) (by omega)
  rw [hone, hm] at hm'
  cases hm'
  rw [hlow, Nat.add_sub_cancel_left] at hread
  rw [hhigh, Nat.add_sub_cancel_left] at hread'
  exact ⟨_, hread, hread'⟩

/-! ## The write column -/

/-- R71: the two ranges that refuse writes. -/
theorem Bus.writeByte_unhandled (b : Bus) {addr : Word} (v : Byte)
    (h : (0x2000 ≤ addr.toNat ∧ addr.toNat < 0x4000) ∨ (0x4016 ≤ addr.toNat ∧ addr.toNat < 0x8000)) :
    b.writeByte addr v = .fault (.unhandledWrite addr v) := by
  unfold Bus.writeByte
  rcases h with ⟨h, h'⟩ | ⟨h, h'⟩
  · rw [if_neg (by omega), if_pos h', Result.raise_eq]
  · rw [if_neg (by omega), if_neg (by omega), if_neg (by omega), if_pos h', Result.raise_eq]

/-- R68 to R71, R74: what a completed write leaves is its byte, stored. -/
theorem Bus.stored_of_writeByte {b b' : Bus} {addr : Word} {v : Byte} (h : b.writeByte addr v = .next b') :
    stored b b' addr v :=
  ⟨fun _ => Bus.readByte_write_same h, fun _ => Bus.readByte_write_other h, Bus.writeByte_kept h⟩

/-- R68: a write to RAM stores its byte. -/
theorem Bus.writeByte_ram_stored (b : Bus) {addr : Word} (h : inRam addr) (v : Byte) :
    ∃ b', b.writeByte addr v = .next b' ∧ stored b b' addr v :=
  ⟨_, b.writeByte_ram h v, Bus.stored_of_writeByte (b.writeByte_ram h v)⟩

/-- Settles O21: a range takes the byte, refuses it or drops it. -/
theorem writeColumnOfTheAddressMap : Obligations.WriteColumnOfTheAddressMap :=
  fun b _ v =>
    ⟨fun h => b.writeByte_ram_stored h v,
      fun h h' => b.writeByte_unhandled v (.inl ⟨h, h'⟩),
      fun h h' => b.writeByte_dropped (.inl ⟨h, Nat.lt_succ_of_le h'⟩) v,
      fun h h' => b.writeByte_unhandled v (.inr ⟨h, h'⟩),
      fun h => b.writeByte_dropped (.inr h) v⟩

/-! ## Mirrors -/

/-- R74: mirrors of one byte of RAM read alike. -/
theorem Bus.readByte_mirror (b : Bus) {a c : Word} (h : sameRamByte a c) : b.readByte a = b.readByte c := by
  obtain ⟨ha, hc, heq⟩ := h
  rw [Bus.readByte, Bus.readByte, b.read_ram ha, b.read_ram hc, heq]

/-- R74: a RAM address and its physical index are one byte. -/
theorem sameRamByte_index {a : Word} (h : inRam a) : sameRamByte a (BitVec.ofNat 16 (a.toNat % 0x0800)) := by
  have hidx : (BitVec.ofNat 16 (a.toNat % 0x0800)).toNat = a.toNat % 0x0800 := Nat.mod_eq_of_lt (by omega)
  refine ⟨h, ?_, ?_⟩
  · unfold inRam
    omega
  · rw [hidx, ramIndex, ramIndex, Nat.mod_mod]

/-- Settles O22: a RAM address and its physical index are mirrors, and a stored byte is read at every mirror. -/
theorem ramIsMirrored : Obligations.RamIsMirrored := by
  intro b a ha
  refine ⟨b.readByte_mirror (sameRamByte_index ha), fun v => ?_⟩
  obtain ⟨b', hw, hsame, _⟩ := b.writeByte_ram_stored ha v
  exact ⟨b', hw, fun c hc heq => hsame c ⟨ha, hc, heq.symm⟩⟩

/-! ## Words -/

/-- R73, decision D8: the byte after `$FFFF` cannot be read. -/
theorem Bus.read_outOfRange (b : Bus) {addr : Nat} (h : 0x10000 ≤ addr) :
    b.read addr = .fault (.unsupportedRead .outOfRange) := by
  unfold Bus.read
  iterate 8 rw [if_neg (by omega)]
  rw [Result.raise_eq]

/-- R72: below `$FFFF` the second byte of a word is the one at the next address. -/
theorem Bus.readByte_succ (b : Bus) {a : Word} (h : a.toNat < 0xFFFF) :
    b.readByte (a + 1#16) = b.read (a.toNat + 1) := by
  have hnext : (a + 1#16).toNat = a.toNat + 1 := BitVec.toNat_add_of_lt (show a.toNat + 1 < 0x10000 by omega)
  rw [Bus.readByte, hnext]

/-- R8: `h:l` as a number. -/
theorem word_eq_ofNat (h l : Byte) : word h l = BitVec.ofNat 16 (h.toNat * 256 + l.toNat) := by
  rw [← word_toNat, BitVec.ofNat_toNat, BitVec.setWidth_eq]

/-- R72: a word whose low byte reads is its high byte's read. -/
theorem Bus.readWord_of_low {b : Bus} {a : Word} {l : Byte} (hl : b.readByte a = .next l) :
    b.readWord a = (b.read (a.toNat + 1)).bind fun h => .next (word h l) := by
  rw [Bus.readByte] at hl
  rw [Bus.readWord, hl, Result.bind_next]

/-- Settles O23: the word stops at its low byte, or is the read of its high byte. -/
theorem readWordIsLittleEndianWithoutWrap : Obligations.ReadWordIsLittleEndianWithoutWrap := by
  refine fun b a => ⟨fun e he => Result.bind_eq_fault.mpr (.inl he), fun l hl => ?_⟩
  rw [Bus.readWord_of_low hl]
  refine ⟨fun h ha hh => ?_, fun e ha he => ?_, fun ha => ?_⟩
  · rw [← b.readByte_succ ha, hh, Result.bind_next, word_eq_ofNat]
  · rw [← b.readByte_succ ha, he, Result.bind_fault]
  · rw [b.read_outOfRange (by omega), Result.bind_fault]

/-! ## The fetch after a store -/

/-- R183 to R185, R298: the four stores are the store template with their byte. -/
theorem exec_store {s : State} {m : MemMode} {i : Instr} {v : Byte}
    (h : (i, v) ∈ [(Instr.sta m, s.a), (.stx m, s.x), (.sty m, s.y), (.sax m, s.a &&& s.x)]) :
    exec i s = storeTemplate m v s := by
  simp only [List.mem_cons, Prod.mk.injEq, List.not_mem_nil, or_false] at h
  rcases h with ⟨rfl, rfl⟩ | ⟨rfl, rfl⟩ | ⟨rfl, rfl⟩ | ⟨rfl, rfl⟩ <;> rfl

/-- Settles O58: every mirror of the address reads the stored byte, and the step fetches through the bus. -/
theorem storedByteIsFetchedNext : Obligations.StoredByteIsFetchedNext := by
  intro s t m res i v hstore hres _ hexec hpc
  rw [exec_store hstore] at hexec
  obtain ⟨res', b, hres', hwrite, rfl⟩ := storeTemplate_next hexec
  cases hres.symm.trans hres'
  have hfetch : b.readByte _ = .next v := Bus.readByte_write_same hwrite hpc
  rw [step, State.retire_bus, State.setBus_bus, hfetch, Result.bind_next]

end Sys2Proof.Machine
end

section
/-! The decoder and the encoder undo each other (30_encoding.md R111, R117, R121): `decodeByte_opcode` goes through the
encoding tables of files 41 to 46, `opcode_decodeByte` through the matrix of R114. -/

namespace Sys2Proof

/-! ## From the encoding tables to the matrix -/

/-- R115: the bytes without a handler. -/
theorem decodeByte_unimplementedBytes : ∀ op ∈ unimplementedBytes, decodeByte op = .unimplemented op := by decide

/-- R271 to R273: the bytes of NOP. -/
theorem decodeByte_nopBytes (m : NopMode) : ∀ op ∈ nopBytes m, decodeByte op = .nop m op := by
  rcases m with _ | _ | m
  · decide
  · decide
  · cases m <;> decide

section
variable {op imm acc zp zpX abs absX absY indX indY : Byte}

/-- A row of the eight-mode table, checked against the matrix. -/
theorem decodeByte_aluOpcode {c : DataMode → Instr} {m : DataMode}
    (hrow : [imm, zp, zpX, abs, absX, absY, indX, indY].map decodeByte =
      [.imm, .mem .zp, .mem .zpX, .mem .abs, .mem .absX, .mem .absY, .mem .indX, .mem .indY].map c)
    (h : aluOpcode imm zp zpX abs absX absY indX indY m = some op) : decodeByte op = c m := by
  simp only [List.map_cons, List.map_nil, List.cons.injEq, and_true] at hrow
  rcases m with _ | m
  · cases h
    simp [hrow]
  · cases m <;> cases h <;> simp [hrow]

/-- A row of the seven-mode table. -/
theorem decodeByte_sevenOpcode {c : MemMode → Instr} {m : MemMode}
    (hrow : [zp, zpX, abs, absX, absY, indX, indY].map decodeByte = sevenModes.map c)
    (h : sevenOpcode zp zpX abs absX absY indX indY m = some op) : decodeByte op = c m := by
  simp only [sevenModes, List.map_cons, List.map_nil, List.cons.injEq, and_true] at hrow
  cases m <;> cases h <;> simp [hrow]

/-- A row of the four-mode table. -/
theorem decodeByte_rmwOpcode {c : MemMode → Instr} {m : MemMode}
    (hrow : [zp, zpX, abs, absX].map decodeByte = rmwModes.map c)
    (h : rmwOpcode zp zpX abs absX m = some op) : decodeByte op = c m := by
  simp only [rmwModes, List.map_cons, List.map_nil, List.cons.injEq, and_true] at hrow
  cases m <;> cases h <;> simp [hrow]

/-- A row of the shift table: the accumulator, and a row of the four-mode table. -/
theorem decodeByte_shiftOpcode {c : ShiftMode → Instr} {m : ShiftMode} (hacc : decodeByte acc = c .acc)
    (hrow : [zp, zpX, abs, absX].map decodeByte = rmwModes.map fun m => c (.mem m))
    (h : shiftOpcode acc zp zpX abs absX m = some op) : decodeByte op = c m := by
  cases m with
  | acc => cases h; exact hacc
  | mem m => exact decodeByte_rmwOpcode (c := fun m => c (.mem m)) hrow h

end

/-- R121: the byte that the encoding tables give an instruction decodes to it. -/
theorem decodeByte_opcode {i : Instr} {op : Byte} (h : opcode i = some op) : decodeByte op = i := by
  cases i with
  | unimplemented op' =>
    obtain ⟨hmem, hop⟩ := Option.ite_none_right_eq_some.mp h
    cases hop
    exact decodeByte_unimplementedBytes op hmem
  | nop m op' =>
    obtain ⟨hmem, hop⟩ := Option.ite_none_right_eq_some.mp h
    cases hop
    exact decodeByte_nopBytes m op hmem
  | lda m | adc m | and m | ora m | eor m | cmp m => exact decodeByte_aluOpcode rfl h
  | sbc m undocumented =>
    cases undocumented with
    | false => exact decodeByte_aluOpcode (c := (.sbc · false)) rfl h
    | true => cases m <;> cases h; rfl
  | sta m | slo m | rla m | sre m | rra m | dcp m | isc m => exact decodeByte_sevenOpcode rfl h
  | inc m | dec m => exact decodeByte_rmwOpcode rfl h
  | asl m | lsr m | rol m | ror m => exact decodeByte_shiftOpcode rfl rfl h
  | ldx m | ldy m | cpx m | cpy m =>
    rcases m with _ | m
    · cases h; rfl
    · cases m <;> cases h <;> rfl
  | stx m | sty m | bit m | lax m | sax m | jmp m => cases m <;> cases h <;> rfl
  | php | plp | pha | pla | bpl | bmi | bvc | bvs | bcc | bcs | bne | beq | clc | sec | cli | sei | clv | cld | sed
  | jsr | rts | rti | tax | tay | txa | tya | tsx | txs | inx | dex | iny | dey => cases h; rfl

/-! ## From the matrix to the encoding tables -/

/-- R111, R114: the cells of row `h` are the instructions of the bytes `16 h` to `16 h + 15`, in this order. -/
theorem opcodeRow_map_opcode :
    ∀ h < 16, (opcodeRow h).map opcode = (List.range 16).map fun l => some (BitVec.ofNat 8 (16 * h + l)) := by
  decide

/-- R121: the encoding tables give the instruction a byte decodes to this byte. -/
theorem opcode_decodeByte (op : Byte) : opcode (decodeByte op) = some op := by
  have hrow := opcodeRow_map_opcode (op.toNat / 16) (by omega)
  have hcol : op.toNat % 16 < 16 := Nat.mod_lt _ (by decide)
  have hcell := congrArg (·[op.toNat % 16]?) hrow
  simp only [List.getElem?_map, List.getElem?_range hcol, Option.map_some, Nat.div_add_mod, BitVec.ofNat_toNat,
    BitVec.setWidth_eq] at hcell
  obtain ⟨i, hi, hop⟩ := Option.map_eq_some_iff.mp hcell
  rw [decodeByte, List.getD_eq_getElem?_getD, hi, Option.getD_some, hop]

/-! ## Well-formed instructions -/

/-- An instruction is well formed exactly when the encoding tables give it a byte: the lemmas of `Laws.OpcodeExists`
put together. -/
theorem wf_eq_isSome_opcode (i : Instr) : i.wf = (opcode i).isSome := by
  cases i with
  | unimplemented op => exact Laws.OpcodeExists.unimplemented op
  | nop m op => exact Laws.OpcodeExists.nop m op
  | sbc m undocumented => exact Laws.OpcodeExists.sbc m undocumented
  | ora m => exact Laws.OpcodeExists.ora m
  | and m => exact Laws.OpcodeExists.and m
  | eor m => exact Laws.OpcodeExists.eor m
  | adc m => exact Laws.OpcodeExists.adc m
  | cmp m => exact Laws.OpcodeExists.cmp m
  | lda m => exact Laws.OpcodeExists.lda m
  | ldx m => exact Laws.OpcodeExists.ldx m
  | ldy m => exact Laws.OpcodeExists.ldy m
  | cpx m => exact Laws.OpcodeExists.cpx m
  | cpy m => exact Laws.OpcodeExists.cpy m
  | sta m => exact Laws.OpcodeExists.sta m
  | stx m => exact Laws.OpcodeExists.stx m
  | sty m => exact Laws.OpcodeExists.sty m
  | bit m => exact Laws.OpcodeExists.bit m
  | asl m => exact Laws.OpcodeExists.asl m
  | lsr m => exact Laws.OpcodeExists.lsr m
  | rol m => exact Laws.OpcodeExists.rol m
  | ror m => exact Laws.OpcodeExists.ror m
  | inc m => exact Laws.OpcodeExists.inc m
  | dec m => exact Laws.OpcodeExists.dec m
  | slo m => exact Laws.OpcodeExists.slo m
  | rla m => exact Laws.OpcodeExists.rla m
  | sre m => exact Laws.OpcodeExists.sre m
  | rra m => exact Laws.OpcodeExists.rra m
  | dcp m => exact Laws.OpcodeExists.dcp m
  | isc m => exact Laws.OpcodeExists.isc m
  | lax m => exact Laws.OpcodeExists.lax m
  | sax m => exact Laws.OpcodeExists.sax m
  | jmp m => exact Laws.OpcodeExists.jmp m
  | php | plp | pha | pla | bpl | bmi | bvc | bvs | bcc | bcs | bne | beq | clc | sec | cli | sei | clv | cld | sed
  | jsr | rts | rti | tax | tay | txa | tya | tsx | txs | inx | dex | iny | dey => rfl

/-- A well-formed instruction has one word, its opcode, which decodes to it. -/
theorem exists_encode_of_wf {i : Instr} (h : i.wf = true) : ∃ op, encode i = [op] ∧ decodeByte op = i := by
  rw [wf_eq_isSome_opcode] at h
  obtain ⟨op, hop⟩ := Option.isSome_iff_exists.mp h
  exact ⟨op, by rw [encode, hop, Option.toList_some], decodeByte_opcode hop⟩

/-- Settles O1: the word is the opcode byte, and the operands after it are not examined (R117). -/
theorem decodeOfEncodeIsTheInstruction : Obligations.DecodeOfEncodeIsTheInstruction := by
  intro i operands h
  obtain ⟨op, henc, hdec⟩ := exists_encode_of_wf h
  rw [henc, List.singleton_append, Laws.decode_cons, hdec]

/-- Settles O2: the matrix answers every byte, and equal words decode alike. -/
theorem everyByteIsOneInstruction : Obligations.EveryByteIsOneInstruction := by
  refine ⟨fun op => ⟨?_, ?_⟩, fun i hi => ?_, fun i j hi hj heq => ?_⟩
  · rw [wf_eq_isSome_opcode, opcode_decodeByte, Option.isSome_some]
  · rw [encode, opcode_decodeByte, Option.toList_some]
  · obtain ⟨op, _, hdec⟩ := exists_encode_of_wf hi
    exact ⟨op, hdec⟩
  · have hdec := decodeOfEncodeIsTheInstruction i [] hi
    rw [heq, decodeOfEncodeIsTheInstruction j [] hj] at hdec
    exact (Except.ok.inj hdec).symm

end Sys2Proof
end

section
/-! The addressing modes (40_execution_and_addressing.md R145 to R157): bytes and pages as numbers, the operand word, and
what each mode resolves to or where it stops. -/

namespace Sys2Proof.Machine

/-! ## Bytes and pages as numbers -/

/-- R10: a byte as an address is its own number. -/
theorem zext16_eq_ofNat (d : Byte) : zext16 d = BitVec.ofNat 16 d.toNat :=
  (BitVec.ofNat_toNat ..).symm

/-- R148, R149: an index added to a zero-page address wraps at 256. -/
theorem zext16_add_eq_ofNat (d x : Byte) : zext16 (d + x) = BitVec.ofNat 16 ((d.toNat + x.toNat) % 256) := by
  rw [zext16_eq_ofNat, BitVec.toNat_add]

/-- R8: the high byte as a number. -/
theorem hi_toNat (w : Word) : (hi w).toNat = w.toNat / 256 := by
  have := w.isLt
  simp only [hi, BitVec.toNat_setWidth, BitVec.toNat_ushiftRight, Nat.shiftRight_eq_div_pow]
  omega

/-- R8: the low byte as a number. -/
theorem lo_toNat (w : Word) : (lo w).toNat = w.toNat % 256 :=
  BitVec.toNat_setWidth ..

/-- R8: the page of an address is its high byte over a zero low byte. -/
theorem page_eq_word (w : Word) : page w = word (hi w) 0x00#8 := by
  have hmask : ∀ i < 16, (0xFF00#16).getLsbD i = decide (8 ≤ i) := by decide
  apply BitVec.eq_of_getLsbD_eq
  intro i hlt
  rw [page, BitVec.getLsbD_and, hmask i hlt, word, BitVec.getLsbD_append]
  by_cases h : i < 8
  · simp [h]
  · have hback : 8 + (i - 8) = i := by omega
    have hbyte : i - 8 < 8 := by omega
    simp [hi, h, hback, hbyte, Nat.le_of_not_lt h]

/-- R8: two addresses lie in one page exactly when they have one high byte. -/
theorem page_eq_iff (a b : Word) : page a = page b ↔ a.toNat / 256 = b.toNat / 256 := by
  rw [← hi_toNat, ← hi_toNat, ← BitVec.toNat_eq, page_eq_word, page_eq_word]
  exact ⟨fun h => by simpa using congrArg hi h, fun h => by rw [h]⟩

/-- R151, R152, R154: an index moves the address to another page exactly when the low byte carries. -/
theorem indexed_word (h l i : Byte) :
    indexed (word h l) i =
      ⟨BitVec.ofNat 16 (h.toNat * 256 + l.toNat + i.toNat), decide (l.toNat + i.toNat > 0xFF)⟩ := by
  have haddr : word h l + zext16 i = BitVec.ofNat 16 (h.toNat * 256 + l.toNat + i.toNat) := by
    rw [word_eq_ofNat, zext16_eq_ofNat, ← BitVec.ofNat_add]
  have hcross : page (word h l) ≠ page (word h l + zext16 i) ↔ l.toNat + i.toNat > 0xFF := by
    have := h.isLt
    have := l.isLt
    have := i.isLt
    rw [ne_eq, page_eq_iff, haddr, word_toNat, BitVec.toNat_ofNat]
    omega
  rw [indexed, ← haddr, decide_eq_decide.mpr hcross]

/-- R150: a word without an index. -/
theorem plain_word (h l : Byte) : plain (word h l) = ⟨BitVec.ofNat 16 (h.toNat * 256 + l.toNat), false⟩ := by
  rw [plain, word_eq_ofNat]

/-! ## The operand word -/

section
variable {s : State} {e : Fault}

/-- R113: the second operand byte lies at `PC + 2`. -/
theorem State.pc_add_two (s : State) : s.pc + 1#16 + 1#16 = s.pc + 2#16 := by
  bv_omega

/-- R73: the operand word has a second byte unless the opcode is at `$FFFE`. -/
theorem State.pc_add_one_lt (h : s.pc.toNat ≠ 0xFFFE) : (s.pc + 1#16).toNat < 0xFFFF := by
  bv_omega

/-- R113: the operand word is its two bytes. -/
theorem operandWord_of_bytes {l h : Byte} (hl : s.bus.readByte (s.pc + 1#16) = .next l) (hpc : s.pc.toNat ≠ 0xFFFE)
    (hh : s.bus.readByte (s.pc + 2#16) = .next h) : operandWord s = .next (word h l) := by
  rw [← s.pc_add_two] at hh
  rw [operandWord, word_eq_ofNat]
  exact ((readWordIsLittleEndianWithoutWrap s.bus _).2 l hl).1 h (State.pc_add_one_lt hpc) hh

/-- R317: the operand word stops at its first byte. -/
theorem operandWord_fault_first (h : s.bus.readByte (s.pc + 1#16) = .fault e) : operandWord s = .fault e :=
  (readWordIsLittleEndianWithoutWrap s.bus _).1 e h

/-- R317: the operand word stops at its second byte. -/
theorem operandWord_fault_second {l : Byte} (hl : s.bus.readByte (s.pc + 1#16) = .next l) (hpc : s.pc.toNat ≠ 0xFFFE)
    (h : s.bus.readByte (s.pc + 2#16) = .fault e) : operandWord s = .fault e := by
  rw [← s.pc_add_two] at h
  exact ((readWordIsLittleEndianWithoutWrap s.bus _).2 l hl).2.1 e (State.pc_add_one_lt hpc) h

/-- Decision D8: at `$FFFE` the operand word has no second byte. -/
theorem operandWord_outOfRange {l : Byte} (hl : s.bus.readByte (s.pc + 1#16) = .next l) (hpc : s.pc.toNat = 0xFFFE) :
    operandWord s = .fault (.unsupportedRead .outOfRange) :=
  ((readWordIsLittleEndianWithoutWrap s.bus _).2 l hl).2.2 (by bv_omega)

/-- R150 to R156: the modes with an operand word stop where it stops. -/
theorem resolve_operandWord_fault (h : operandWord s = .fault e) {m : Mode}
    (hm : m ∈ [Mode.absolute, .absoluteX, .absoluteY, .indirect, .indirectWithJmpBug]) : resolve m s = .fault e := by
  simp only [List.mem_cons, List.not_mem_nil, or_false] at hm
  rcases hm with rfl | rfl | rfl | rfl | rfl <;> simp only [resolve, h, Result.bind_fault]

/-- R144, R317: every mode with an operand stops where its first byte stops. -/
theorem resolve_operandByte_fault (h : s.bus.readByte (s.pc + 1#16) = .fault e) {m : Mode}
    (hm : m ∉ [Mode.implied, .accumulator, .immediate]) : resolve m s = .fault e := by
  have hbyte : operandByte s = .fault e := h
  cases m
  case implied | accumulator | immediate => simp at hm
  case absolute | absoluteX | absoluteY | indirect | indirectWithJmpBug =>
    exact resolve_operandWord_fault (operandWord_fault_first h) (by simp)
  case zeroPage | zeroPageX | zeroPageY | indexedIndirect | indirectIndexed | relative =>
    simp only [resolve, hbyte, Result.bind_fault]

end

/-! ## The zero-page and the absolute modes -/

/-- Settles O25: a zero-page address is a byte, and the index is added to it as a byte. -/
theorem zeroPageIndexingWrapsAt256 : Obligations.ZeroPageIndexingWrapsAt256 := by
  intro s d hd
  have hbyte : operandByte s = .next d := hd
  simp only [resolve, hbyte, Result.bind_next, plain, zext16_eq_ofNat d, zext16_add_eq_ofNat, and_self]

/-- Settles O26: the operand word is `h:l`, or stops at `$FFFE`. -/
theorem absoluteModesIndexTheOperandWord : Obligations.AbsoluteModesIndexTheOperandWord := by
  refine fun s l h hl => ⟨fun hpc hh => ?_, fun hpc m hm => ?_⟩
  · have hword := operandWord_of_bytes hl hpc hh
    simp only [resolve, hword, Result.bind_next, plain_word, indexed_word, and_self]
  · exact resolve_operandWord_fault (operandWord_outOfRange hl hpc) hm

/-! ## The indirect modes -/

/-- R153, R154: a zero-page pointer is read at its byte and at the next one of the zero page, and both reads answer. -/
theorem zeroPageWord_bytes (b : Bus) (ptr : Byte) :
    ∃ l h, b.readByte (zext16 ptr) = .next l ∧ b.readByte (zext16 (ptr + 1#8)) = .next h ∧
      zeroPageWord b ptr = .next (word h l) := by
  obtain ⟨w, hw⟩ := zeroPageWord_next b ptr
  obtain ⟨l, hl, hrest⟩ := Result.bind_eq_next.mp hw
  obtain ⟨h, hh, hword⟩ := Result.bind_eq_next.mp hrest
  exact ⟨l, h, hl, hh, hw.trans hword.symm⟩

/-- Settles O27: the pointer is a byte, and so is the address of its second byte. -/
theorem zeroPagePointersWrapAt256 : Obligations.ZeroPagePointersWrapAt256 := by
  intro s d hd
  have hbyte : operandByte s = .next d := hd
  constructor
  · obtain ⟨l, h, hl, hh, hword⟩ := zeroPageWord_bytes s.bus (d + s.x)
    refine ⟨l, h, ?_, ?_, ?_⟩
    · rwa [zext16_add_eq_ofNat] at hl
    · rwa [zext16_add_eq_ofNat, BitVec.toNat_add, Nat.mod_add_mod] at hh
    · simp only [resolve, hbyte, hword, Result.bind_next, plain_word]
  · obtain ⟨l, h, hl, hh, hword⟩ := zeroPageWord_bytes s.bus d
    refine ⟨l, h, ?_, ?_, ?_⟩
    · rwa [zext16_eq_ofNat] at hl
    · rwa [zext16_add_eq_ofNat] at hh
    · simp only [resolve, hbyte, hword, Result.bind_next, indexed_word]

/-- R84: whether a bank answers does not depend on the offset. -/
theorem Cartridge.prgByte_other_offset {cart : Cartridge} {bank offset : Nat} {v : Byte}
    (h : cart.prgByte bank offset = .next v) (offset' : Nat) : ∃ v', cart.prgByte bank offset' = .next v' := by
  unfold Cartridge.prgByte at h ⊢
  split at h
  · exact ⟨_, rfl⟩
  · cases h

/-- R88: where one address of a page reads, every address of the page reads. -/
theorem Bus.readByte_samePage {b : Bus} {a c : Word} {v : Byte} (h : b.readByte a = .next v)
    (hpage : a.toNat / 256 = c.toNat / 256) : ∃ v', b.readByte c = .next v' := by
  have hc := c.isLt
  have ha := a.isLt
  rcases Bus.readByte_next h with hram | hrom
  · exact ⟨_, b.read_ram (by omega)⟩
  · by_cases hlow : a.toNat < 0xC000
    · rw [Bus.readByte, b.read_lowerWindow hrom hlow] at h
      rw [Bus.readByte, b.read_lowerWindow (by omega) (by omega)]
      exact Cartridge.prgByte_other_offset h _
    · rw [Bus.readByte, b.read_upperWindow (by omega) ha] at h
      rw [Bus.readByte, b.read_upperWindow (by omega) hc]
      exact Cartridge.prgByte_other_offset h _

/-- R156: the second pointer byte of JMP's mode as a number. -/
theorem jmpBugHighAddr_eq_ofNat (ptr : Word) :
    jmpBugHighAddr ptr = BitVec.ofNat 16 (if ptr.toNat % 256 = 0xFF then ptr.toNat - 0xFF else ptr.toNat + 1) := by
  have := ptr.isLt
  have hlow : lo ptr = 0xFF#8 ↔ ptr.toNat % 256 = 0xFF := by
    rw [← lo_toNat, BitVec.toNat_eq, BitVec.toNat_ofNat]
  simp only [jmpBugHighAddr, hlow]
  split
  · have hpage : ptr.toNat / 256 * 256 + (0x00#8).toNat = ptr.toNat - 0xFF := by
      rw [BitVec.toNat_ofNat]
      omega
    rw [page_eq_word, word_eq_ofNat, hi_toNat, hpage]
  · rw [BitVec.ofNat_add, BitVec.ofNat_toNat, BitVec.setWidth_eq]

/-- R156: JMP's mode reads both pointer bytes in one page. -/
theorem jmpBugHighAddr_samePage (ptr : Word) : ptr.toNat / 256 = (jmpBugHighAddr ptr).toNat / 256 := by
  have := ptr.isLt
  rw [jmpBugHighAddr_eq_ofNat, BitVec.toNat_ofNat]
  split <;> omega

/-- R155: the plain mode is the word at its pointer. -/
theorem resolve_indirect {s : State} {ptr : Word} (h : operandWord s = .next ptr) :
    resolve .indirect s = (s.bus.readWord ptr).bind fun w => .next (plain w) := by
  rw [resolve, h, Result.bind_next]

/-- Settles O28: JMP's mode reads its second byte in the pointer's page; the plain mode is a word read. -/
theorem indirectModesReadTheirPointer : Obligations.IndirectModesReadTheirPointer := by
  rintro s ptr second hptr rfl
  rw [← jmpBugHighAddr_eq_ofNat, resolve_indirect hptr, resolve, hptr, Result.bind_next]
  obtain ⟨hfirst, hboth⟩ := readWordIsLittleEndianWithoutWrap s.bus ptr
  refine ⟨fun e he => ?_, fun l hl => ?_⟩
  · simp only [he, hfirst e he, Result.bind_fault, and_self]
  · have hlt : ptr.toNat ≠ 0xFFFF → ptr.toNat < 0xFFFF := by omega
    obtain ⟨hword, hsecond, hrange⟩ := hboth l hl
    refine ⟨?_, fun h hne hh => ?_, fun e hne he => ?_, fun heq => ?_⟩
    · obtain ⟨h, hh⟩ := Bus.readByte_samePage hl (jmpBugHighAddr_samePage ptr)
      exact ⟨h, hh, by simp only [hl, hh, Result.bind_next, plain_word]⟩
    · rw [hword h (hlt hne) hh, Result.bind_next, plain]
    · rw [hsecond e (hlt hne) he, Result.bind_fault]
    · rw [hrange heq, Result.bind_fault]

/-! ## Readable operands -/

/-- R144 to R157: with both operand bytes read, every mode but the two that follow a pointer anywhere resolves. -/
theorem resolve_of_operands {s : State} {d : Byte} {w : Word} {m : Mode} (hd : operandByte s = .next d)
    (hw : operandWord s = .next w) (hind : m ≠ .indirect) (hjmp : m ≠ .indirectWithJmpBug) :
    ∃ res, resolve m s = .next res := by
  cases m
  case indirect | indirectWithJmpBug => contradiction
  case implied | accumulator | immediate => exact ⟨_, rfl⟩
  case zeroPage | zeroPageX | zeroPageY | relative => exact ⟨_, by rw [resolve, hd, Result.bind_next]⟩
  case absolute | absoluteX | absoluteY => exact ⟨_, by rw [resolve, hw, Result.bind_next]⟩
  case indexedIndirect =>
    obtain ⟨p, hp⟩ := zeroPageWord_next s.bus (d + s.x)
    exact ⟨_, by rw [resolve, hd, Result.bind_next, hp, Result.bind_next]⟩
  case indirectIndexed =>
    obtain ⟨p, hp⟩ := zeroPageWord_next s.bus d
    exact ⟨_, by rw [resolve, hd, Result.bind_next, hp, Result.bind_next]⟩

/-- Settles O29: readable addresses answer by the invariant; where an operand byte stops, so does the mode. -/
theorem readableOperandsResolve : Obligations.ReadableOperandsResolve := by
  refine ⟨fun s => ⟨rfl, rfl, rfl⟩, fun s m hi hind hjmp h1 h2 hpc => ?_, fun s e => ⟨?_, ?_⟩⟩
  · obtain ⟨l, hl⟩ := Bus.readByte_of_readable hi h1
    obtain ⟨h, hh⟩ := Bus.readByte_of_readable hi h2
    exact resolve_of_operands hl (operandWord_of_bytes hl hpc hh) hind hjmp
  · exact fun h m hm => resolve_operandByte_fault h hm
  · exact fun l hl hpc h m hm => resolve_operandWord_fault (operandWord_fault_second hl hpc h) hm

end Sys2Proof.Machine
end

section
/-! The stack operations undo each other (40_execution_and_addressing.md R161 to R164), and the step (R140). -/

namespace Sys2Proof.Machine

/-! ## The step -/

/-- Settles O4: a list of bytes decodes by its first, and the step stops where the fetch stops. -/
theorem stepRunsTheDecodedInstruction : Obligations.StepRunsTheDecodedInstruction := by
  refine ⟨fun s op rest i hop hdec => ?_, fun s f hf => ?_⟩
  · rw [Laws.decode_cons] at hdec
    cases hdec
    rw [step, hop, Result.bind_next]
  · rw [step, hf, Result.bind_fault]

/-! ## The stack -/

/-- R161: the slot that SP points to, as a number. -/
theorem stackAddr_eq_ofNat (sp : Byte) : stackAddr sp = BitVec.ofNat 16 (0x100 + sp.toNat) := by
  rw [← stackAddr_toNat, BitVec.ofNat_toNat, BitVec.setWidth_eq]

/-- R162: the byte a pop answers is the one the bus reads in the slot above SP. -/
theorem pop_of_readByte {s : State} {v : Byte} (h : s.bus.readByte (stackAddr (s.sp + 1#8)) = .next v) :
    pop s = .next (v, s.setSp (s.sp + 1#8)) := by
  simp only [pop, State.setSp_bus, State.setSp_sp, h, Result.bind_next]

/-- R164: the word a pop of a word answers is made of the two bytes above SP, the low byte first. -/
theorem popWord_of_pops {s u t : State} {l h : Byte} (hl : pop s = .next (l, u)) (hh : pop u = .next (h, t)) :
    popWord s = .next (word h l, t) := by
  simp only [popWord, hl, hh, Result.bind_next]

/-- Settles O48: a push stores its byte in the slot that the next pop reads. -/
theorem pushThenPopGivesTheByteBack : Obligations.PushThenPopGivesTheByteBack := by
  refine fun s => ⟨?_, fun v => ⟨pushedBus v s, ?_, push_eq v s, ?_⟩⟩
  · have hread := s.bus.read_ram (stackAddr_inRam (s.sp + 1#8))
    refine ⟨_, ?_, pop_of_readByte hread⟩
    rwa [stackAddr_eq_ofNat, BitVec.toNat_add] at hread
  · rw [← stackAddr_eq_ofNat]
    exact Bus.stored_of_writeByte (pushedBus_write v s)
  · have hback : s.sp - 1#8 + 1#8 = s.sp := BitVec.sub_add_cancel s.sp 1#8
    have hread : (pushedBus v s).readByte (stackAddr (s.sp - 1#8 + 1#8)) = .next v :=
      Bus.readByte_write_same (pushedBus_write v s) (by rw [hback, stackAddr_same_iff])
    rw [pop_of_readByte (s := { s with bus := pushedBus v s, sp := s.sp - 1#8 }) hread]
    simp only [hback, State.setSp]

/-- R8: the high byte as a number. -/
theorem hi_eq_ofNat (w : Word) : hi w = BitVec.ofNat 8 (w.toNat / 256) := by
  rw [← hi_toNat, BitVec.ofNat_toNat, BitVec.setWidth_eq]

/-- R8: the low byte as a number. -/
theorem lo_eq_ofNat (w : Word) : lo w = BitVec.ofNat 8 w.toNat :=
  (BitVec.ofNat_toNat ..).symm

/-- R163: a push of a word leaves its high byte at SP and its low byte below, though SP may wrap between them. -/
theorem pushWord_reads (w : Word) (s : State) :
    ∃ b, pushWord w s = .next ((s.setBus b).setSp (s.sp - 2#8)) ∧
      b.readByte (stackAddr s.sp) = .next (hi w) ∧ b.readByte (stackAddr (s.sp - 1#8)) = .next (lo w) := by
  obtain ⟨b, hpush, b1, hhigh, hlow⟩ := pushWord_eq w s
  have hslots : ¬ sameRamByte (stackAddr (s.sp - 1#8)) (stackAddr s.sp) := by
    rw [stackAddr_same_iff]
    bv_omega
  refine ⟨b, hpush, ?_, Bus.readByte_write_same hlow ((stackAddr_same_iff _ _).mpr rfl)⟩
  rw [Bus.readByte_write_other hlow hslots]
  exact Bus.readByte_write_same hhigh ((stackAddr_same_iff _ _).mpr rfl)

/-- Settles O49: the two pops read the two slots the push wrote. -/
theorem pushWordThenPopWordIsTheIdentity : Obligations.PushWordThenPopWordIsTheIdentity := by
  intro s w
  obtain ⟨b, hpush, hhigh, hlow⟩ := pushWord_reads w s
  have hbelow : s.sp - 2#8 + 1#8 = s.sp - 1#8 := by bv_omega
  have hback : s.sp - 1#8 + 1#8 = s.sp := BitVec.sub_add_cancel s.sp 1#8
  have hpop : pop ((s.setBus b).setSp (s.sp - 2#8)) = .next (lo w, (s.setBus b).setSp (s.sp - 1#8)) := by
    rw [← hbelow] at hlow ⊢
    exact pop_of_readByte (s := (s.setBus b).setSp (s.sp - 2#8)) hlow
  have hpop' : pop ((s.setBus b).setSp (s.sp - 1#8)) = .next (hi w, { s with bus := b }) := by
    rw [← hback] at hhigh
    rw [pop_of_readByte (s := (s.setBus b).setSp (s.sp - 1#8)) hhigh, State.setSp_sp, hback]
    rfl
  have hpopWord := popWord_of_pops hpop hpop'
  rw [word_hi_lo] at hpopWord
  have hslot : (s.sp - 1#8).toNat = (s.sp.toNat + 255) % 256 := by bv_omega
  have hsp : (s.sp - 2#8).toNat = (s.sp.toNat + 254) % 256 := by bv_omega
  rw [← hslot, ← stackAddr_eq_ofNat, ← stackAddr_eq_ofNat, ← hi_eq_ofNat, ← lo_eq_ofNat]
  exact ⟨_, hpush, rfl, hsp, hhigh, hlow, hpopWord, _, hpop, hpop'⟩

end Sys2Proof.Machine
end

section
/-! PC and CYC (40_execution_and_addressing.md R142, R143; 30_encoding.md R112, R120): the opcode table's columns by access
class, and one theorem over `exec`, `exec_advances`, that says how far an instruction moves both. -/

namespace Sys2Proof.Machine

/-! ## The columns of each access class -/

/-- The columns of a list of instructions, read off column by column. -/
theorem hasColumns_of_map {l : List Instr} {len base : Nat} {plus : Bool}
    (hlen : l.map instrLength = List.replicate l.length (some len))
    (hbase : l.map baseCycles = List.replicate l.length (some base))
    (hplus : l.map pageCrossPenalty = List.replicate l.length plus) : ∀ i ∈ l, hasColumns i len base plus :=
  fun i hi =>
    ⟨List.map_eq_replicate_iff.mp hlen i hi, List.map_eq_replicate_iff.mp hbase i hi,
      List.map_eq_replicate_iff.mp hplus i hi⟩

/-- R112, R120: the read class in a memory mode. -/
theorem readForms_columns {m : MemMode} {op : Byte} :
    ∀ i ∈ readForms m op,
      hasColumns i (modeLength m.mode) (readCycles (.mem m)) (readPaysPageCross (.mem m)) :=
  hasColumns_of_map rfl rfl rfl

/-- R112, R120: the store class. -/
theorem storeForms_columns {m : MemMode} :
    ∀ i ∈ storeForms m, hasColumns i (modeLength m.mode) (storeCycles m) false :=
  hasColumns_of_map rfl rfl rfl

/-- R112, R120: the read-modify-write class. -/
theorem rmwForms_columns {m : MemMode} :
    ∀ i ∈ rmwForms m, hasColumns i (modeLength m.mode) (rmwCycles m) false :=
  hasColumns_of_map rfl rfl rfl

/-- R112, R120: the immediate forms. -/
theorem immediateForms_columns {op : Byte} : ∀ i ∈ immediateForms op, hasColumns i 2 2 false :=
  hasColumns_of_map rfl rfl rfl

/-- R112, R120: the implied and accumulator forms. -/
theorem registerForms_columns {op : Byte} : ∀ i ∈ registerForms op, hasColumns i 1 2 false :=
  hasColumns_of_map rfl rfl rfl

/-! ## How far an instruction moves PC and CYC -/

/-- R143, R159, R240: the most cycles an instruction may pay beyond its base cost. -/
def surcharge (i : Instr) : Nat :=
  if isBranch i then 2 else if pageCrossPenalty i then 1 else 0

/-- R142, R143: from `s` to `t`, CYC grew by the base cost and a surcharge the instruction may pay; PC, unless it was
assigned a target, by the length. -/
structure Advances (i : Instr) (s t : State) : Prop where
  pc : transfersControl i = false → ∃ len, instrLength i = some len ∧ t.pc = s.pc + BitVec.ofNat 16 len
  cyc : ∃ base extra, baseCycles i = some base ∧ extra ≤ surcharge i ∧ t.cyc = s.cyc + BitVec.ofNat 64 (base + extra)

section
variable {i : Instr} {s t u : State} {len base : Nat} {plus : Bool}

/-- A control transfer that left CYC alone before it charges its base cost. -/
theorem Advances.of_transfer (hbase : baseCycles i = some base) (hi : transfersControl i = true)
    (hcyc : u.cyc = s.cyc) (target : Word) : Advances i s ((u.setPc target).charge base) where
  pc h := absurd (hi.symm.trans h) (by decide)
  cyc := ⟨base, 0, hbase, Nat.zero_le _, by rw [State.charge_cyc, State.setPc_cyc, hcyc]; rfl⟩

/-- An instruction that touches neither PC nor CYC before it retires, with its own columns. -/
theorem Advances.of_retire (hc : hasColumns i len base plus) (hpc : u.pc = s.pc) (hcyc : u.cyc = s.cyc) :
    Advances i s (u.retire len base) where
  pc _ := ⟨len, hc.1, by rw [State.retire_pc, hpc]⟩
  cyc := ⟨base, 0, hc.2.1, Nat.zero_le _, by rw [State.retire_cyc, hcyc]; rfl⟩

/-- R158, R159: the read template pays one more cycle where the opcode has the penalty and a page was crossed. -/
theorem readTemplate_advances {m : DataMode} {effect : Byte → State → State} (h : readTemplate m effect s = .next t)
    (hc : hasColumns i (modeLength m.mode) (readCycles m) (readPaysPageCross m))
    (he : ∀ v, (effect v s).pc = s.pc ∧ (effect v s).cyc = s.cyc) : Advances i s t := by
  obtain ⟨res, v, _, _, rfl⟩ := readTemplate_next h
  obtain ⟨hlen, hbase, hplus⟩ := hc
  obtain ⟨hpc, hcyc⟩ := he v
  refine ⟨fun _ => ⟨_, hlen, by rw [State.retire_pc, hpc]⟩,
    ⟨_, if readPaysPageCross m && res.pageCrossed then 1 else 0, hbase, ?_, ?_⟩⟩
  · rw [surcharge, hplus]
    cases isBranch i <;> cases readPaysPageCross m <;> cases res.pageCrossed <;> decide
  · rw [State.retire_cyc, hcyc, readCost]

theorem storeTemplate_advances {m : MemMode} {v : Byte} (h : storeTemplate m v s = .next t)
    (hc : hasColumns i (modeLength m.mode) (storeCycles m) false) : Advances i s t := by
  obtain ⟨_, _, _, _, rfl⟩ := storeTemplate_next h
  exact .of_retire hc rfl rfl

theorem rmwTemplate_advances {m : MemMode} {f : Byte → Byte → Byte × Byte} (h : rmwTemplate m f s = .next t)
    (hc : hasColumns i (modeLength m.mode) (rmwCycles m) false) : Advances i s t := by
  obtain ⟨_, _, _, _, _, _, rfl⟩ := rmwTemplate_next h
  exact .of_retire hc rfl rfl

/-- R290: a composite puts PC and CYC back before it retires. -/
theorem compositeTemplate_advances {m : MemMode} {f : Byte → Byte → Byte × Byte} {effect : Byte → State → State}
    (h : compositeTemplate m f effect s = .next t)
    (hc : hasColumns i (modeLength m.mode) (rmwCycles m) false) : Advances i s t := by
  obtain ⟨_, _, _, _, _, _, _, _, _, _, rfl⟩ := compositeTemplate_next h
  exact .of_retire hc rfl rfl

/-- The implied instructions: one byte, the base cost. -/
theorem implied_advances (h : (Host.Outcome.next (u.retire len base) : Result State) = .next t)
    (hc : hasColumns i len base false) (hpc : u.pc = s.pc) (hcyc : u.cyc = s.cyc) : Advances i s t := by
  cases h
  exact .of_retire hc hpc hcyc

/-- R240: a branch taken pays one cycle more, and another across a page. -/
theorem branchTemplate_advances {taken : Bool} (h : branchTemplate taken s = .next t) (hi : isBranch i = true)
    (htransfer : transfersControl i = true) (hbase : baseCycles i = some 2) : Advances i s t := by
  obtain ⟨d, _, rfl⟩ := branchTemplate_next h
  refine ⟨fun hno => absurd (htransfer.symm.trans hno) (by decide), ?_⟩
  rw [surcharge, if_pos hi]
  cases taken
  · exact ⟨2, 0, hbase, by decide, rfl⟩
  · cases hcross : (branchTarget s.pc d).pageCrossed
    · exact ⟨2, 1, hbase, by decide, by simp⟩
    · exact ⟨2, 2, hbase, by decide, by simp⟩

/-! ## The stack instructions and the jumps -/

theorem push_pc_cyc {v : Byte} (h : push v s = .next t) : t.pc = s.pc ∧ t.cyc = s.cyc := by
  rw [push_eq] at h
  cases h
  exact ⟨rfl, rfl⟩

theorem pop_pc_cyc {v : Byte} (h : pop s = .next (v, t)) : t.pc = s.pc ∧ t.cyc = s.cyc := by
  rw [pop_eq] at h
  cases h
  exact ⟨rfl, rfl⟩

theorem pushWord_cyc {w : Word} (h : pushWord w s = .next t) : t.cyc = s.cyc := by
  obtain ⟨u, hu, ht⟩ := Result.bind_eq_next.mp h
  exact (push_pc_cyc ht).2.trans (push_pc_cyc hu).2

theorem popWord_cyc {w : Word} (h : popWord s = .next (w, t)) : t.cyc = s.cyc := by
  rw [popWord_eq] at h
  cases h
  rfl

/-- R260, R261: PHA and PHP. -/
theorem push_retire_advances {v : Byte}
    (h : ((push v s).bind fun s' => Host.Outcome.next (s'.retire 1 3)) = .next t) (hc : hasColumns i 1 3 false) :
    Advances i s t := by
  obtain ⟨u, hu, ht⟩ := Result.bind_eq_next.mp h
  obtain ⟨hpc, hcyc⟩ := push_pc_cyc hu
  exact implied_advances ht hc hpc hcyc

theorem execPla_advances (h : execPla s = .next t) : Advances .pla s t := by
  obtain ⟨⟨v, u⟩, hu, ht⟩ := Result.bind_eq_next.mp h
  obtain ⟨hpc, hcyc⟩ := pop_pc_cyc hu
  exact implied_advances ht ⟨rfl, rfl, rfl⟩ hpc hcyc

theorem execPlp_advances (h : execPlp s = .next t) : Advances .plp s t := by
  obtain ⟨⟨v, u⟩, hu, ht⟩ := Result.bind_eq_next.mp h
  obtain ⟨hpc, hcyc⟩ := pop_pc_cyc hu
  exact implied_advances ht ⟨rfl, rfl, rfl⟩ hpc hcyc

theorem execJmp_advances {m : JmpMode} (h : execJmp m s = .next t) : Advances (.jmp m) s t := by
  obtain ⟨res, _, ht⟩ := Result.bind_eq_next.mp h
  cases ht
  exact .of_transfer rfl rfl rfl _

theorem execJsr_advances (h : execJsr s = .next t) : Advances .jsr s t := by
  obtain ⟨res, _, hrest⟩ := Result.bind_eq_next.mp h
  obtain ⟨u, hu, ht⟩ := Result.bind_eq_next.mp hrest
  cases ht
  exact .of_transfer rfl rfl (pushWord_cyc hu) _

theorem execRts_advances (h : execRts s = .next t) : Advances .rts s t := by
  obtain ⟨⟨w, u⟩, hu, ht⟩ := Result.bind_eq_next.mp h
  cases ht
  exact .of_transfer rfl rfl (popWord_cyc hu) _

theorem execRti_advances (h : execRti s = .next t) : Advances .rti s t := by
  obtain ⟨⟨v, u⟩, hu, hrest⟩ := Result.bind_eq_next.mp h
  obtain ⟨⟨w, u'⟩, hu', ht⟩ := Result.bind_eq_next.mp hrest
  cases ht
  exact .of_transfer rfl rfl ((popWord_cyc hu').trans (pop_pc_cyc hu).2) _

end

/-- R142, R143: how far an instruction that completes moves PC and CYC. -/
theorem exec_advances {i : Instr} {s t : State} (h : exec i s = .next t) : Advances i s t := by
  cases i with
  | unimplemented op => cases h
  | lda m | ldx m | ldy m | adc m | sbc m _ | and m | ora m | eor m | cmp m | cpx m | cpy m | bit m | lax m =>
    exact readTemplate_advances h ⟨rfl, rfl, rfl⟩ fun _ => ⟨rfl, rfl⟩
  | nop m op =>
    cases m with
    | implied => exact implied_advances h ⟨rfl, rfl, rfl⟩ rfl rfl
    | operand m => exact readTemplate_advances h ⟨rfl, rfl, rfl⟩ fun _ => ⟨rfl, rfl⟩
  | sta m | stx m | sty m | sax m => exact storeTemplate_advances h ⟨rfl, rfl, rfl⟩
  | asl m | lsr m | rol m | ror m =>
    cases m with
    | acc => exact implied_advances h ⟨rfl, rfl, rfl⟩ rfl rfl
    | mem m => exact rmwTemplate_advances h ⟨rfl, rfl, rfl⟩
  | inc m | dec m => exact rmwTemplate_advances h ⟨rfl, rfl, rfl⟩
  | slo m | sre m | rla m | rra m | dcp m | isc m => exact compositeTemplate_advances h ⟨rfl, rfl, rfl⟩
  | tax | tay | txa | tya | tsx | txs | inx | dex | iny | dey | clc | sec | cli | sei | clv | cld | sed =>
    exact implied_advances h ⟨rfl, rfl, rfl⟩ rfl rfl
  | bcc | bcs | bne | beq | bpl | bmi | bvc | bvs => exact branchTemplate_advances h rfl rfl rfl
  | jmp m => exact execJmp_advances h
  | jsr => exact execJsr_advances h
  | rts => exact execRts_advances h
  | rti => exact execRti_advances h
  | pha | php => exact push_retire_advances h ⟨rfl, rfl, rfl⟩
  | pla => exact execPla_advances h
  | plp => exact execPlp_advances h

/-! ## The costs -/

/-- R120, R159: the read class, with its surcharge. -/
theorem readCycles_bounds (m : DataMode) :
    2 ≤ readCycles m ∧ readCycles m + (if readPaysPageCross m then 1 else 0) ≤ 8 := by
  rcases m with _ | m
  · decide
  · cases m <;> decide

/-- R120: the store class. -/
theorem storeCycles_bounds (m : MemMode) : 2 ≤ storeCycles m ∧ storeCycles m ≤ 8 := by
  cases m <;> decide

/-- R120, R290: the read-modify-write class. -/
theorem rmwCycles_bounds (m : MemMode) : 2 ≤ rmwCycles m ∧ rmwCycles m ≤ 8 := by
  cases m <;> decide

/-- R348: no instruction costs less than 2 cycles or, all surcharges paid, more than 8. -/
theorem baseCycles_bounds {i : Instr} {base : Nat} (h : baseCycles i = some base) :
    2 ≤ base ∧ base + surcharge i ≤ 8 := by
  cases i with
  | unimplemented op => cases h
  | lda m | ldx m | ldy m | adc m | sbc m _ | and m | ora m | eor m | cmp m | cpx m | cpy m =>
    cases h
    exact readCycles_bounds m
  | bit m | lax m =>
    cases h
    exact readCycles_bounds (.mem m)
  | nop m op =>
    cases m with
    | implied => cases h; exact ⟨Nat.le_refl 2, by simp [surcharge, isBranch, pageCrossPenalty]⟩
    | operand m => cases h; exact readCycles_bounds m
  | sta m | stx m | sty m | sax m =>
    cases h
    exact storeCycles_bounds m
  | asl m | lsr m | rol m | ror m =>
    cases m with
    | acc => cases h; decide
    | mem m => cases h; exact rmwCycles_bounds m
  | inc m | dec m | slo m | sre m | rla m | rra m | dcp m | isc m =>
    cases h
    exact rmwCycles_bounds m
  | jmp m => cases m <;> cases h <;> decide
  | tax | tay | txa | tya | tsx | txs | inx | dex | iny | dey | clc | sec | cli | sei | clv | cld | sed
  | bcc | bcs | bne | beq | bpl | bmi | bvc | bvs | jsr | rts | rti | pha | php | pla | plp =>
    cases h
    decide

/-- R143, R159, R240: a cost within the surcharge is the base cost, one more, or two more for a branch. -/
theorem cost_cases {i : Instr} {extra : Nat} (base : Nat) (h : extra ≤ surcharge i) :
    base + extra = base ∨ (base + extra = base + 1 ∧ (pageCrossPenalty i = true ∨ isBranch i = true)) ∨
      (base + extra = base + 2 ∧ isBranch i = true) := by
  rw [surcharge] at h
  split at h
  · next hbranch =>
    simp only [hbranch, or_true, and_true]
    omega
  · split at h
    · next hplus =>
      simp only [hplus, true_or, and_true]
      omega
    · exact .inl (by omega)

/-- R112, R120: a row of the table of memory modes: length, read class with its penalty, store class,
read-modify-write class. -/
def columnsRow (m : MemMode) : MemMode × Nat × Nat × Bool × Nat × Nat :=
  (m, modeLength m.mode, readCycles (.mem m), readPaysPageCross (.mem m), storeCycles m, rmwCycles m)

/-- Settles O13: the rows are those of the cost functions, and a completed step advances CYC within its surcharge. -/
theorem everyStepCostsTwoToEightCycles : Obligations.EveryStepCostsTwoToEightCycles := by
  refine ⟨fun op => ⟨?_, immediateForms_columns, registerForms_columns, hasColumns_of_map rfl rfl rfl,
    hasColumns_of_map rfl rfl rfl, hasColumns_of_map rfl rfl rfl, ⟨rfl, rfl, rfl⟩, ⟨rfl, rfl, rfl⟩, ⟨rfl, rfl, rfl⟩,
    hasColumns_of_map rfl rfl rfl, rfl, rfl⟩, fun s t h => ?_⟩
  · intro m len read store rmw plus hrow
    obtain ⟨_, _, heq⟩ : ∃ m' ∈ [MemMode.zp, .zpX, .zpY, .abs, .absX, .absY, .indX, .indY],
        columnsRow m' = (m, len, read, plus, store, rmw) := List.mem_map.mp hrow
    cases heq
    exact ⟨readForms_columns, storeForms_columns, rmwForms_columns⟩
  · obtain ⟨op, hop, hexec⟩ := step_next h
    obtain ⟨base, extra, hbase, hextra, hcyc⟩ := (exec_advances hexec).cyc
    obtain ⟨hlow, hhigh⟩ := baseCycles_bounds hbase
    exact ⟨op, base, base + extra, hop, hbase, hcyc, by omega, by omega, cost_cases base hextra⟩

/-! ## The program counter -/

/-- R142: an instruction that is no control transfer advances PC by its length. -/
theorem exec_pc {i : Instr} {s t : State} {len : Nat} (hi : transfersControl i = false) (hlen : instrLength i = some len)
    (h : exec i s = .next t) : t.pc = s.pc + BitVec.ofNat 16 len := by
  obtain ⟨len', hlen', hpc⟩ := (exec_advances h).pc hi
  cases hlen.symm.trans hlen'
  exact hpc

/-- R142: no instruction with a memory mode transfers control. -/
theorem memoryForms_stay {m : MemMode} {op : Byte} :
    ∀ i ∈ readForms m op ++ storeForms m ++ rmwForms m, transfersControl i = false :=
  List.map_eq_replicate_iff.mp rfl

/-- R112: the instructions with a memory mode have its length. -/
theorem memoryForms_length {m : MemMode} {op : Byte} :
    ∀ i ∈ readForms m op ++ storeForms m ++ rmwForms m, instrLength i = some (modeLength m.mode) :=
  List.map_eq_replicate_iff.mp rfl

/-- R112, R142: the instructions with a memory mode advance PC by the length of the mode. -/
theorem memoryForms_pc {m : MemMode} {op : Byte} {s t : State} :
    ∀ i ∈ readForms m op ++ storeForms m ++ rmwForms m, exec i s = .next t →
      t.pc = s.pc + BitVec.ofNat 16 (modeLength m.mode) :=
  fun i hi => exec_pc (memoryForms_stay i hi) (memoryForms_length i hi)

/-- R112: the implied and accumulator forms and the stack instructions that transfer no control have length 1. -/
theorem oneByteForms_stay_length {op : Byte} : ∀ i ∈ registerForms op ++ [.pha, .php, .pla, .plp],
    transfersControl i = false ∧ instrLength i = some 1 :=
  fun i hi => ⟨List.map_eq_replicate_iff.mp rfl i hi, List.map_eq_replicate_iff.mp rfl i hi⟩

/-- R142: no immediate form transfers control. -/
theorem immediateForms_stay {op : Byte} : ∀ i ∈ immediateForms op, transfersControl i = false :=
  List.map_eq_replicate_iff.mp rfl

/-- Settles O14: PC by the length column, and the length by the form. -/
theorem pcAdvancesByTheLength : Obligations.PcAdvancesByTheLength := by
  refine ⟨fun i s t hi h => ?_, fun s t op => ⟨fun i hi => ?_, fun i hi => ?_, fun m hm => ?_, fun m hm => ?_⟩⟩
  · obtain ⟨len, hlen, hpc⟩ := (exec_advances h).pc hi
    exact ⟨len, hlen, by rw [hpc, BitVec.toNat_add, BitVec.toNat_ofNat, Nat.add_mod_mod]⟩
  · obtain ⟨hstay, hlen⟩ := oneByteForms_stay_length i hi
    exact exec_pc hstay hlen
  · exact exec_pc (immediateForms_stay i hi) (immediateForms_columns i hi).1
  · simp only [List.mem_cons, List.not_mem_nil, or_false] at hm
    rcases hm with rfl | rfl | rfl | rfl | rfl <;> exact memoryForms_pc
  · simp only [List.mem_cons, List.not_mem_nil, or_false] at hm
    rcases hm with rfl | rfl | rfl <;> exact memoryForms_pc

end Sys2Proof.Machine
end

section
/-! Where an instruction stops (40_execution_and_addressing.md R144; 60_exceptions.md R317, R318; 46_illegal_composites.md
R290): each access class is its template, and a template stops at the first of its accesses that stops. -/

namespace Sys2Proof.Machine

/-! ## The template of each access class -/

/-- Two lists of values that agree: every entry of the one is the value of an entry of the other. -/
theorem exists_of_map_eq_map {α β γ : Type} {f : α → γ} {g : β → γ} {l : List α} {l' : List β}
    (h : l.map f = l'.map g) : ∀ a ∈ l, ∃ b ∈ l', f a = g b := by
  intro a ha
  have hmem := List.mem_map_of_mem (f := f) ha
  rw [h] at hmem
  obtain ⟨b, hb, heq⟩ := List.mem_map.mp hmem
  exact ⟨b, hb, heq.symm⟩

section
variable {m : MemMode} {op : Byte}

/-- R158: the read class in a memory mode, effect by effect. -/
theorem exec_readForms : ∀ i ∈ readForms m op, ∃ effect, exec i = readTemplate (.mem m) effect := by
  have hmap : (readForms m op).map exec =
      [loadA, loadX, loadY, addToA, subtractFromA, andA, orA, eorA, compareA, compareX, compareY, testA, loadAX,
        dropByte].map (readTemplate (.mem m)) := rfl
  exact fun i hi => (exists_of_map_eq_map hmap i hi).imp fun _ h => h.2

/-- R158: the immediate forms, effect by effect. -/
theorem exec_immediateForms : ∀ i ∈ immediateForms op, ∃ effect, exec i = readTemplate .imm effect := by
  have hmap : (immediateForms op).map exec =
      [loadA, loadX, loadY, addToA, subtractFromA, subtractFromA, andA, orA, eorA, compareA, compareX, compareY,
        dropByte].map (readTemplate .imm) := rfl
  exact fun i hi => (exists_of_map_eq_map hmap i hi).imp fun _ h => h.2

/-- R167: the store class, register by register. -/
theorem exec_storeForms : ∀ i ∈ storeForms m, ∃ v : State → Byte, ∀ s, exec i s = storeTemplate m (v s) s := by
  have hmap : (storeForms m).map exec =
      [State.a, State.x, State.y, fun s => s.a &&& s.x].map fun v s => storeTemplate m (v s) s := rfl
  exact fun i hi => (exists_of_map_eq_map hmap i hi).imp fun _ h => congrFun h.2

/-- R290: a composite is its template with the operation of its first half. -/
theorem exec_composite {i : Instr} {f : Byte → Byte → Byte × Byte}
    (h : (i, f) ∈
      [(Instr.slo m, asl), (.sre m, lsr), (.rla m, rol), (.rra m, ror), (.dcp m, decrement), (.isc m, increment)]) :
    ∃ effect, exec i = compositeTemplate m f effect := by
  simp only [List.mem_cons, Prod.mk.injEq, List.not_mem_nil, or_false] at h
  rcases h with ⟨rfl, rfl⟩ | ⟨rfl, rfl⟩ | ⟨rfl, rfl⟩ | ⟨rfl, rfl⟩ | ⟨rfl, rfl⟩ | ⟨rfl, rfl⟩ <;> exact ⟨_, rfl⟩

/-- R168, R290: the read-modify-write class is its template, or a composite over it. -/
theorem exec_rmwForms : ∀ i ∈ rmwForms m,
    (∃ f, exec i = rmwTemplate m f) ∨ ∃ f effect, exec i = compositeTemplate m f effect := by
  intro i hi
  have hplain : [.asl (.mem m), .lsr (.mem m), .rol (.mem m), .ror (.mem m), .inc m, .dec m].map exec =
      [asl, lsr, rol, ror, increment, decrement].map (rmwTemplate m) := rfl
  have hcomposite : [.slo m, .sre m, .rla m, .rra m, .dcp m, .isc m].map exec =
      [(asl, orA), (lsr, eorA), (rol, andA), (ror, addToA), (decrement, compareA), (increment, subtractFromA)].map
        fun c => compositeTemplate m c.1 c.2 := rfl
  rcases List.mem_append.mp
    (show i ∈ [.asl (.mem m), .lsr (.mem m), .rol (.mem m), .ror (.mem m), .inc m, .dec m] ++ _ from hi) with hi | hi
  · obtain ⟨f, _, h⟩ := exists_of_map_eq_map hplain i hi
    exact .inl ⟨f, h⟩
  · obtain ⟨c, _, h⟩ := exists_of_map_eq_map hcomposite i hi
    exact .inr ⟨c.1, c.2, h⟩

end

/-! ## Where a template stops -/

section
variable {s : State} {res : AddressResolution} {e : Fault}

theorem readTemplate_of_resolve_fault {m : DataMode} {effect : Byte → State → State}
    (h : resolve m.mode s = .fault e) : readTemplate m effect s = .fault e := by
  rw [readTemplate, h, Result.bind_fault]

theorem readTemplate_of_read_fault {m : DataMode} {effect : Byte → State → State} (hr : resolve m.mode s = .next res)
    (h : s.bus.readByte res.address = .fault e) : readTemplate m effect s = .fault e := by
  rw [readTemplate, hr, Result.bind_next, h, Result.bind_fault]

theorem storeTemplate_of_resolve_fault {m : MemMode} {v : Byte} (h : resolve m.mode s = .fault e) :
    storeTemplate m v s = .fault e := by
  rw [storeTemplate, h, Result.bind_fault]

theorem rmwTemplate_of_resolve_fault {m : MemMode} {f : Byte → Byte → Byte × Byte} (h : resolve m.mode s = .fault e) :
    rmwTemplate m f s = .fault e := by
  rw [rmwTemplate, h, Result.bind_fault]

theorem rmwTemplate_of_read_fault {m : MemMode} {f : Byte → Byte → Byte × Byte} (hr : resolve m.mode s = .next res)
    (h : s.bus.readByte res.address = .fault e) : rmwTemplate m f s = .fault e := by
  rw [rmwTemplate, hr, Result.bind_next, h, Result.bind_fault]

/-- R290: a composite stops where its first half stops. -/
theorem compositeTemplate_of_rmw_fault {m : MemMode} {f : Byte → Byte → Byte × Byte} {effect : Byte → State → State}
    (h : rmwTemplate m f s = .fault e) : compositeTemplate m f effect s = .fault e := by
  rw [compositeTemplate, h, Result.bind_fault]

/-- R290, decision D11: once its first half has written, a composite resolves again, and stops where the read there
stops. -/
theorem compositeTemplate_second_fault {m : MemMode} {f : Byte → Byte → Byte × Byte} {effect : Byte → State → State}
    {res2 : AddressResolution} {v : Byte} {b : Bus} (hr : resolve m.mode s = .next res)
    (hv : s.bus.readByte res.address = .next v) (hb : s.bus.writeByte res.address (f v s.p).1 = .next b)
    (hr2 : resolve m.mode { s with bus := b } = .next res2) (h : b.readByte res2.address = .fault e) :
    compositeTemplate m f effect s = .fault e := by
  have hagain : resolve m.mode (rewound s b (f v s.p).2) = .next res2 :=
    (resolve_congr m.mode rfl rfl rfl rfl).trans hr2
  rw [compositeTemplate_second f effect hr hv hb, readTemplate_of_read_fault (m := .mem m) hagain h, Result.bind_fault]

end

/-! ## Where an instruction with a memory mode stops -/

section
variable {m : MemMode} {op : Byte} {s : State} {res : AddressResolution} {e : Fault} {i : Instr}

/-- R144: an instruction with a memory mode stops where its mode stops. -/
theorem exec_of_resolve_fault (hi : i ∈ readForms m op ++ storeForms m ++ rmwForms m)
    (h : resolve m.mode s = .fault e) : exec i s = .fault e := by
  rw [List.mem_append, List.mem_append] at hi
  rcases hi with (hread | hstore) | hrmw
  · obtain ⟨effect, hexec⟩ := exec_readForms i hread
    rw [hexec, readTemplate_of_resolve_fault (m := .mem m) h]
  · obtain ⟨v, hexec⟩ := exec_storeForms i hstore
    rw [hexec, storeTemplate_of_resolve_fault h]
  · rcases exec_rmwForms i hrmw with ⟨f, hexec⟩ | ⟨f, effect, hexec⟩
    · rw [hexec, rmwTemplate_of_resolve_fault h]
    · rw [hexec, compositeTemplate_of_rmw_fault (rmwTemplate_of_resolve_fault h)]

/-- R144: an instruction that reads its operand's address stops where this read stops. -/
theorem exec_of_read_fault (hi : i ∈ readForms m op ++ rmwForms m) (hr : resolve m.mode s = .next res)
    (h : s.bus.readByte res.address = .fault e) : exec i s = .fault e := by
  rw [List.mem_append] at hi
  rcases hi with hread | hrmw
  · obtain ⟨effect, hexec⟩ := exec_readForms i hread
    rw [hexec, readTemplate_of_read_fault (m := .mem m) hr h]
  · rcases exec_rmwForms i hrmw with ⟨f, hexec⟩ | ⟨f, effect, hexec⟩
    · rw [hexec, rmwTemplate_of_read_fault hr h]
    · rw [hexec, compositeTemplate_of_rmw_fault (rmwTemplate_of_read_fault hr h)]

/-- R146: an immediate form reads its operand at `PC + 1`. -/
theorem exec_immediate_of_read_fault (hi : i ∈ immediateForms op) (h : s.bus.readByte (s.pc + 1#16) = .fault e) :
    exec i s = .fault e := by
  obtain ⟨effect, hexec⟩ := exec_immediateForms i hi
  rw [hexec, readTemplate_of_read_fault (m := .imm) rfl h]

end

/-! ## Runs -/

/-- R345: a run that the host stopped goes on as the run from where it stopped. -/
theorem State.run_add {n : Nat} {s t : State} (h : s.run n = (t, .host)) (k : Nat) : s.run (n + k) = t.run k := by
  induction n generalizing s with
  | zero =>
    cases h
    rw [Nat.zero_add]
  | succ n ih =>
    rw [Nat.add_right_comm]
    rw [State.run] at h ⊢
    cases hstep : step s with
    | next u =>
      rw [hstep] at h
      exact ih h
    | fault f =>
      rw [hstep] at h
      cases h
    | refused r =>
      rw [hstep] at h
      cases h

/-- R318, R345: a run that begins with a fault ends in the state it began in, however many steps are left. -/
theorem State.run_of_fault {t : State} {e : Fault} (h : step t = .fault e) (k : Nat) :
    t.run (k + 1) = (t, .fault e) := by
  rw [State.run, h]

/-- Settles O59: each class stops at its template's first access that stops, and a run stops with the step. -/
theorem faultsComeInAccessOrder : Obligations.FaultsComeInAccessOrder := by
  refine ⟨fun s m op e => ⟨fun i hi => exec_of_resolve_fault hi, fun i hi res => exec_of_read_fault hi⟩,
    fun s op e i hi => exec_immediate_of_read_fault hi, ?_, ?_⟩
  · intro s m res v b e i f hi hr hv hb
    obtain ⟨effect, hexec⟩ := exec_composite hi
    obtain ⟨res2, hr2⟩ := resolve_after_write hr hb
    exact ⟨res2, hr2, fun h => by rw [hexec, compositeTemplate_second_fault hr hv hb hr2 h]⟩
  · intro s t n k e hrun hfault
    rw [Nat.add_assoc, State.run_add hrun, Nat.add_comm, State.run_of_fault hfault]

end Sys2Proof.Machine
end

section
/-! Data movement (41_data_movement.md R180 to R191; 46_illegal_composites.md R297, R298): the flags of a loaded byte, a
template that completes written with the columns of its opcode, the loads, the stores and the transfers. -/

namespace Sys2Proof.Machine

/-! ## Words of the encoding tables -/

/-- R117, R121: a word that begins with an instruction's opcode decodes to the instruction. -/
theorem decode_of_opcode {i : Instr} {op : Byte} (h : opcode i = some op) (operands : List Byte) :
    decode (op :: operands) = .ok i := by
  rw [Laws.decode_cons, decodeByte_opcode h]

/-- Settles O3: each word begins with the opcode that its encoding table gives the instruction. -/
theorem knownWordsDecode : Obligations.KnownWordsDecode :=
  ⟨decode_of_opcode rfl _, decode_of_opcode rfl _, decode_of_opcode rfl _, decode_of_opcode rfl _,
    decode_of_opcode rfl _, decode_of_opcode rfl _, decode_of_opcode rfl _, decode_of_opcode rfl _,
    decode_of_opcode rfl _, decode_of_opcode rfl _⟩

/-! ## The flags of a loaded byte -/

/-- R165: bit 7 of a byte says that its number is at least `$80`. -/
theorem getLsbD_seven_eq_decide (v : Byte) : v.getLsbD 7 = decide (0x80 ≤ v.toNat) :=
  (BitVec.msb_eq_getLsbD_last v).symm.trans (BitVec.msb_eq_decide v)

/-- R165: `setZN` writes the zero and negative flags of its byte. -/
theorem setZN_zeroNegativeOf (v p : Byte) : zeroNegativeOf v (setZN v p) :=
  ⟨flag_setZN .z v p, (flag_setZN .n v p).trans (getLsbD_seven_eq_decide v)⟩

/-- R165: the flags but Z and N stay. -/
theorem setZN_flagsKept (v p : Byte) : flagsKept [.z, .n] p (setZN v p) :=
  setZN_kept (by simp) (by simp) (fun _ _ => rfl) v

/-- The status that an instruction writing Z and N alone leaves is the one `setZN` computes. -/
theorem exists_of_setZN {v p : Byte} {P : Byte → Prop} (h : P (setZN v p)) :
    ∃ q, zeroNegativeOf v q ∧ flagsKept [.z, .n] p q ∧ P q :=
  ⟨setZN v p, setZN_zeroNegativeOf v p, setZN_flagsKept v p, h⟩

/-! ## Completed templates -/

section
variable {i : Instr} {s : State} {res : AddressResolution} {v : Byte}

/-- R142, R143, R159: retiring with the columns of an instruction completes it. -/
theorem retire_eq_completed {len base : Nat} {plus : Bool} (hc : hasColumns i len base plus) (crossed : Bool)
    (s : State) : s.retire len (base + if plus && crossed then 1 else 0) = completed i crossed s := by
  obtain ⟨hlen, hbase, hplus⟩ := hc
  rw [completed, hlen, hbase, hplus]
  rfl

/-- R158: a read-class instruction whose operand reads completes with its effect. -/
theorem readTemplate_eq_completed {m : DataMode} (effect : Byte → State → State)
    (hc : hasColumns i (modeLength m.mode) (readCycles m) (readPaysPageCross m))
    (hr : resolve m.mode s = .next res) (hv : s.bus.readByte res.address = .next v) :
    readTemplate m effect s = .next (completed i res.pageCrossed (effect v s)) := by
  rw [readTemplate_eq effect hr hv, readCost, retire_eq_completed hc]

variable {m : MemMode}

/-- R160, R167: a store whose write answers completes, and its cost has no conditional part. -/
theorem storeTemplate_eq_completed {b : Bus} (hc : hasColumns i (modeLength m.mode) (storeCycles m) false)
    (hr : resolve m.mode s = .next res) (hb : s.bus.writeByte res.address v = .next b) :
    storeTemplate m v s = .next (completed i false (s.setBus b)) := by
  rw [storeTemplate, hr, Result.bind_next, hb, Result.bind_next, ← retire_eq_completed hc]
  rfl

/-- R167: a store stops where its write stops. -/
theorem storeTemplate_of_write_fault {e : Fault} (hr : resolve m.mode s = .next res)
    (hb : s.bus.writeByte res.address v = .fault e) : storeTemplate m v s = .fault e := by
  rw [storeTemplate, hr, Result.bind_next, hb, Result.bind_fault]

end

/-! ## Loads -/

/-- Settles O30: the loads are the read template with the columns of their opcodes, and each effect is a register
and `setZN`. -/
theorem loadsReplaceTheRegister : Obligations.LoadsReplaceTheRegister := by
  intro s m res v hr hv
  refine exists_of_setZN ⟨?lda, ?ldx, ?ldy, ?lax⟩
  case lda => exact readTemplate_eq_completed loadA ⟨rfl, rfl, rfl⟩ hr hv
  case ldx => exact readTemplate_eq_completed loadX ⟨rfl, rfl, rfl⟩ hr hv
  case ldy => exact readTemplate_eq_completed loadY ⟨rfl, rfl, rfl⟩ hr hv
  case lax =>
    rintro mm rfl
    exact readTemplate_eq_completed loadAX ⟨rfl, rfl, rfl⟩ hr hv

/-! ## Stores -/

/-- R68 to R70, R86: a write to RAM or to a dropped address answers. -/
theorem Bus.writeByte_of_inRam_or_dropped (b : Bus) {addr : Word} (h : inRam addr ∨ dropped addr) (v : Byte) :
    ∃ b', b.writeByte addr v = .next b' := by
  rcases h with hram | hdrop
  · exact ⟨_, b.writeByte_ram hram v⟩
  · exact ⟨b, b.writeByte_dropped hdrop v⟩

/-- R71: a write to every other address faults. -/
theorem Bus.writeByte_of_not_inRam_not_dropped (b : Bus) {addr : Word} (hram : ¬ inRam addr) (hdrop : ¬ dropped addr)
    (v : Byte) : b.writeByte addr v = .fault (.unhandledWrite addr v) := by
  unfold inRam at hram
  unfold dropped at hdrop
  exact b.writeByte_unhandled v (by omega)

/-- R112, R120: each store with its byte has the columns of the store class. -/
theorem store_columns {s : State} {m : MemMode} {i : Instr} {v : Byte}
    (h : (i, v) ∈ [(Instr.sta m, s.a), (.stx m, s.x), (.sty m, s.y), (.sax m, s.a &&& s.x)]) :
    hasColumns i (modeLength m.mode) (storeCycles m) false :=
  storeForms_columns i (List.mem_map_of_mem (f := Prod.fst) h)

/-- Settles O31: the store template completes or stops with its one write. -/
theorem storesWriteTheResolvedAddress : Obligations.StoresWriteTheResolvedAddress := by
  intro s m res i v hstore hr
  rw [exec_store hstore]
  refine ⟨fun haddr => ?_, fun hram hdrop => ?_⟩
  · obtain ⟨b, hb⟩ := s.bus.writeByte_of_inRam_or_dropped haddr v
    exact ⟨b, Bus.stored_of_writeByte hb, storeTemplate_eq_completed (store_columns hstore) hr hb⟩
  · exact storeTemplate_of_write_fault hr (s.bus.writeByte_of_not_inRam_not_dropped hram hdrop v)

/-! ## Transfers -/

/-- Settles O32: a transfer is the load of its source, which writes Z and N by `setZN`; TXS writes SP alone. -/
theorem transfersCopyARegister : Obligations.TransfersCopyARegister := by
  refine ⟨rfl, fun s => ⟨?fromA, ?fromX, ?fromY, ?fromSp, ?txs⟩⟩
  case fromA => exact exists_of_setZN ⟨rfl, rfl⟩
  case fromX => exact exists_of_setZN rfl
  case fromY => exact exists_of_setZN rfl
  case fromSp => exact exists_of_setZN rfl
  case txs => rfl

end Sys2Proof.Machine
end

section
/-! Arithmetic and logical instructions (42_arithmetic_logical.md R200 to R205; 46_illegal_composites.md R299): the sign
bit that the overflow formulas compare, the status that ADC and SBC leave, SBC as ADC of the complement, and the
read-class instructions that write A and the flags. -/

namespace Sys2Proof.Machine

/-! ## The sign bit and the carry -/

/-- R200, R201: the exclusive or of two bytes has bit 7 clear exactly when the bytes have one sign. -/
theorem xor_signBit_beq_zero (a b : Byte) :
    (((a ^^^ b) &&& 0x80#8) == 0#8) = decide (a.toNat / 128 = b.toNat / 128) := by
  have hmask : (((a ^^^ b) &&& 0x80#8) == 0#8) = (a.getLsbD 7 == b.getLsbD 7) := by
    rw [show 0x80#8 = BitVec.twoPow 8 7 from rfl, BitVec.and_twoPow, BitVec.getLsbD_xor]
    cases a.getLsbD 7 <;> cases b.getLsbD 7 <;> rfl
  rw [hmask, getLsbD_seven_eq_decide, getLsbD_seven_eq_decide, Bool.beq_eq_decide_eq, decide_eq_decide,
    decide_eq_decide]
  omega

theorem carry_eq_ite (p : Byte) : carry p = if flag .c p then 1 else 0 := by
  rw [carry, Bool.toNat, Bool.cond_eq_ite]

/-! ## The status of ADC and SBC -/

/-- R200, R201: the flags of a status made of a result, an overflow and a carry. -/
theorem flags_of_overflowCarry {p q r : Byte} {v c : Bool} (h : q = setZN r (setFlag .v v (setFlag .c c p))) :
    flag .c q = c ∧ flag .v q = v ∧ zeroNegativeOf r q ∧ flagsKept [.c, .v, .z, .n] p q := by
  subst h
  exact ⟨by simp [flag_setZN], by simp [flag_setZN], setZN_zeroNegativeOf _ _,
    flagsKept_mono (setZN_overflow_carry_kept r v c p) (by simp)⟩

section
variable (a m p : Byte)

/-- R200: the status of ADC, its overflow written as the sign rule. -/
theorem adc_status : (adc a m p).2 = setZN (adc a m p).1 (setFlag .v
    (decide (a.toNat / 128 = m.toNat / 128 ∧ a.toNat / 128 ≠ (adc a m p).1.toNat / 128))
    (setFlag .c (decide (adcSum a m p > 0xFF)) p)) := by
  simp only [Bool.decide_and, ne_eq, decide_not, ← xor_signBit_beq_zero]
  rfl

/-- R201: the status of SBC, its overflow written as the sign rule. -/
theorem sbc_status : (sbc a m p).2 = setZN (sbc a m p).1 (setFlag .v
    (decide (a.toNat / 128 ≠ m.toNat / 128 ∧ a.toNat / 128 ≠ (sbc a m p).1.toNat / 128))
    (setFlag .c (decide (sbcDiff a m p ≥ 0)) p)) := by
  simp only [Bool.decide_and, ne_eq, decide_not, ← xor_signBit_beq_zero]
  rfl

/-! ## The results of ADC and SBC -/

/-- R200: the result of ADC is its sum modulo 256. -/
theorem adc_result_toNat : (adc a m p).1.toNat = adcSum a m p % 256 :=
  BitVec.toNat_ofNat _ _

/-- R201: the result of SBC is its difference modulo 256. -/
theorem sbc_result_toNat : ((sbc a m p).1.toNat : Int) = sbcDiff a m p % 256 := by
  rw [sbc, BitVec.toNat_ofInt]
  omega

/-- R200: ADC's sum, its carry read off the flag. -/
theorem adcSum_eq_ite : adcSum a m p = a.toNat + m.toNat + (if flag .c p then 1 else 0) := by
  rw [adcSum, carry_eq_ite]

/-- R201: SBC's difference, its borrow read off the carry flag. -/
theorem sbcDiff_eq_ite :
    sbcDiff a m p = (a.toNat : Int) - (m.toNat : Int) - (1 - (if flag .c p then 1 else 0)) := by
  rw [sbcDiff, carry_eq_ite, Nat.cast_ite, Nat.cast_one, Nat.cast_zero]

end

/-- Settles O33: ADC is the read template whose effect installs the result and the status of `adc`. -/
theorem adcAddsWithCarry : Obligations.AdcAddsWithCarry := by
  intro s m res v hr hv
  obtain ⟨hc, ho, hzn, hkept⟩ := flags_of_overflowCarry (adc_status s.a v s.p)
  exact ⟨(adc s.a v s.p).1, (adc s.a v s.p).2, adcSum s.a v s.p, adcSum_eq_ite _ _ _, adc_result_toNat _ _ _,
    hc, ho, hzn, hkept, readTemplate_eq_completed addToA ⟨rfl, rfl, rfl⟩ hr hv⟩

/-- Settles O34: SBC, in both its immediate bytes, is the read template whose effect installs the result and the status
of `sbc`. -/
theorem sbcSubtractsWithBorrow : Obligations.SbcSubtractsWithBorrow := by
  intro s m undocumented res v hr hv
  obtain ⟨hc, ho, hzn, hkept⟩ := flags_of_overflowCarry (sbc_status s.a v s.p)
  exact ⟨(sbc s.a v s.p).1, (sbc s.a v s.p).2, sbcDiff s.a v s.p, sbcDiff_eq_ite _ _ _, sbc_result_toNat _ _ _,
    hc, ho, hzn, hkept, readTemplate_eq_completed subtractFromA ⟨rfl, rfl, rfl⟩ hr hv⟩

/-! ## SBC as ADC of the complement -/

section
variable (a m p : Byte)

/-- R201: the complement `M ⊕ $FF` is the number `255 − M`. -/
theorem complement_toNat : (m ^^^ 0xFF#8).toNat = 255 - m.toNat := by
  rw [show 0xFF#8 = BitVec.allOnes 8 from rfl, BitVec.xor_allOnes, BitVec.toNat_not]

/-- R201: `A − M − (1 − C) = A + (255 − M) + C − 256`. -/
theorem sbcDiff_eq_adcSum_complement : sbcDiff a m p = (adcSum a (m ^^^ 0xFF#8) p : Int) - 256 := by
  rw [sbcDiff, adcSum, complement_toNat]
  omega

/-- R201: the results are equal modulo 256. -/
theorem sbc_result_eq_adc_complement : (sbc a m p).1 = (adc a (m ^^^ 0xFF#8) p).1 := by
  have hsub := sbc_result_toNat a m p
  have hadd := adc_result_toNat a (m ^^^ 0xFF#8) p
  rw [sbcDiff_eq_adcSum_complement] at hsub
  exact BitVec.eq_of_toNat_eq (by omega)

/-- R201: there is no borrow exactly when the sum with the complement carries. -/
theorem sbcDiff_nonneg_iff_adcSum_complement : sbcDiff a m p ≥ 0 ↔ adcSum a (m ^^^ 0xFF#8) p > 0xFF := by
  rw [sbcDiff_eq_adcSum_complement]
  omega

/-- R201: A and M differ in sign exactly when A and the complement of M have one sign. -/
theorem sign_ne_iff_eq_complement : a.toNat / 128 ≠ m.toNat / 128 ↔ a.toNat / 128 = (m ^^^ 0xFF#8).toNat / 128 := by
  rw [complement_toNat]
  omega

end

/-- Settles O35: the results, the carries and the overflows agree, and the status is made of these three. -/
theorem sbcIsAdcOfTheComplement : Obligations.SbcIsAdcOfTheComplement := by
  intro a m p
  refine Prod.ext (sbc_result_eq_adc_complement a m p) ?_
  rw [sbc_status, adc_status]
  simp only [sbc_result_eq_adc_complement, sbcDiff_nonneg_iff_adcSum_complement, sign_ne_iff_eq_complement a m]

/-! ## Logical instructions -/

/-- Settles O36: each effect loads A with the combination and writes Z and N by `setZN`. -/
theorem logicalInstructionsCombineBits : Obligations.LogicalInstructionsCombineBits := by
  intro s m res v hr hv
  have hbits : ∀ k < 8, (s.a &&& v).getLsbD k = (s.a.getLsbD k && v.getLsbD k) ∧
      (s.a ||| v).getLsbD k = (s.a.getLsbD k || v.getLsbD k) ∧
      (s.a ^^^ v).getLsbD k = (s.a.getLsbD k ^^ v.getLsbD k) :=
    fun _ _ => ⟨BitVec.getLsbD_and, BitVec.getLsbD_or, BitVec.getLsbD_xor⟩
  exact ⟨_, _, _, _, _, _, hbits,
    setZN_zeroNegativeOf _ s.p, setZN_zeroNegativeOf _ s.p, setZN_zeroNegativeOf _ s.p,
    setZN_flagsKept _ _, setZN_flagsKept _ _, setZN_flagsKept _ _,
    readTemplate_eq_completed andA ⟨rfl, rfl, rfl⟩ hr hv, readTemplate_eq_completed orA ⟨rfl, rfl, rfl⟩ hr hv,
    readTemplate_eq_completed eorA ⟨rfl, rfl, rfl⟩ hr hv⟩

/-- Settles O37: BIT is the read template whose effect replaces the status by that of `bitTest`. -/
theorem bitTestsTheByteRead : Obligations.BitTestsTheByteRead := by
  intro s m res v hr hv
  exact ⟨bitTest s.a v s.p, flag_bitTest .z s.a v s.p, flag_bitTest .n s.a v s.p, flag_bitTest .v s.a v s.p,
    flagsKept_mono (bitTest_kept s.a v s.p) (by simp),
    readTemplate_eq_completed (m := .mem m) testA ⟨rfl, rfl, rfl⟩ hr hv⟩

end Sys2Proof.Machine
end

section
/-! Shifts, comparisons, increment and decrement (43_shift_compare_incdec.md R220 to R232): what the byte operations
compute, written in numbers, and a completing read-modify-write template, written with the columns of its opcode. -/

namespace Sys2Proof.Machine

/-! ## Comparisons -/

/-- R224 to R226: `compareStatus` leaves the flags of the comparison. -/
theorem compareStatus_comparedFlags (reg v p : Byte) : comparedFlags reg v p (compareStatus reg v p) := by
  refine ⟨flag_compareStatus .c reg v p, flag_compareStatus .z reg v p, ?negative,
    flagsKept_mono (compareStatus_kept reg v p) (by simp)⟩
  case negative =>
    have hsign : flag .n (compareStatus reg v p) = (reg - v).getLsbD 7 := flag_compareStatus .n reg v p
    have hdiff : (reg - v).toNat = (reg.toNat + 256 - v.toNat) % 256 := by
      rw [BitVec.toNat_sub]
      omega
    rw [hsign, getLsbD_seven_eq_decide, hdiff]

/-- Settles O38: each comparison is the read template whose effect replaces the status by that of `compareStatus`. -/
theorem comparisonsSetFlagsAlone : Obligations.ComparisonsSetFlagsAlone := by
  intro s m res v hr hv i reg hi
  refine ⟨compareStatus reg v s.p, compareStatus_comparedFlags reg v s.p, ?_⟩
  simp only [List.mem_cons, Prod.mk.injEq, List.not_mem_nil, or_false] at hi
  rcases hi with ⟨rfl, rfl⟩ | ⟨rfl, rfl⟩ | ⟨rfl, rfl⟩
  · exact readTemplate_eq_completed compareA ⟨rfl, rfl, rfl⟩ hr hv
  · exact readTemplate_eq_completed compareX ⟨rfl, rfl, rfl⟩ hr hv
  · exact readTemplate_eq_completed compareY ⟨rfl, rfl, rfl⟩ hr hv

/-! ## The bytes the shifts compute -/

section
variable (v p : Byte)

/-- R221, R223: bit 0 of a byte is its number's parity. -/
theorem getLsbD_zero_eq_decide : v.getLsbD 0 = decide (v.toNat % 2 = 1) :=
  Nat.testBit_zero v.toNat

theorem carry_lt_two : carry p < 2 :=
  Bool.toNat_lt _

/-- R220: shifting left doubles modulo 256. -/
theorem asl_result_toNat : (asl v p).1.toNat = v.toNat * 2 % 256 := by
  rw [asl, BitVec.toNat_shiftLeft, Nat.shiftLeft_eq]

/-- R221: shifting right halves. -/
theorem lsr_result_toNat : (lsr v p).1.toNat = v.toNat / 2 :=
  BitVec.toNat_ushiftRight v 1

/-- R222: the carry fills the bit that doubling leaves clear. -/
theorem rol_result_toNat : (rol v p).1.toNat = v.toNat * 2 % 256 + (if flag .c p then 1 else 0) := by
  have hc := carry_lt_two p
  have hcarry : carry p % 256 = carry p := Nat.mod_eq_of_lt (by omega)
  have heven : v.toNat * 2 % 256 = 2 ^ 1 * (v.toNat % 128) := by omega
  calc (rol v p).1.toNat
    _ = (asl v p).1.toNat ||| carry p % 256 := BitVec.toNat_or _ _
    _ = v.toNat * 2 % 256 ||| carry p := by rw [asl_result_toNat, hcarry]
    _ = v.toNat * 2 % 256 + carry p := by rw [heven, Nat.two_pow_add_eq_or_of_lt hc]
    _ = _ := by rw [carry_eq_ite]

/-- R223: the carry fills the bit that halving leaves clear. -/
theorem ror_result_toNat : (ror v p).1.toNat = v.toNat / 2 + (if flag .c p then 128 else 0) := by
  have hc := carry_lt_two p
  have hcarry : carry p * 0x80 % 256 = 2 ^ 7 * carry p := by omega
  have hhalf : v.toNat / 2 < 2 ^ 7 := by omega
  calc (ror v p).1.toNat
    _ = (lsr v p).1.toNat ||| carry p * 0x80 % 256 := BitVec.toNat_or _ _
    _ = 2 ^ 7 * carry p ||| v.toNat / 2 := by rw [lsr_result_toNat, hcarry, Nat.lor_comm]
    _ = v.toNat / 2 + 2 ^ 7 * carry p := by rw [← Nat.two_pow_add_eq_or_of_lt hhalf, Nat.add_comm]
    _ = _ := by
      rw [carry_eq_ite, mul_ite, Nat.mul_one, Nat.mul_zero]
      rfl

end

/-! ## The status the shifts leave -/

/-- R220 to R223: the flags of a status made of a result and a carry. -/
theorem flags_of_shiftedCarry {p q r : Byte} {c : Bool} (h : q = setZN r (setFlag .c c p)) :
    flag .c q = c ∧ zeroNegativeOf r q ∧ flagsKept [.c, .z, .n] p q := by
  subst h
  exact ⟨by simp [flag_setZN], setZN_zeroNegativeOf _ _, flagsKept_mono (setZN_carry_kept r c p) (by simp)⟩

section
variable (v p : Byte)

/-- R220. -/
theorem asl_flags : flag .c (asl v p).2 = v.getLsbD 7 ∧ zeroNegativeOf (asl v p).1 (asl v p).2 ∧
    flagsKept [.c, .z, .n] p (asl v p).2 :=
  flags_of_shiftedCarry rfl

/-- R221. -/
theorem lsr_flags : flag .c (lsr v p).2 = v.getLsbD 0 ∧ zeroNegativeOf (lsr v p).1 (lsr v p).2 ∧
    flagsKept [.c, .z, .n] p (lsr v p).2 :=
  flags_of_shiftedCarry rfl

/-- R222. -/
theorem rol_flags : flag .c (rol v p).2 = v.getLsbD 7 ∧ zeroNegativeOf (rol v p).1 (rol v p).2 ∧
    flagsKept [.c, .z, .n] p (rol v p).2 :=
  flags_of_shiftedCarry rfl

/-- R223. -/
theorem ror_flags : flag .c (ror v p).2 = v.getLsbD 0 ∧ zeroNegativeOf (ror v p).1 (ror v p).2 ∧
    flagsKept [.c, .z, .n] p (ror v p).2 :=
  flags_of_shiftedCarry rfl

/-- R221: a halved byte has bit 7 clear. -/
theorem lsr_not_negative : flag .n (lsr v p).2 = false := by
  obtain ⟨_, ⟨_, hn⟩, _⟩ := lsr_flags v p
  rw [hn, lsr_result_toNat]
  exact decide_eq_false (by omega)

end

/-! ## The shift template -/

section
variable {i : Instr} {f : Byte → Byte → Byte × Byte}

/-- R220 to R223: the four shifts are the shift template with their function. -/
theorem exec_shift {m : ShiftMode}
    (h : (i, f) ∈ [(Instr.asl m, asl), (.lsr m, lsr), (.rol m, rol), (.ror m, ror)]) :
    exec i = shiftTemplate m f := by
  simp only [List.mem_cons, Prod.mk.injEq, List.not_mem_nil, or_false] at h
  rcases h with ⟨rfl, rfl⟩ | ⟨rfl, rfl⟩ | ⟨rfl, rfl⟩ | ⟨rfl, rfl⟩ <;> rfl

/-- R112, R120: the accumulator forms with their functions have the columns of the one-byte class. -/
theorem accumulatorShift_columns
    (h : (i, f) ∈ [(Instr.asl .acc, asl), (.lsr .acc, lsr), (.rol .acc, rol), (.ror .acc, ror)]) :
    hasColumns i (modeLength .accumulator) 2 false :=
  hasColumns_of_map (l := [.asl .acc, .lsr .acc, .rol .acc, .ror .acc]) rfl rfl rfl i
    (List.mem_map_of_mem (f := Prod.fst) h)

/-- R112, R120: the memory forms with their functions have the columns of the read-modify-write class. -/
theorem memoryShift_columns {m : MemMode}
    (h : (i, f) ∈ [(Instr.asl (.mem m), asl), (.lsr (.mem m), lsr), (.rol (.mem m), rol), (.ror (.mem m), ror)]) :
    hasColumns i (modeLength m.mode) (rmwCycles m) false :=
  hasColumns_of_map (l := [.asl (.mem m), .lsr (.mem m), .rol (.mem m), .ror (.mem m)]) rfl rfl rfl i
    (List.mem_map_of_mem (f := Prod.fst) h)

/-- R168: an accumulator form completes in every state. -/
theorem shiftTemplate_acc_eq_completed (hc : hasColumns i (modeLength .accumulator) 2 false) (s : State) :
    shiftTemplate .acc f s = .next (completed i false { s with a := (f s.a s.p).1, p := (f s.a s.p).2 }) := by
  rw [shiftTemplate, ← retire_eq_completed hc]
  rfl

end

/-- Settles O39: the results in numbers, the flags of a result and a carry, and the accumulator form of the shift
template. -/
theorem shiftsMoveOneBit : Obligations.ShiftsMoveOneBit := by
  refine ⟨fun v p => ?values, fun s i f h => ?accumulator⟩
  case values =>
    obtain ⟨haslC, hasl⟩ := asl_flags v p
    obtain ⟨hlsrC, hlsr⟩ := lsr_flags v p
    obtain ⟨hrolC, hrol⟩ := rol_flags v p
    obtain ⟨hrorC, hror⟩ := ror_flags v p
    rw [getLsbD_seven_eq_decide] at haslC hrolC
    rw [getLsbD_zero_eq_decide] at hlsrC hrorC
    refine ⟨⟨asl_result_toNat v p, haslC⟩, ⟨lsr_result_toNat v p, hlsrC, lsr_not_negative v p⟩,
      ⟨rol_result_toNat v p, hrolC⟩, ⟨ror_result_toNat v p, hrorC⟩, ?_⟩
    simp only [List.forall_mem_cons, List.not_mem_nil, false_implies, implies_true, and_true]
    exact ⟨hasl, hlsr, hrol, hror⟩
  case accumulator => rw [exec_shift h, shiftTemplate_acc_eq_completed (accumulatorShift_columns h)]

/-! ## Increment and decrement of a byte -/

section
variable (v p : Byte)

/-- R227, R229, R231: adding one wraps at 256. -/
theorem add_one_toNat : (v + 1#8).toNat = (v.toNat + 1) % 256 :=
  BitVec.toNat_add v 1#8

/-- R228, R230, R232: subtracting one is adding 255 modulo 256. -/
theorem sub_one_toNat : (v - 1#8).toNat = (v.toNat + 255) % 256 := by
  rw [BitVec.toNat_sub, Nat.add_comm]
  rfl

/-- R227: the byte and the status of INC. -/
theorem increment_eq : increment v p = (BitVec.ofNat 8 (v.toNat + 1), setZN (BitVec.ofNat 8 (v.toNat + 1)) p) := by
  have hbyte : v + 1#8 = BitVec.ofNat 8 (v.toNat + 1) := BitVec.eq_of_toNat_eq (add_one_toNat v)
  rw [increment, hbyte]

/-- R228: the byte and the status of DEC. -/
theorem decrement_eq :
    decrement v p = (BitVec.ofNat 8 (v.toNat + 255), setZN (BitVec.ofNat 8 (v.toNat + 255)) p) := by
  have hbyte : v - 1#8 = BitVec.ofNat 8 (v.toNat + 255) := BitVec.eq_of_toNat_eq (sub_one_toNat v)
  rw [decrement, hbyte]

end

/-! ## The read-modify-write template -/

section
variable {i : Instr} {s : State} {m : MemMode} {res : AddressResolution} {v : Byte} {f : Byte → Byte → Byte × Byte}
  (hc : hasColumns i (modeLength m.mode) (rmwCycles m) false) (hr : resolve m.mode s = .next res)
  (hv : s.bus.readByte res.address = .next v)
include hc hr hv

/-- R168: a read-modify-write instruction whose operand reads completes with its new byte stored where it was read. -/
theorem rmwTemplate_eq_completed :
    ∃ b, stored s.bus b res.address (f v s.p).1 ∧
      rmwTemplate m f s = .next (completed i false { s with bus := b, p := (f v s.p).2 }) := by
  obtain ⟨b, hb, hexec⟩ := rmwTemplate_eq f hr hv
  refine ⟨b, Bus.stored_of_writeByte hb, ?_⟩
  rw [hexec, ← retire_eq_completed hc]
  rfl

/-- R168, R165: the same for a function that writes Z and N alone. -/
theorem rmwTemplate_setZN_completed {r : Byte} (hf : f v s.p = (r, setZN r s.p)) :
    ∃ b q, stored s.bus b res.address r ∧ zeroNegativeOf r q ∧ flagsKept [.z, .n] s.p q ∧
      rmwTemplate m f s = .next (completed i false { s with bus := b, p := q }) := by
  obtain ⟨b, hstored, hexec⟩ := rmwTemplate_eq_completed (f := f) hc hr hv
  rw [hf] at hstored hexec
  exact ⟨b, setZN r s.p, hstored, setZN_zeroNegativeOf r s.p, setZN_flagsKept r s.p, hexec⟩

end

/-- Settles O40: the memory forms are the read-modify-write template, which writes where it has read. -/
theorem readModifyWriteStoresBack : Obligations.ReadModifyWriteStoresBack := by
  intro s m res v hr hv
  refine ⟨fun i f h => ?shift, ?inc, ?dec⟩
  case shift =>
    rw [exec_shift h]
    exact rmwTemplate_eq_completed (memoryShift_columns h) hr hv
  case inc => exact rmwTemplate_setZN_completed ⟨rfl, rfl, rfl⟩ hr hv (increment_eq v s.p)
  case dec => exact rmwTemplate_setZN_completed ⟨rfl, rfl, rfl⟩ hr hv (decrement_eq v s.p)

/-! ## Increment and decrement of a register -/

/-- Settles O41: each is the load of the incremented or decremented byte, which writes Z and N by `setZN`. -/
theorem registerIncrementsWrap : Obligations.RegisterIncrementsWrap := by
  refine ⟨rfl, fun s => ⟨?inx, ?dex, ?iny, ?dey⟩⟩
  case inx => exact ⟨s.x + 1#8, _, add_one_toNat s.x, setZN_zeroNegativeOf _ _, setZN_flagsKept _ _, rfl⟩
  case dex => exact ⟨s.x - 1#8, _, sub_one_toNat s.x, setZN_zeroNegativeOf _ _, setZN_flagsKept _ _, rfl⟩
  case iny => exact ⟨s.y + 1#8, _, add_one_toNat s.y, setZN_zeroNegativeOf _ _, setZN_flagsKept _ _, rfl⟩
  case dey => exact ⟨s.y - 1#8, _, sub_one_toNat s.y, setZN_zeroNegativeOf _ _, setZN_flagsKept _ _, rfl⟩

end Sys2Proof.Machine
end

section
/-! Control transfer (44_control_flow.md R240 to R252): a branch as its template over the flag it tests, the signed offset
as a number, and the jumps and returns over the bytes the stack operations store and read. -/

namespace Sys2Proof.Machine

/-! ## Branches -/

/-- R157: the offset byte as a signed number. -/
theorem sext16_eq_ofInt (d : Byte) :
    sext16 d = BitVec.ofInt 16 (if d.toNat < 128 then (d.toNat : Int) else (d.toNat : Int) - 256) := by
  have hsign : 2 * d.toNat < 2 ^ 8 ↔ d.toNat < 128 := by omega
  rw [sext16, BitVec.signExtend, BitVec.toInt_eq_toNat_cond, if_congr hsign rfl rfl]
  rfl

/-- R241 to R248: each branch is the template, taken when its flag has its value. -/
theorem exec_branch {s : State} {i : Instr} {f : Flag} {value : Bool}
    (h : (i, f, value) ∈ [(Instr.bcc, Flag.c, false), (.bcs, .c, true), (.bne, .z, false), (.beq, .z, true),
      (.bpl, .n, false), (.bmi, .n, true), (.bvc, .v, false), (.bvs, .v, true)]) :
    exec i s = branchTemplate (flag f s.p == value) s := by
  simp only [List.mem_cons, Prod.mk.injEq, List.not_mem_nil, or_false] at h
  rcases h with ⟨rfl, rfl, rfl⟩ | ⟨rfl, rfl, rfl⟩ | ⟨rfl, rfl, rfl⟩ | ⟨rfl, rfl, rfl⟩ | ⟨rfl, rfl, rfl⟩ |
    ⟨rfl, rfl, rfl⟩ | ⟨rfl, rfl, rfl⟩ | ⟨rfl, rfl, rfl⟩ <;> simp only [beq_true, beq_false] <;> rfl

/-- R240: a branch taken costs one cycle more, and another when its target lies in another page than `PC + 2`. -/
theorem branch_cost (pc : Word) (d : Byte) :
    BitVec.ofNat 64 (2 + 1 + if (branchTarget pc d).pageCrossed then 1 else 0) =
      if (pc + 2#16).toNat / 256 = (branchTarget pc d).address.toNat / 256 then 3#64 else 4#64 := by
  have hcross : (branchTarget pc d).pageCrossed = true ↔
      ¬ (pc + 2#16).toNat / 256 = (branchTarget pc d).address.toNat / 256 := by
    rw [← page_eq_iff]
    exact decide_eq_true_iff
  by_cases hpage : (pc + 2#16).toNat / 256 = (branchTarget pc d).address.toNat / 256
  · rw [if_pos hpage, if_neg (fun h => hcross.mp h hpage)]
  · rw [if_neg hpage, if_pos (hcross.mpr hpage)]

/-- R240: a branch stops where the read of its offset byte stops, taken or not. -/
theorem branchTemplate_of_operand_fault {s : State} {e : Fault} (taken : Bool)
    (h : s.bus.readByte (s.pc + 1#16) = .fault e) : branchTemplate taken s = .fault e := by
  rw [branchTemplate, resolve_operandByte_fault h (by decide), Result.bind_fault]

/-- Settles O42: every branch is the one template, whose only access is the read of the offset byte. -/
theorem branchesTestTheirFlag : Obligations.BranchesTestTheirFlag := by
  refine ⟨rfl, fun s i f value hbranch => ⟨fun d target hd htarget => ?_, fun e he => ?_⟩⟩
  · have haddr : target = (branchTarget s.pc d).address := by
      rw [htarget, ← sext16_eq_ofInt]
      rfl
    rw [exec_branch hbranch, branchTemplate_eq _ hd, haddr, ← branch_cost]
    simp only [beq_iff_eq]
    rfl
  · rw [exec_branch hbranch, branchTemplate_of_operand_fault _ he]

/-! ## Jumps -/

/-- Settles O43: JMP is its resolution, and each form has its cost. -/
theorem jmpGoesToItsTarget : Obligations.JmpGoesToItsTarget := by
  refine ⟨rfl, rfl, fun s m => ⟨fun res hr => ?_, fun e he => ?_⟩⟩
  · rw [exec, execJmp, hr, Result.bind_next]
    cases m <;> rfl
  · rw [exec, execJmp, he, Result.bind_fault]

/-! ## The stack slots -/

/-- R162, R169: every stack slot answers a read. -/
theorem Bus.readByte_stackAddr (b : Bus) (sp : Byte) : ∃ v, b.readByte (stackAddr sp) = .next v :=
  ⟨_, b.read_ram (stackAddr_inRam sp)⟩

/-- R162, R163: a slot at a distance from SP, as a number; it wraps inside the stack page. -/
theorem stackAddr_add_eq_ofNat (sp k : Byte) :
    stackAddr (sp + k) = BitVec.ofNat 16 (0x100 + (sp.toNat + k.toNat) % 256) := by
  rw [stackAddr_eq_ofNat, BitVec.toNat_add]

/-- R164: a pop of a word answers the two bytes above SP, the low byte first. -/
theorem popWord_of_reads {s : State} {l h : Byte} (hl : s.bus.readByte (stackAddr (s.sp + 1#8)) = .next l)
    (hh : s.bus.readByte (stackAddr (s.sp + 2#8)) = .next h) :
    popWord s = .next (word h l, s.setSp (s.sp + 2#8)) := by
  have hsp : s.sp + 2#8 = s.sp + 1#8 + 1#8 := by bv_omega
  rw [hsp] at hh ⊢
  exact popWord_of_pops (pop_of_readByte hl) (pop_of_readByte (s := s.setSp (s.sp + 1#8)) hh)

/-! ## Subroutines -/

/-- R250: JSR whose operand word reads pushes the address of its last byte and goes to the word. -/
theorem exec_jsr_of_operandWord {s t : State} {w : Word} (hw : operandWord s = .next w)
    (ht : pushWord (s.pc + 2#16) s = .next t) : exec .jsr s = .next ((t.setPc w).charge 6) := by
  simp only [exec, execJsr, resolve, hw, ht, Result.bind_next, plain]

/-- Settles O44: the two stores are those of the pushed word, after the operand word was read. -/
theorem jsrPushesTheReturnAddress : Obligations.JsrPushesTheReturnAddress := by
  refine ⟨rfl, fun s => ⟨fun w hw => ?_, fun e he => ?_⟩⟩
  · obtain ⟨b2, hpush, b1, hhigh, hlow⟩ := pushWord_eq (s.pc + 2#16) s
    refine ⟨b1, b2, ?_, ?_, exec_jsr_of_operandWord hw hpush⟩
    · rw [← stackAddr_eq_ofNat, ← hi_eq_ofNat]
      exact Bus.stored_of_writeByte hhigh
    · rw [← sub_one_toNat, ← stackAddr_eq_ofNat, ← lo_eq_ofNat]
      exact Bus.stored_of_writeByte hlow
  · rw [exec, execJsr, resolve_operandWord_fault he (by simp), Result.bind_fault]

/-- R251: RTS goes one past the word made of the two bytes above SP. -/
theorem exec_rts_of_reads {s : State} {l h : Byte} (hl : s.bus.readByte (stackAddr (s.sp + 1#8)) = .next l)
    (hh : s.bus.readByte (stackAddr (s.sp + 2#8)) = .next h) :
    exec .rts s = .next { s with pc := word h l + 1#16, sp := s.sp + 2#8, cyc := s.cyc + 6#64 } := by
  rw [exec, execRts, popWord_of_reads hl hh, Result.bind_next]
  rfl

/-- Settles O45: the two slots above SP always answer. -/
theorem rtsReturnsOnePastThePoppedWord : Obligations.RtsReturnsOnePastThePoppedWord := by
  refine ⟨rfl, fun s => ?_⟩
  obtain ⟨l, hl⟩ := s.bus.readByte_stackAddr (s.sp + 1#8)
  obtain ⟨h, hh⟩ := s.bus.readByte_stackAddr (s.sp + 2#8)
  have hexec := exec_rts_of_reads hl hh
  rw [word_eq_ofNat, ← BitVec.ofNat_add] at hexec
  rw [stackAddr_add_eq_ofNat] at hl hh
  exact ⟨l, h, hl, hh, hexec⟩

/-- Settles O47: RTS reads the two bytes that JSR stored, and goes one past the address they make. -/
theorem jsrThenRtsComesBack : Obligations.JsrThenRtsComesBack := by
  intro s w hw
  obtain ⟨b, hpush, hhigh, hlow⟩ := pushWord_reads (s.pc + 2#16) s
  have hbelow : s.sp - 2#8 + 1#8 = s.sp - 1#8 := by bv_omega
  have hback : s.sp - 2#8 + 2#8 = s.sp := BitVec.sub_add_cancel s.sp 2#8
  rw [← hbelow] at hlow
  rw [← hback] at hhigh
  refine ⟨_, _, exec_jsr_of_operandWord hw hpush, rfl, exec_rts_of_reads hlow hhigh, ?_⟩
  have hpc : s.pc + 2#16 + 1#16 = s.pc + 3#16 := by bv_omega
  have hcyc : s.cyc + 6#64 + 6#64 = s.cyc + 12#64 := by bv_omega
  simp [hback, hpc, hcyc]

/-! ## Return from interrupt -/

/-- R252: RTI loads the status from the byte above SP and goes to the word above that. -/
theorem exec_rti_of_reads {s : State} {st l h : Byte} (hst : s.bus.readByte (stackAddr (s.sp + 1#8)) = .next st)
    (hl : s.bus.readByte (stackAddr (s.sp + 2#8)) = .next l)
    (hh : s.bus.readByte (stackAddr (s.sp + 3#8)) = .next h) :
    exec .rti s = .next
      { s with pc := word h l, p := pulledStatus st, sp := s.sp + 3#8, cyc := s.cyc + 6#64 } := by
  have hsp2 : s.sp + 2#8 = s.sp + 1#8 + 1#8 := by bv_omega
  have hsp3 : s.sp + 3#8 = s.sp + 1#8 + 2#8 := by bv_omega
  rw [hsp2] at hl
  rw [hsp3] at hh ⊢
  have hword := popWord_of_reads (s := (s.setSp (s.sp + 1#8)).setP (pulledStatus st)) hl hh
  simp only [exec, execRti, pop_of_readByte hst, hword, Result.bind_next]
  rfl

/-- R252: the pulled status keeps every flag of its byte but bits 4 and 5. -/
theorem pulledStatus_flagsKept (v : Byte) : flagsKept [.b, .u] v (pulledStatus v) := by
  intro f hf
  obtain ⟨hb, hu⟩ : f ≠ .b ∧ f ≠ .u := by simpa using hf
  rw [flag_pulledStatus, if_neg hb, if_neg hu]

/-- Settles O46: the three slots above SP always answer, and the status is the pulled one. -/
theorem rtiRestoresStatusAndPc : Obligations.RtiRestoresStatusAndPc := by
  refine ⟨rfl, fun s => ?_⟩
  obtain ⟨st, hst⟩ := s.bus.readByte_stackAddr (s.sp + 1#8)
  obtain ⟨l, hl⟩ := s.bus.readByte_stackAddr (s.sp + 2#8)
  obtain ⟨h, hh⟩ := s.bus.readByte_stackAddr (s.sp + 3#8)
  have hexec := exec_rti_of_reads hst hl hh
  rw [word_eq_ofNat] at hexec
  rw [stackAddr_add_eq_ofNat] at hst hl hh
  exact ⟨st, l, h, pulledStatus st, hst, hl, hh, flag_pulledStatus .b st, flag_pulledStatus .u st,
    pulledStatus_flagsKept st, hexec⟩

end Sys2Proof.Machine
end

section
/-! Stack, flag and no-operation instructions (45_stack_flags_nop.md R260 to R273): the push and the pull instructions over
the stack slot they use, the flag instructions as one template, and NOP as the read template that drops its byte. -/

namespace Sys2Proof.Machine

/-! ## Push instructions -/

/-- R260, R261: what PHA and PHP do with their byte. -/
theorem push_retire_eq (v : Byte) (s : State) :
    ∃ b, stored s.bus b (BitVec.ofNat 16 (0x100 + s.sp.toNat)) v ∧
      ((push v s).bind fun s' => Host.Outcome.next (s'.retire 1 3)) =
        .next { s with bus := b, sp := s.sp - 1#8, pc := s.pc + 1#16, cyc := s.cyc + 3#64 } := by
  refine ⟨pushedBus v s, ?_, ?_⟩
  · rw [← stackAddr_eq_ofNat]
    exact Bus.stored_of_writeByte (pushedBus_write v s)
  · rw [push_eq, Result.bind_next]
    rfl

/-- R261: the pushed status keeps every flag of P but bits 4 and 5. -/
theorem pushedStatus_flagsKept (p : Byte) : flagsKept [.b, .u] p (pushedStatus p) := by
  intro f hf
  have hother : ¬ (f = .b ∨ f = .u) := by simpa using hf
  rw [flag_pushedStatus, if_neg hother]

/-- Settles O50: PHA pushes A, PHP the pushed status, and P is not written. -/
theorem pushInstructionsStoreOneByte : Obligations.PushInstructionsStoreOneByte := by
  refine ⟨rfl, rfl, fun s => ⟨push_retire_eq s.a s, ?php⟩⟩
  case php =>
    obtain ⟨b, hstored, hexec⟩ := push_retire_eq (pushedStatus s.p) s
    exact ⟨b, pushedStatus s.p, hstored, flag_pushedStatus .b s.p, flag_pushedStatus .u s.p,
      pushedStatus_flagsKept s.p, hexec⟩

/-! ## Pull instructions -/

section
variable {s : State} {v : Byte} (hv : s.bus.readByte (stackAddr (s.sp + 1#8)) = .next v)
include hv

/-- R262: PLA loads A from the slot above SP. -/
theorem exec_pla_of_read : exec .pla s = .next
    { s with a := v, p := setZN v s.p, sp := s.sp + 1#8, pc := s.pc + 1#16, cyc := s.cyc + 4#64 } := by
  rw [exec, execPla, pop_of_readByte hv, Result.bind_next]
  rfl

/-- R263: PLP loads P from the slot above SP. -/
theorem exec_plp_of_read : exec .plp s = .next
    { s with p := pulledStatus v, sp := s.sp + 1#8, pc := s.pc + 1#16, cyc := s.cyc + 4#64 } := by
  rw [exec, execPlp, pop_of_readByte hv, Result.bind_next]
  rfl

end

/-- Settles O51: the slot above SP always answers; PLA writes Z and N by `setZN`, PLP the pulled status. -/
theorem pullInstructionsLoadOneByte : Obligations.PullInstructionsLoadOneByte := by
  refine ⟨rfl, rfl, fun s => ?_⟩
  obtain ⟨v, hv⟩ := s.bus.readByte_stackAddr (s.sp + 1#8)
  refine ⟨v, ?slot, exists_of_setZN (exec_pla_of_read hv), pulledStatus v, flag_pulledStatus .b v,
    flag_pulledStatus .u v, pulledStatus_flagsKept v, exec_plp_of_read hv⟩
  case slot => rwa [stackAddr_add_eq_ofNat] at hv

/-! ## Flag instructions -/

/-- R264 to R270: each flag instruction is the template with its flag and its value. -/
theorem exec_flagInstruction {s : State} {i : Instr} {f : Flag} {value : Bool}
    (h : (i, f, value) ∈ [(Instr.clc, Flag.c, false), (.sec, .c, true), (.cli, .i, false), (.sei, .i, true),
      (.clv, .v, false), (.cld, .d, false), (.sed, .d, true)]) :
    exec i s = flagTemplate f value s := by
  simp only [List.mem_cons, Prod.mk.injEq, List.not_mem_nil, or_false] at h
  rcases h with ⟨rfl, rfl, rfl⟩ | ⟨rfl, rfl, rfl⟩ | ⟨rfl, rfl, rfl⟩ | ⟨rfl, rfl, rfl⟩ | ⟨rfl, rfl, rfl⟩ |
    ⟨rfl, rfl, rfl⟩ | ⟨rfl, rfl, rfl⟩ <;> rfl

/-- Settles O52: the template writes its one flag by `setFlag`. -/
theorem flagInstructionsWriteOneBit : Obligations.FlagInstructionsWriteOneBit := by
  refine ⟨rfl, fun s i f value h => ⟨setFlag f value s.p, ?written, setFlag_kept f value s.p, ?runs⟩⟩
  case written => rw [flag_setFlag, if_pos rfl]
  case runs =>
    rw [exec_flagInstruction h, flagTemplate]
    rfl

/-! ## No operation -/

/-- R272: NOP with an operand is the read template that drops its byte. -/
theorem exec_nop_operand (m : DataMode) (op : Byte) : exec (.nop (.operand m) op) = readTemplate m dropByte :=
  rfl

/-- Settles O53: with an operand, NOP completes or stops as the read template, and its effect changes nothing. -/
theorem nopChangesOnlyPcAndCycles : Obligations.NopChangesOnlyPcAndCycles := by
  refine ⟨decodeByte_nopBytes, fun s op => rfl, fun s m op res hr => ⟨fun v hv => ?reads, fun e he => ?readFaults⟩,
    fun s m op e he => ?resolutionFaults⟩
  case reads => exact readTemplate_eq_completed dropByte ⟨rfl, rfl, rfl⟩ hr hv
  case readFaults => rw [exec_nop_operand, readTemplate_of_read_fault hr he]
  case resolutionFaults => rw [exec_nop_operand, readTemplate_of_resolve_fault he]

end Sys2Proof.Machine
end

section
/-! The undocumented composites (46_illegal_composites.md R290 to R296): what the accesses of a composite answer, what each
composite leaves once they have answered, and the two placements of code and target that settle what the second read
sees. -/

namespace Sys2Proof.Machine

/-! ## The accesses of a composite -/

/-- R290: in the mode `m` a composite reads `v` and stores `w`, which leaves the bus `b`; resolved again there, the mode
reads `v2`. -/
structure CompositeAccesses (s : State) (m : MemMode) (v w : Byte) (b : Bus) (v2 : Byte) : Prop where
  first : ∃ res, resolve m.mode s = .next res ∧ s.bus.readByte res.address = .next v ∧
    s.bus.writeByte res.address w = .next b
  second : ∃ res, resolve m.mode { s with bus := b } = .next res ∧ b.readByte res.address = .next v2

/-- R290: a composite whose accesses answer completes with the effect of its second half, and no page costs a cycle. -/
theorem compositeTemplate_eq_completed {s : State} {m : MemMode} {i : Instr} {f : Byte → Byte → Byte × Byte}
    {v v2 : Byte} {b : Bus} (effect : Byte → State → State) (hc : hasColumns i (modeLength m.mode) (rmwCycles m) false)
    (h : CompositeAccesses s m v (f v s.p).1 b v2) :
    compositeTemplate m f effect s =
      .next (completed i false (((effect v2 (rewound s b (f v s.p).2)).setPc s.pc).setCyc s.cyc)) := by
  obtain ⟨⟨res, hr, hv, hb⟩, ⟨res2, hr2, hv2⟩⟩ := h
  have hagain : resolve m.mode (rewound s b (f v s.p).2) = .next res2 :=
    (resolve_congr m.mode rfl rfl rfl rfl).trans hr2
  rw [compositeTemplate_eq f effect hr hv hb hagain hv2, ← retire_eq_completed hc]
  rfl

/-- R290, point 2: ROM ignores the write, and the second half reads what the first has read. -/
theorem compositeAccesses_rom {s : State} {m : MemMode} {res : AddressResolution} {v : Byte}
    (hr : resolve m.mode s = .next res) (hv : s.bus.readByte res.address = .next v) (hrom : 0x8000 ≤ res.address.toNat)
    (w : Byte) : CompositeAccesses s m v w s.bus v where
  first := ⟨res, hr, hv, s.bus.writeByte_dropped (.inr hrom) w⟩
  second := ⟨res, hr, hv⟩

/-- The modes without a pointer see their operand and the index registers. -/
theorem resolve_congr_operand {s s' : State} {m : MemMode} (hm : m ∉ [MemMode.indX, .indY])
    (hbyte : operandByte s' = operandByte s) (hword : operandWord s' = operandWord s) (hx : s'.x = s.x)
    (hy : s'.y = s.y) : resolve m.mode s' = resolve m.mode s := by
  cases m with
  | zp | zpX | zpY => simp only [MemMode.mode, resolve, hbyte, hx, hy]
  | abs | absX | absY => simp only [MemMode.mode, resolve, hword, hx, hy]
  | indX | indY => simp at hm

/-- R86: with its operand in ROM, a mode without a pointer resolves after a write as before it. -/
theorem resolve_after_write_rom_operand {s : State} {m : MemMode} {b : Bus} {addr : Word} {w : Byte}
    (hm : m ∉ [MemMode.indX, .indY]) (hrom : 0x8000 ≤ s.pc.toNat) (hlast : s.pc.toNat < 0xFFFF)
    (hb : s.bus.writeByte addr w = .next b) : resolve m.mode { s with bus := b } = resolve m.mode s := by
  obtain ⟨hcart, hmapper, hlower, hupper⟩ := Bus.writeByte_kept hb
  have hread : ∀ k, 0x2000 ≤ k → b.read k = s.bus.read k :=
    fun k hk => Bus.read_rom_congr hk hmapper hlower hupper hcart
  have hoperand : 0x2000 ≤ (s.pc + 1#16).toNat := by bv_omega
  have hbyte : b.readByte (s.pc + 1#16) = s.bus.readByte (s.pc + 1#16) := hread _ hoperand
  have hword : b.readWord (s.pc + 1#16) = s.bus.readWord (s.pc + 1#16) := by
    rw [Bus.readWord, Bus.readWord, hread _ hoperand, hread _ (Nat.le_succ_of_le hoperand)]
  exact resolve_congr_operand hm hbyte hword rfl rfl

/-- R290, point 1: code in ROM, target in RAM and no pointer: the second half reads the byte the first has stored. -/
theorem compositeAccesses_from_rom {s : State} {m : MemMode} {res : AddressResolution} {v : Byte}
    (hm : m ∉ [MemMode.indX, .indY]) (hrom : 0x8000 ≤ s.pc.toNat) (hlast : s.pc.toNat < 0xFFFF)
    (hr : resolve m.mode s = .next res) (hv : s.bus.readByte res.address = .next v) (hram : inRam res.address)
    (w : Byte) : ∃ b, stored s.bus b res.address w ∧ CompositeAccesses s m v w b w := by
  obtain ⟨b, hb, hstored⟩ := s.bus.writeByte_ram_stored hram w
  exact ⟨b, hstored, ⟨res, hr, hv, hb⟩, ⟨res, (resolve_after_write_rom_operand hm hrom hlast hb).trans hr,
    Bus.readByte_write_same hb ⟨hram, hram, rfl⟩⟩⟩

/-! ## The first half's Z and N are not seen -/

/-- R165: Z and N are written anew. -/
theorem setZN_setZN (r v p : Byte) : setZN r (setZN v p) = setZN r p := by
  refine status_ext fun f => ?_
  cases f <;> simp [flag_setZN]

/-- R224: a comparison writes Z and N anew. -/
theorem compareStatus_setZN (reg m v p : Byte) : compareStatus reg m (setZN v p) = compareStatus reg m p := by
  refine status_ext fun f => ?_
  cases f <;> simp [flag_compareStatus, flag_setZN]

/-! ## The bytes the first half stores, as numbers -/

section
variable (v p : Byte)

/-- R220. -/
theorem asl_result_eq_ofNat : (asl v p).1 = BitVec.ofNat 8 (v.toNat * 2) :=
  BitVec.eq_of_toNat_eq (asl_result_toNat v p)

/-- R221. -/
theorem lsr_result_eq_ofNat : (lsr v p).1 = BitVec.ofNat 8 (v.toNat / 2) := by
  rw [← lsr_result_toNat v p, BitVec.ofNat_toNat, BitVec.setWidth_eq]

/-- R222. -/
theorem rol_result_eq_ofNat : (rol v p).1 = BitVec.ofNat 8 (v.toNat * 2 + (if flag .c p then 1 else 0)) := by
  refine BitVec.eq_of_toNat_eq ?_
  rw [rol_result_toNat, BitVec.toNat_ofNat]
  split <;> omega

/-- R223. -/
theorem ror_result_eq_ofNat : (ror v p).1 = BitVec.ofNat 8 (v.toNat / 2 + (if flag .c p then 128 else 0)) := by
  rw [← ror_result_toNat v p, BitVec.ofNat_toNat, BitVec.setWidth_eq]

end

/-! ## SLO, SRE, RLA -/

/-- R291 to R293: a composite of a shift and a logical combination with A; `out` is the bit shifted out of the byte. -/
structure ShiftComposite where
  instr : Instr
  shift : Byte → Byte → Byte × Byte
  combine : Byte → Byte → Byte
  out : Byte → Bool

/-- R291 to R293, row by row. -/
def shiftComposites (m : MemMode) : List ShiftComposite :=
  [⟨.slo m, asl, (· ||| ·), fun v => decide (128 ≤ v.toNat)⟩,
   ⟨.sre m, lsr, (· ^^^ ·), fun v => decide (v.toNat % 2 = 1)⟩,
   ⟨.rla m, rol, (· &&& ·), fun v => decide (128 ≤ v.toNat)⟩]

/-- R290: each row is the composite template whose second half loads the combination into A. -/
theorem exec_shiftComposite {m : MemMode} {c : ShiftComposite} (h : c ∈ shiftComposites m) :
    exec c.instr = compositeTemplate m c.shift fun v s => loadA (c.combine s.a v) s := by
  have hrows : (shiftComposites m).map (fun c => exec c.instr) =
      (shiftComposites m).map fun c => compositeTemplate m c.shift fun v s => loadA (c.combine s.a v) s := rfl
  exact List.map_inj_left.mp hrows c h

/-- R112, R290: each row has the columns of the read-modify-write class. -/
theorem shiftComposites_columns {m : MemMode} {c : ShiftComposite} (h : c ∈ shiftComposites m) :
    hasColumns c.instr (modeLength m.mode) (rmwCycles m) false :=
  hasColumns_of_map (l := (shiftComposites m).map ShiftComposite.instr) rfl rfl rfl c.instr (List.mem_map_of_mem h)

/-- R220 to R222: the shift of each row leaves the bit shifted out in C. -/
theorem shiftComposites_status {m : MemMode} {c : ShiftComposite} (h : c ∈ shiftComposites m) (v p : Byte) :
    (c.shift v p).2 = setZN (c.shift v p).1 (setFlag .c (c.out v) p) := by
  simp only [shiftComposites, List.mem_cons, List.not_mem_nil, or_false] at h
  simp only [← getLsbD_seven_eq_decide, ← getLsbD_zero_eq_decide] at h
  rcases h with rfl | rfl | rfl <;> rfl

/-! ## What a composite leaves -/

section
variable {s : State} {m : MemMode} {v v2 : Byte} {b : Bus}

/-- R291 to R293: A takes the combination with the second byte, C the bit shifted out of the first. -/
theorem shiftComposite_completes {c : ShiftComposite} (hc : c ∈ shiftComposites m)
    (h : CompositeAccesses s m v (c.shift v s.p).1 b v2) :
    ∃ q, flag .c q = c.out v ∧ zeroNegativeOf (c.combine s.a v2) q ∧ flagsKept [.c, .z, .n] s.p q ∧
      exec c.instr s = .next (completed c.instr false { s with bus := b, a := c.combine s.a v2, p := q }) := by
  have hstatus : setZN (c.combine s.a v2) (c.shift v s.p).2 =
      setZN (c.combine s.a v2) (setFlag .c (c.out v) s.p) := by rw [shiftComposites_status hc, setZN_setZN]
  obtain ⟨hcarry, hzn, hkept⟩ := flags_of_shiftedCarry hstatus
  refine ⟨_, hcarry, hzn, hkept, ?_⟩
  rw [exec_shiftComposite hc]
  exact compositeTemplate_eq_completed _ (shiftComposites_columns hc) h

/-- R294: RRA adds the second byte with the bit the rotate shifted out of the first. -/
theorem exec_rra_completes (h : CompositeAccesses s m v (ror v s.p).1 b v2) :
    exec (.rra m) s = .next (completed (.rra m) false
      { s with
        bus := b
        a := (adc s.a v2 (setFlag .c (decide (v.toNat % 2 = 1)) s.p)).1
        p := (adc s.a v2 (setFlag .c (decide (v.toNat % 2 = 1)) s.p)).2 }) := by
  rw [← getLsbD_zero_eq_decide, ← adc_setZN s.a v2 (ror v s.p).1]
  exact compositeTemplate_eq_completed addToA ⟨rfl, rfl, rfl⟩ h

/-- R295: ISC subtracts the second byte with the carry from before the instruction. -/
theorem exec_isc_completes (h : CompositeAccesses s m v (increment v s.p).1 b v2) :
    exec (.isc m) s = .next (completed (.isc m) false
      { s with bus := b, a := (sbc s.a v2 s.p).1, p := (sbc s.a v2 s.p).2 }) := by
  rw [← sbc_setZN s.a v2 (increment v s.p).1]
  exact compositeTemplate_eq_completed subtractFromA ⟨rfl, rfl, rfl⟩ h

/-- R296: DCP compares A with the second byte. -/
theorem exec_dcp_completes (h : CompositeAccesses s m v (decrement v s.p).1 b v2) :
    ∃ q, comparedFlags s.a v2 s.p q ∧
      exec (.dcp m) s = .next (completed (.dcp m) false { s with bus := b, p := q }) := by
  refine ⟨_, compareStatus_comparedFlags s.a v2 s.p, ?_⟩
  rw [← compareStatus_setZN s.a v2 (decrement v s.p).1]
  exact compositeTemplate_eq_completed compareA ⟨rfl, rfl, rfl⟩ h

end

/-! ## The composites -/

/-- Settles O54: the rows of `shiftComposites`, their stored bytes written in numbers. -/
theorem shiftCompositesCombineTheSecondByte : Obligations.ShiftCompositesCombineTheSecondByte := by
  intro s m res res2 v v2 b i w r out hr hv hrow hb hr2 hv2
  rw [← asl_result_eq_ofNat v s.p, ← lsr_result_eq_ofNat v s.p, ← rol_result_eq_ofNat] at hrow
  obtain ⟨c, hc, hrow⟩ := List.mem_map.mp
    (show _ ∈ (shiftComposites m).map fun c => (c.instr, (c.shift v s.p).1, c.combine s.a v2, c.out v) from hrow)
  cases hrow
  exact shiftComposite_completes hc ⟨⟨res, hr, hv, hb⟩, ⟨res2, hr2, hv2⟩⟩

/-- Settles O55: the accesses are given, their stored bytes written in numbers. -/
theorem arithmeticCompositesUseTheSecondByte : Obligations.ArithmeticCompositesUseTheSecondByte := by
  intro s m res res2 v v2 b hr hv hr2 hv2
  have haccesses : ∀ {w : Byte}, s.bus.writeByte res.address w = .next b → CompositeAccesses s m v w b v2 :=
    fun hb => ⟨⟨res, hr, hv, hb⟩, ⟨res2, hr2, hv2⟩⟩
  refine ⟨fun hb => ?rra, fun hb => ?isc, fun hb => ?dcp⟩
  case rra =>
    rw [← ror_result_eq_ofNat] at hb
    exact exec_rra_completes (haccesses hb)
  case isc =>
    refine exec_isc_completes (haccesses ?_)
    rwa [increment_eq]
  case dcp =>
    refine exec_dcp_completes (haccesses ?_)
    rwa [decrement_eq]

/-- Settles O56: whatever byte the first half writes, the bus stays and the second half reads `v`. -/
theorem compositesOnRomUseTheOldByte : Obligations.CompositesOnRomUseTheOldByte := by
  intro s m res v hr hv hrom
  have haccesses : ∀ {w}, CompositeAccesses s m v w s.bus v := fun {w} => compositeAccesses_rom hr hv hrom w
  refine ⟨fun i r out hrow => ?_, exec_rra_completes haccesses, exec_isc_completes haccesses,
    exec_dcp_completes haccesses⟩
  obtain ⟨c, hc, hrow⟩ := List.mem_map.mp
    (show _ ∈ (shiftComposites m).map fun c => (c.instr, c.combine s.a v, c.out v) from hrow)
  cases hrow
  exact shiftComposite_completes hc haccesses

/-- Settles O57: whatever byte the first half stores, the second half reads it back. -/
theorem compositesFromRomCombineTheModifiedByte : Obligations.CompositesFromRomCombineTheModifiedByte := by
  intro s m res v hm hrom hlast hr hv hram
  have haccesses := compositeAccesses_from_rom hm hrom (by omega) hr hv hram
  refine ⟨fun i w r out hrow => ?shift, ?rra, ?isc, ?dcp⟩
  case shift =>
    obtain ⟨c, hc, hrow⟩ := List.mem_map.mp
      (show _ ∈ (shiftComposites m).map fun c =>
        (c.instr, (c.shift v s.p).1, c.combine s.a (c.shift v s.p).1, c.out v) from hrow)
    cases hrow
    obtain ⟨b, hstored, h⟩ := haccesses (c.shift v s.p).1
    obtain ⟨q, hcompletes⟩ := shiftComposite_completes hc h
    exact ⟨b, q, hstored, hcompletes⟩
  case rra =>
    rintro w p1 rfl rfl
    obtain ⟨b, hstored, h⟩ := haccesses (ror v s.p).1
    exact ⟨b, hstored, exec_rra_completes h⟩
  case isc =>
    obtain ⟨b, hstored, h⟩ := haccesses (v + 1#8)
    exact ⟨b, hstored, exec_isc_completes h⟩
  case dcp =>
    obtain ⟨b, hstored, h⟩ := haccesses (v - 1#8)
    obtain ⟨q, hcompletes⟩ := exec_dcp_completes h
    exact ⟨b, q, hstored, hcompletes⟩

end Sys2Proof.Machine
end

section
/-! The exceptions (60_exceptions.md R310 to R313): which shapes a meaning can have, and what a step of each shape can
stop with. -/

namespace Sys2Proof.Machine

/-! ## The shapes of a meaning -/

/-- The shapes of the meaning of an instruction in the state `s`: what it answers is a template (R158, R167, R168,
R290), an update of the state that touches no memory or only the stack, the same after a resolution (R240, R249, R250),
or the fault of a byte without a handler (R311). -/
inductive Shape (s : State) : Instr → Result State → Prop
  | unimplemented (op : Byte) : Shape s (.unimplemented op) (.fault (.unknownOpcode op))
  | completes {i : Instr} (t : State) : Shape s i (.next t)
  | resolves {i : Instr} (m : Mode) (k : AddressResolution → State) :
      Shape s i ((resolve m s).bind fun res => .next (k res))
  | read {i : Instr} (m : DataMode) (effect : Byte → State → State) : Shape s i (readTemplate m effect s)
  | store {i : Instr} {m : MemMode} {v : Byte}
      (h : (i, v) ∈ [(Instr.sta m, s.a), (.stx m, s.x), (.sty m, s.y), (.sax m, s.a &&& s.x)]) :
      Shape s i (storeTemplate m v s)
  | rmw {i : Instr} (m : MemMode) (f : Byte → Byte → Byte × Byte) : Shape s i (rmwTemplate m f s)
  | composite {i : Instr} (m : MemMode) (f : Byte → Byte → Byte × Byte) (effect : Byte → State → State) :
      Shape s i (compositeTemplate m f effect s)

section
variable {s : State} {i : Instr}

/-- R240: a branch resolves its target and moves PC and CYC. -/
theorem branchTemplate_shape (taken : Bool) : Shape s i (branchTemplate taken s) := by
  cases taken <;> exact .resolves .relative _

/-- R250: the two pushes of JSR answer, so it stops at its target or not at all. -/
theorem execJsr_shape : Shape s i (execJsr s) := by
  obtain ⟨b, hpush, _⟩ := pushWord_eq (s.pc + 2#16) s
  rw [execJsr, hpush]
  exact .resolves .absolute _

/-- R251. -/
theorem execRts_shape : Shape s i (execRts s) := by
  rw [execRts, popWord_eq]
  exact .completes _

/-- R252. -/
theorem execRti_shape : Shape s i (execRti s) := by
  simp only [execRti, pop_eq, popWord_eq, Result.bind_next]
  exact .completes _

/-- R260, R261: PHA and PHP. -/
theorem push_shape (v : Byte) (k : State → State) : Shape s i ((push v s).bind fun s' => .next (k s')) := by
  rw [push_eq]
  exact .completes _

/-- R262, R263: PLA and PLP. -/
theorem pop_shape (k : Byte × State → State) : Shape s i ((pop s).bind fun r => .next (k r)) := by
  rw [pop_eq]
  exact .completes _

end

/-- Every instruction's meaning has one of the shapes. -/
theorem exec_shape (i : Instr) (s : State) : Shape s i (exec i s) := by
  cases i with
  | unimplemented op => exact .unimplemented op
  | lda m | ldx m | ldy m | adc m | sbc m _ | and m | ora m | eor m | cmp m | cpx m | cpy m => exact .read m _
  | bit m | lax m => exact .read (.mem m) _
  | nop m op =>
    cases m with
    | implied => exact .completes _
    | operand m => exact .read m _
  | sta m | stx m | sty m | sax m => exact .store (m := m) (by simp)
  | asl m | lsr m | rol m | ror m =>
    cases m with
    | acc => exact .completes _
    | mem m => exact .rmw m _
  | inc m | dec m => exact .rmw m _
  | slo m | sre m | rla m | rra m | dcp m | isc m => exact .composite m _ _
  | bcc | bcs | bne | beq | bpl | bmi | bvc | bvs => exact branchTemplate_shape _
  | jmp m => exact .resolves m.mode _
  | jsr => exact execJsr_shape
  | rts => exact execRts_shape
  | rti => exact execRti_shape
  | pha | php => exact push_shape _ _
  | pla | plp => exact pop_shape _
  | clc | sec | cli | sei | clv | cld | sed | tax | tay | txa | tya | tsx | txs | inx | dex | iny | dey =>
    exact .completes _

/-! ## Faults -/

/-- R311 to R313: the faults of an instruction in the state `s`: that of a read, `UnknownOpcode` of the byte it stands
for, and, of the four stores, `UnhandledWrite` of their byte in the two ranges that refuse writes. -/
inductive FaultOf (s : State) : Instr → Fault → Prop
  | unknownOpcode (op : Byte) : FaultOf s (.unimplemented op) (.unknownOpcode op)
  | unsupportedRead {i : Instr} (r : Region) : FaultOf s i (.unsupportedRead r)
  | unhandledWrite {i : Instr} {m : MemMode} {v : Byte} {addr : Word}
      (h : (i, v) ∈ [(Instr.sta m, s.a), (.stx m, s.x), (.sty m, s.y), (.sax m, s.a &&& s.x)])
      (haddr : (0x2000 ≤ addr.toNat ∧ addr.toNat < 0x4000) ∨ (0x4016 ≤ addr.toNat ∧ addr.toNat < 0x8000)) :
      FaultOf s i (.unhandledWrite addr v)

theorem FaultOf.of_isReadFault {s : State} {i : Instr} {e : Fault} (h : isReadFault e) : FaultOf s i e := by
  obtain ⟨r, rfl⟩ := h
  exact .unsupportedRead r

theorem Shape.fault {s : State} {i : Instr} {r : Result State} {e : Fault} (h : Shape s i r) (he : r = .fault e) :
    FaultOf s i e := by
  cases h with
  | unimplemented op => cases he; exact .unknownOpcode op
  | completes t => cases he
  | resolves m k =>
    rcases Result.bind_eq_fault.mp he with he | ⟨_, _, he⟩
    · exact .of_isReadFault (resolve_fault he)
    · cases he
  | read m effect => exact .of_isReadFault (readTemplate_fault he)
  | store hi =>
    rcases storeTemplate_fault he with he | ⟨res, _, rfl, haddr⟩
    · exact .of_isReadFault he
    · exact .unhandledWrite hi haddr
  | rmw m f => exact .of_isReadFault (rmwTemplate_fault he)
  | composite m f effect => exact .of_isReadFault (compositeTemplate_fault he)

/-- R310: a step that faults stops at its fetch, or with a fault of the instruction it fetched. -/
theorem step_fault {s : State} {e : Fault} (h : step s = .fault e) :
    isReadFault e ∨ ∃ op, s.bus.readByte s.pc = .next op ∧ FaultOf s (decodeByte op) e := by
  rcases Result.bind_eq_fault.mp h with h | ⟨op, hop, h⟩
  · exact .inl (Bus.readByte_fault h)
  · exact .inr ⟨op, hop, (exec_shape _ s).fault h⟩

/-- R115: a byte that decodes to an instruction without a handler is the byte this instruction stands for, and is
listed. -/
theorem eq_of_decodeByte_unimplemented {b op : Byte} (h : decodeByte b = .unimplemented op) :
    op = b ∧ op ∈ unimplementedBytes := by
  have hop := opcode_decodeByte b
  rw [h] at hop
  obtain ⟨hmem, heq⟩ := Option.ite_none_right_eq_some.mp hop
  exact ⟨Option.some.inj heq, hmem⟩

/-- Settles O5: `UnknownOpcode` is no fault of a read or a write, so the step fetched the byte it names. -/
theorem unimplementedByteRaisesUnknownOpcode : Obligations.UnimplementedByteRaisesUnknownOpcode := by
  refine ⟨rfl, fun s op hmem hop => ?_, fun _ _ => rfl, fun s op h => ?_⟩
  · rw [step, hop, Result.bind_next, decodeByte_unimplementedBytes op hmem]
    rfl
  · rcases step_fault h with ⟨_, hread⟩ | ⟨b, hb, hfault⟩
    · cases hread
    · generalize hi : decodeByte b = i at hfault
      cases hfault
      obtain ⟨rfl, hmem⟩ := eq_of_decodeByte_unimplemented hi
      exact ⟨hb, hmem⟩

/-- Settles O12: of the faults of an instruction only those of the four stores are `UnhandledWrite`. -/
theorem onlyStoresRaiseUnhandledWrite : Obligations.OnlyStoresRaiseUnhandledWrite := by
  intro s addr v h
  rcases step_fault h with ⟨_, hread⟩ | ⟨op, hop, hfault⟩
  · cases hread
  · generalize hi : decodeByte op = i at hfault
    cases hfault with
    | @unhandledWrite _ m _ _ hstore haddr =>
      refine ⟨haddr, op, m, hop, ?_⟩
      rw [hi]
      simpa using hstore

/-! ## Refusals -/

/-- Two operations in a row are not refused when neither is. -/
theorem Result.bind_not_refused {α β : Type} {r : Result α} {f : α → Result β} (hr : ∀ e, r ≠ .refused e)
    (hf : ∀ a, r = .next a → ∀ e, f a ≠ .refused e) (e : Refusal) : r.bind f ≠ .refused e := by
  intro h
  rcases Result.bind_eq_refused.mp h with h | ⟨a, ha, h⟩
  · exact hr e h
  · exact hf a ha e h

/-- The same where the second operation is an update. -/
theorem Result.bind_next_not_refused {α β : Type} {r : Result α} {k : α → β} (hr : ∀ e, r ≠ .refused e)
    (e : Refusal) : (r.bind fun a => .next (k a)) ≠ .refused e :=
  Result.bind_not_refused hr (fun _ _ _ h => by cases h) e

section
variable {s : State} (hs : s.Inv)
include hs

theorem readTemplate_not_refused (m : DataMode) (effect : Byte → State → State) (e : Refusal) :
    readTemplate m effect s ≠ .refused e :=
  Result.bind_not_refused (resolve_not_refused hs _)
    (fun _ _ => Result.bind_next_not_refused (Bus.readByte_not_refused hs _)) e

theorem storeTemplate_not_refused (m : MemMode) (v : Byte) (e : Refusal) : storeTemplate m v s ≠ .refused e :=
  Result.bind_not_refused (resolve_not_refused hs _)
    (fun _ _ => Result.bind_next_not_refused (Bus.writeByte_not_refused _ _ _)) e

theorem rmwTemplate_not_refused (m : MemMode) (f : Byte → Byte → Byte × Byte) (e : Refusal) :
    rmwTemplate m f s ≠ .refused e :=
  Result.bind_not_refused (resolve_not_refused hs _)
    (fun _ _ => Result.bind_not_refused (Bus.readByte_not_refused hs _)
      fun _ _ => Result.bind_next_not_refused (Bus.writeByte_not_refused _ _ _)) e

/-- R168: what a read-modify-write leaves meets the invariant, since it writes through the bus. -/
theorem rmwTemplate_inv {m : MemMode} {f : Byte → Byte → Byte × Byte} {t : State}
    (h : rmwTemplate m f s = .next t) : t.Inv := by
  obtain ⟨_, _, b, _, _, hb, rfl⟩ := rmwTemplate_next h
  exact Bus.writeByte_inv hs hb

/-- R290: the second half of a composite starts from a state that meets the invariant, PC and CYC apart. -/
theorem compositeTemplate_not_refused (m : MemMode) (f : Byte → Byte → Byte × Byte) (effect : Byte → State → State)
    (e : Refusal) : compositeTemplate m f effect s ≠ .refused e :=
  Result.bind_not_refused (rmwTemplate_not_refused hs m f)
    (fun s1 h1 =>
      have hs1 : s1.Inv := rmwTemplate_inv hs h1
      Result.bind_next_not_refused
        (readTemplate_not_refused (s := (s1.setPc s.pc).setCyc s.cyc) hs1 (.mem m) effect)) e

theorem Shape.not_refused {i : Instr} {r : Result State} (h : Shape s i r) (e : Refusal) : r ≠ .refused e := by
  cases h with
  | unimplemented op => exact nofun
  | completes t => exact nofun
  | resolves m k => exact Result.bind_next_not_refused (resolve_not_refused hs m) e
  | read m effect => exact readTemplate_not_refused hs m effect e
  | store hi => exact storeTemplate_not_refused hs _ _ e
  | rmw m f => exact rmwTemplate_not_refused hs m f e
  | composite m f effect => exact compositeTemplate_not_refused hs m f effect e

/-- R310, R341: no step of a machine of the spec is refused. -/
theorem step_not_refused (e : Refusal) : step s ≠ .refused e :=
  Result.bind_not_refused (Bus.readByte_not_refused hs _) (fun _ _ => (exec_shape _ s).not_refused hs) e

end

/-- Settles O6: of the three outcomes of a step the third is shut out. -/
theorem stepIsNeverRefused : Obligations.StepIsNeverRefused := by
  intro s hs
  cases h : step s with
  | next t => exact .inl ⟨t, rfl⟩
  | fault f => exact .inr ⟨f, rfl⟩
  | refused e => exact absurd h (step_not_refused hs e)

end Sys2Proof.Machine
end

section
/-! The trace line (60_exceptions.md R327, R328): the bytes of the instruction at PC, and the line's columns. -/

namespace Sys2Proof.Machine

/-! ## The bytes of the line -/

section
variable {s : State} {op : Byte} (hop : s.bus.readByte s.pc = .next op)
include hop

/-- R112: an instruction of one byte. -/
theorem instrBytes_of_length_one (hlen : instrLength (decodeByte op) = some 1) : instrBytes s = .next [op] := by
  rw [instrBytes_eq hop, hlen]
  rfl

/-- Log entry 7: a byte without a handler has no length, and its line no operand. -/
theorem instrBytes_of_unimplemented (hmem : op ∈ unimplementedBytes) : instrBytes s = .next [op] := by
  rw [instrBytes_eq hop, decodeByte_unimplementedBytes op hmem]
  rfl

/-- R112, R113: the operand byte of an instruction of two bytes. -/
theorem instrBytes_of_length_two (hlen : instrLength (decodeByte op) = some 2) :
    instrBytes s = (s.bus.readByte (s.pc + 1#16)).map fun d => [op, d] := by
  rw [instrBytes_eq hop, hlen]
  exact Result.map_bind ..

/-- R112, R113: the operand word of an instruction of three bytes. -/
theorem instrBytes_of_length_three (hlen : instrLength (decodeByte op) = some 3) :
    instrBytes s = (operandWord s).map fun w => [op, lo w, hi w] := by
  rw [instrBytes_eq hop, hlen]
  exact Result.map_bind ..

end

/-! ## The fields -/

/-- R327: the registers field, digit by digit. -/
theorem registersField_eq (s : State) : registersField s =
    ['A', ':'] ++ hex2 s.a ++ [' ', 'X', ':'] ++ hex2 s.x ++ [' ', 'Y', ':'] ++ hex2 s.y ++ [' ', 'P', ':'] ++
      hex2 s.p ++ [' ', 'S', 'P', ':'] ++ hex2 s.sp ++ [' ', 'C', 'Y', 'C', ':'] ++
      [if traceCycles s < 100 then ' ' else hexDigit (traceCycles s / 100),
        if traceCycles s < 10 then ' ' else hexDigit (traceCycles s / 10 % 10), hexDigit (traceCycles s % 10)] := by
  have := traceCycles_lt s
  rw [registersField, padLeft_decimal _ (by omega)]

theorem spaced_map_toUpper : ∀ bytes : List Byte, (spaced bytes).map Char.toUpper = spaced bytes
  | [] => rfl
  | [b] => hex2_map_toUpper b
  | b :: c :: rest => by
    have hcons : spaced (b :: c :: rest) = hex2 b ++ ' ' :: spaced (c :: rest) := rfl
    rw [hcons, List.map_append, hex2_map_toUpper, List.map_cons, spaced_map_toUpper (c :: rest)]
    rfl

theorem padRight_map_toUpper (width : Nat) (text : List Char) :
    (padRight width text).map Char.toUpper = padRight width (text.map Char.toUpper) := by
  rw [padRight, padRight, List.map_append, List.map_replicate, List.length_map]
  rfl

theorem padRight_length {width : Nat} {text : List Char} (h : text.length ≤ width) :
    (padRight width text).length = width := by
  rw [padRight, List.length_append, List.length_replicate]
  omega

theorem hex4_map_toUpper (w : Word) : (hex4 w).map Char.toUpper = hex4 w := by
  rw [hex4, List.map_append, hex2_map_toUpper, hex2_map_toUpper]

@[simp] theorem hex4_length (w : Word) : (hex4 w).length = 4 := rfl

/-! ## The line -/

section
variable (disasm : State → List Byte → List Char) (s : State) (op : Byte) (ds : List Byte)

/-- R327, decision D19: upper-casing changes the text alone, for the other fields are upper case. -/
theorem traceText_cons : traceText disasm s (op :: ds) =
    hex4 s.pc ++ [' ', ' '] ++ hex2 op ++ [' '] ++ padRight 6 (spaced ds) ++ [' '] ++
      padRight 31 ((disasm s (op :: ds)).map Char.toUpper) ++ [' '] ++ registersField s := by
  have hspace : [' '].map Char.toUpper = [' '] := rfl
  have hspaces : [' ', ' '].map Char.toUpper = [' ', ' '] := rfl
  simp only [traceText, List.take_succ_cons, List.take_zero, List.drop_succ_cons, List.drop_zero, spaced,
    List.map_append, hex4_map_toUpper, hex2_map_toUpper, padRight_map_toUpper, spaced_map_toUpper,
    registersField_map_toUpper, hspace, hspaces]

/-- R327: the line has 81 characters, with at most two operand bytes and a text of at most 31. -/
theorem traceText_length (hds : (spaced ds).length ≤ 6) (htext : ((disasm s (op :: ds)).map Char.toUpper).length ≤ 31) :
    (traceText disasm s (op :: ds)).length = 81 := by
  simp only [traceText_cons, List.length_append, hex4_length, hex2_length, padRight_length hds, padRight_length htext,
    registersField_length, List.length_cons, List.length_nil]

end

/-- Settles O60: the bytes by the instruction's length; the fields are upper case but for the text. -/
theorem traceLineHasItsColumns : Obligations.TraceLineHasItsColumns := by
  refine ⟨fun s op hop => ⟨instrBytes_of_unimplemented hop, instrBytes_of_length_one hop, fun hlen => ?_, fun hlen => ?_⟩,
    fun s e => instrBytes_of_fault, registersField_length, by rfl, ?_⟩
  · rw [instrBytes_of_length_two hop hlen]
    exact ⟨fun d hd => by rw [hd, Result.map_next], fun e he => by rw [he, Result.map_fault]⟩
  · rw [instrBytes_of_length_three hop hlen]
    refine ⟨fun e he => ?_, fun l hl => ⟨fun h hpc hh => ?_, fun e hpc he => ?_, fun hpc => ?_⟩⟩
    · rw [operandWord_fault_first he, Result.map_fault]
    · rw [operandWord_of_bytes hl hpc hh, Result.map_next, lo_word, hi_word]
    · rw [operandWord_fault_second hl hpc he, Result.map_fault]
    · rw [operandWord_outOfRange hl hpc, Result.map_fault]
  · rintro disasm s _ _ _ rfl rfl rfl
    refine ⟨registersField_eq s, fun e he => by rw [traceLine, he, Result.map_fault], ?_⟩
    rintro bytes op operands _ hbytes hcase rfl htext
    obtain ⟨ds, rfl, rfl, hds⟩ : ∃ ds, bytes = op :: ds ∧ operands = padRight 6 (spaced ds) ∧ (spaced ds).length ≤ 6 := by
      rcases hcase with ⟨rfl, rfl⟩ | ⟨d, rfl, rfl⟩ | ⟨l, h, rfl, rfl⟩
      · exact ⟨[], rfl, rfl, by simp [spaced]⟩
      · exact ⟨[d], rfl, rfl, by simp [spaced]⟩
      · exact ⟨[l, h], rfl, rfl, by simp [spaced]⟩
    refine ⟨_, by rw [traceLine, hbytes, Result.map_next], traceText_length disasm s op ds hds htext, ?_⟩
    rw [traceText_cons, hex4_eq, registersField_eq]
    simp only [padRight, List.append_assoc]
    rfl

end Sys2Proof.Machine
end

section
/-! Construction (70_reset_and_hazards.md R340, R341): the state it makes of a cartridge that meets the preconditions, and
that it refuses every other cartridge. -/

namespace Sys2Proof.Machine

/-- R340, R341: the registers of reset over the bus of a newly inserted cartridge. -/
def State.constructed (cart : Cartridge) : State :=
  State.reset.setBus
    { ram := [], lowerBank := 0, upperBank := cart.prgRomBanks.length - 1, mapper := .nrom, cart := cart }

/-- R341: the invariant holds of the constructed state when the cartridge meets the preconditions. -/
theorem State.constructed_inv {cart : Cartridge} (h : cart.valid) : (State.constructed cart).Inv where
  ram := Memory.wf_nil _
  cart := h
  mapper := by
    obtain ⟨_, _, hid⟩ := h
    exact if_pos hid
  lower := rfl
  upper := rfl

/-- R38, R341: with its banks in order, a cartridge is accepted or refused by its `mapper_id` alone. -/
theorem State.construct_of_banks {cart : Cartridge} (hne : cart.prgRomBanks ≠ [])
    (hwf : ∀ m ∈ cart.prgRomBanks, Memory.wf Config.prgBankSize m) : State.construct cart =
      if cart.mapperId = 0x00#8 then .ok (State.constructed cart)
      else .error (.mapperNotSupported cart.mapperId) := by
  rw [State.construct, Bus.construct, if_neg hne, if_pos hwf, mapperOfId]
  by_cases hid : cart.mapperId = 0x00#8
  · rw [if_pos hid, if_pos hid]
    rfl
  · rw [if_neg hid, if_neg hid]
    rfl

/-- A cartridge whose banks are not in order is refused, whatever its `mapper_id`. -/
theorem State.construct_of_not_banks {cart : Cartridge}
    (h : ¬ (cart.prgRomBanks ≠ [] ∧ ∀ m ∈ cart.prgRomBanks, Memory.wf Config.prgBankSize m)) :
    ∃ e, State.construct cart = .error e := by
  rw [State.construct, Bus.construct]
  split
  · exact ⟨_, rfl⟩
  · next hne =>
    rw [if_neg fun hwf => h ⟨hne, hwf⟩]
    exact ⟨_, rfl⟩

/-- R341: what construction answers, of every cartridge. -/
theorem State.construct_eq_ok {cart : Cartridge} {s : State} :
    State.construct cart = .ok s ↔ cart.valid ∧ s = State.constructed cart := by
  by_cases hb : cart.prgRomBanks ≠ [] ∧ ∀ m ∈ cart.prgRomBanks, Memory.wf Config.prgBankSize m
  · obtain ⟨hne, hwf⟩ := hb
    rw [State.construct_of_banks hne hwf]
    by_cases hid : cart.mapperId = 0x00#8
    · have hvalid : cart.valid := ⟨hne, hwf, hid⟩
      simp [hid, hvalid, eq_comm]
    · have hvalid : ¬ cart.valid := fun ⟨_, _, h⟩ => hid h
      simp [hid, hvalid]
  · obtain ⟨e, he⟩ := State.construct_of_not_banks hb
    have hvalid : ¬ cart.valid := fun ⟨hne, hwf, _⟩ => hb ⟨hne, hwf⟩
    simp [he, hvalid]

/-- R341, decisions D16 and D21: a cartridge of another mapper is refused. -/
theorem State.construct_of_other_mapper {cart : Cartridge} (h : cart.mapperId ≠ 0x00#8) :
    ∃ e, State.construct cart = .error e := by
  cases hc : State.construct cart with
  | error e => exact ⟨e, rfl⟩
  | ok s =>
    obtain ⟨⟨_, _, hid⟩, _⟩ := State.construct_eq_ok.mp hc
    exact absurd hid h

/-- R96: the memory a block of 16384 bytes is packed into. -/
theorem packPrgBank_of_length {bytes : List Byte} (h : bytes.length = Config.prgBankSize) :
    packPrgBank bytes = some (packFrom 0 bytes) ∧ Memory.wf Config.prgBankSize (packFrom 0 bytes) ∧
      ∀ k < Config.prgBankSize, bytes[k]? = some ((packFrom 0 bytes).read k) := by
  have hwf := (packFrom_wf bytes 0).1
  rw [Nat.zero_add, h] at hwf
  refine ⟨if_pos h, hwf, fun k hk => ?_⟩
  have hlt : k < bytes.length := h ▸ hk
  have hread := packFrom_read bytes 0 k hlt
  rw [Nat.zero_add] at hread
  rw [hread, List.getElem?_eq_getElem hlt]

/-- Settles O9: construction answers the constructed state exactly for the valid cartridges. -/
theorem constructionMakesTheMachineOfItsCartridge : Obligations.ConstructionMakesTheMachineOfItsCartridge := by
  refine ⟨fun cart => ⟨fun hvalid => ?_, fun ⟨s, hs⟩ => ?_⟩,
    fun cart hid => ⟨State.construct_of_other_mapper hid, fun hne hwf => ?_⟩, fun cart s hs => ?_,
    fun bytes => ⟨fun h => if_neg h, fun h => ⟨_, packPrgBank_of_length h⟩⟩⟩
  · exact ⟨State.constructed cart, State.construct_eq_ok.mpr ⟨hvalid, rfl⟩⟩
  · obtain ⟨hvalid, _⟩ := State.construct_eq_ok.mp hs
    exact hvalid
  · rw [State.construct_of_banks hne hwf, if_neg hid]
  · obtain ⟨hvalid, rfl⟩ := State.construct_eq_ok.mp hs
    have hpos : 0 < cart.prgRomBanks.length := List.length_pos_iff.mpr hvalid.1
    exact ⟨State.constructed_inv hvalid, rfl, rfl, Nat.sub_add_cancel hpos, Memory.read_nil, rfl⟩

end Sys2Proof.Machine
end

section
/-! The cycle counter (70_reset_and_hazards.md R349): raising CYC beforehand commutes with every meaning. Each operation of
the model is shown to commute once; of them only charging a cost touches CYC, and additions commute. -/

namespace Sys2Proof.Machine

/-- `s` with `k` more cycles on the counter. -/
def State.advance (k : BitVec 64) (s : State) : State := s.setCyc (s.cyc + k)

@[simp] theorem State.advance_p (k : BitVec 64) (s : State) : (s.advance k).p = s.p := rfl
@[simp] theorem State.advance_pc (k : BitVec 64) (s : State) : (s.advance k).pc = s.pc := rfl
@[simp] theorem State.advance_bus (k : BitVec 64) (s : State) : (s.advance k).bus = s.bus := rfl

@[simp] theorem State.setPc_advance (k : BitVec 64) (pc : Word) (s : State) :
    (s.advance k).setPc pc = (s.setPc pc).advance k := rfl
@[simp] theorem State.setP_advance (k : BitVec 64) (p : Byte) (s : State) :
    (s.advance k).setP p = (s.setP p).advance k := rfl
@[simp] theorem State.setBus_advance (k : BitVec 64) (b : Bus) (s : State) :
    (s.advance k).setBus b = (s.setBus b).advance k := rfl

/-- R35, R143: a cost is added to the counter whatever it holds. -/
@[simp] theorem State.charge_advance (k : BitVec 64) (cost : Nat) (s : State) :
    (s.advance k).charge cost = (s.charge cost).advance k :=
  congrArg s.setCyc (add_right_comm s.cyc k (BitVec.ofNat 64 cost))

@[simp] theorem State.retire_advance (k : BitVec 64) (len cost : Nat) (s : State) :
    (s.advance k).retire len cost = (s.retire len cost).advance k :=
  (s.setPc (s.pc + BitVec.ofNat 16 len)).charge_advance k cost

/-- Resolution does not see the counter. -/
@[simp] theorem resolve_advance (m : Mode) (k : BitVec 64) (s : State) : resolve m (s.advance k) = resolve m s :=
  resolve_congr m rfl rfl rfl rfl

/-! ## Commuting with the counter -/

/-- Raising the counter before the operation is raising that of the state it answers. -/
def CycleFree (g : State → Result State) : Prop :=
  ∀ k s, g (s.advance k) = (g s).map (State.advance k)

/-- The same for an update of the state. -/
def CycleFreeUpdate (e : State → State) : Prop :=
  ∀ k s, e (s.advance k) = (e s).advance k

/-- Binding carries a raised counter through, when the second operation does. -/
theorem Result.map_bind_eq_map {α β : Type} {r : Result α} {f f' : α → Result β} {g : α → α} {g' : β → β}
    (h : ∀ a, f' (g a) = (f a).map g') : (r.map g).bind f' = (r.bind f).map g' :=
  (Result.bind_assoc r _ f').trans <| (Result.bind_congr fun a _ => h a).trans (Result.map_bind r f g').symm

/-- A meaning that ends by charging a cost: what it did before must carry the raised counter along. `retire` unfolds to a
charge, so this is for it too. -/
theorem next_charge_advance {k : BitVec 64} {u u' : State} (h : u' = u.advance k) (cost : Nat) :
    (Host.Outcome.next (u'.charge cost) : Result State) = Result.map (.next (u.charge cost)) (State.advance k) := by
  rw [h, State.charge_advance, Result.map_next]

/-! ## Templates -/

theorem readTemplate_cycleFree {effect : Byte → State → State} (m : DataMode)
    (he : ∀ b, CycleFreeUpdate (effect b)) : CycleFree (readTemplate m effect) := by
  intro k s
  simp only [readTemplate, resolve_advance, State.advance_bus, he _ k s, State.retire_advance, Result.map_bind,
    Result.map_next]

theorem storeTemplate_cycleFree (m : MemMode) (v : Byte) : CycleFree (storeTemplate m v) := by
  intro k s
  simp only [storeTemplate, resolve_advance, State.advance_bus, State.setBus_advance, State.retire_advance,
    Result.map_bind, Result.map_next]

theorem rmwTemplate_cycleFree (m : MemMode) (f : Byte → Byte → Byte × Byte) : CycleFree (rmwTemplate m f) := by
  intro k s
  simp only [rmwTemplate, resolve_advance, State.advance_bus, State.advance_p, State.setBus_advance,
    State.setP_advance, State.retire_advance, Result.map_bind, Result.map_next]

theorem shiftTemplate_cycleFree (m : ShiftMode) (f : Byte → Byte → Byte × Byte) : CycleFree (shiftTemplate m f) := by
  intro k s
  cases m with
  | acc => exact next_charge_advance (by rfl) _
  | mem m => exact rmwTemplate_cycleFree m f k s

/-- R290: both primitives of a composite commute, and the counter it puts back is the raised one. -/
theorem compositeTemplate_cycleFree {effect : Byte → State → State} (m : MemMode) (f : Byte → Byte → Byte × Byte)
    (he : ∀ b, CycleFreeUpdate (effect b)) : CycleFree (compositeTemplate m f effect) := by
  intro k s
  rw [compositeTemplate, compositeTemplate, rmwTemplate_cycleFree m f k s]
  refine Result.map_bind_eq_map fun s1 => ?_
  have second := readTemplate_cycleFree (.mem m) he k ((s1.setPc s.pc).setCyc s.cyc)
  exact (congrArg (Result.bind · _) second).trans (Result.map_bind_eq_map fun _ => next_charge_advance (by rfl) _)

/-- R240: a branch, taken or not. -/
theorem branchTemplate_cycleFree (taken : Bool) : CycleFree (branchTemplate taken) := by
  intro k s
  cases taken with
  | false => simp [branchTemplate, Result.map_bind]
  | true => simp [branchTemplate, Result.map_bind]

/-! ## Jumps and the stack -/

theorem execJmp_cycleFree (m : JmpMode) : CycleFree (execJmp m) := by
  intro k s
  simp only [execJmp, resolve_advance, State.setPc_advance, State.charge_advance, Result.map_bind, Result.map_next]

theorem push_cycleFree (v : Byte) : CycleFree (push v) := by
  intro k s
  simp only [push_eq]
  rfl

theorem pushWord_cycleFree (w : Word) : CycleFree (pushWord w) := by
  intro k s
  rw [pushWord, push_cycleFree _ k s]
  exact Result.map_bind_eq_map fun s1 => push_cycleFree _ k s1

/-- PHA and PHP (R260, R261). -/
theorem push_retire_cycleFree (v : Byte) : CycleFree fun s => (push v s).bind fun t => .next (t.retire 1 3) := by
  intro k s
  simp only [push_cycleFree v k s]
  exact Result.map_bind_eq_map fun _ => next_charge_advance (by rfl) _

/-- PLA and PLP (R262, R263). -/
theorem pop_retire_cycleFree {e : Byte → State → State} (he : ∀ b, CycleFreeUpdate (e b)) :
    CycleFree fun s => (pop s).bind fun r => .next ((e r.1 r.2).retire 1 4) := by
  intro k s
  simp only [pop_eq, Result.bind_next]
  have update := he (s.bus.ram.read (0x100 + (s.sp + 1#8).toNat)) k (s.setSp (s.sp + 1#8))
  exact (congrArg (fun u => Host.Outcome.next (State.retire 1 4 u)) update).trans (next_charge_advance (by rfl) 4)

theorem execJsr_cycleFree : CycleFree execJsr := by
  intro k s
  rw [execJsr, execJsr, resolve_advance, Result.map_bind, State.advance_pc, pushWord_cycleFree _ k s]
  exact Result.bind_congr fun _ _ => Result.map_bind_eq_map fun _ => next_charge_advance (by rfl) 6

theorem execRts_cycleFree : CycleFree execRts := by
  intro k s
  simp only [execRts, popWord_eq]
  exact next_charge_advance (by rfl) 6

theorem execRti_cycleFree : CycleFree execRti := by
  intro k s
  simp only [execRti, pop_eq, popWord_eq, Result.bind_next]
  exact next_charge_advance (by rfl) 6

/-! ## Every instruction -/

/-- No meaning sees the counter. -/
theorem exec_cycleFree (i : Instr) : CycleFree (exec i) := by
  intro k s
  cases i with
  | unimplemented op => rfl
  | lda m | ldx m | ldy m | adc m | sbc m _ | and m | ora m | eor m | cmp m | cpx m | cpy m =>
    exact readTemplate_cycleFree m (fun _ _ _ => rfl) k s
  | bit m | lax m => exact readTemplate_cycleFree (.mem m) (fun _ _ _ => rfl) k s
  | nop m op =>
    cases m with
    | implied => exact next_charge_advance (by rfl) _
    | operand m => exact readTemplate_cycleFree m (fun _ _ _ => rfl) k s
  | sta m | stx m | sty m | sax m => exact storeTemplate_cycleFree m _ k s
  | asl m | lsr m | rol m | ror m => exact shiftTemplate_cycleFree m _ k s
  | inc m | dec m => exact rmwTemplate_cycleFree m _ k s
  | slo m | sre m | rla m | rra m | dcp m | isc m => exact compositeTemplate_cycleFree m _ (fun _ _ _ => rfl) k s
  | bcc | bcs | bne | beq | bpl | bmi | bvc | bvs => exact branchTemplate_cycleFree _ k s
  | jmp m => exact execJmp_cycleFree m k s
  | jsr => exact execJsr_cycleFree k s
  | rts => exact execRts_cycleFree k s
  | rti => exact execRti_cycleFree k s
  | pha | php => exact push_retire_cycleFree _ k s
  | pla => exact pop_retire_cycleFree (e := loadA) (fun _ _ _ => rfl) k s
  | plp => exact pop_retire_cycleFree (e := fun v t => t.setP (pulledStatus v)) (fun _ _ _ => rfl) k s
  | clc | sec | cli | sei | clv | cld | sed | tax | tay | txa | tya | tsx | txs | inx | dex | iny | dey =>
    exact next_charge_advance (by rfl) _

/-- Settles O15: the fetch does not read the counter, and no meaning sees it. -/
theorem nothingDependsOnCycleCount : Obligations.NothingDependsOnCycleCount := by
  intro s k
  have hexec : ∀ op, exec (decodeByte op) (s.advance k) = Result.map (exec (decodeByte op) s) (State.advance k) :=
    fun op => exec_cycleFree (decodeByte op) k s
  exact (Result.bind_congr fun op _ => hexec op).trans (Result.map_bind _ _ _).symm

end Sys2Proof.Machine
end
